-- ==== Sys2Proof/Word.lean ====
section
/-! DEFINITION. The word types of the block: one per width the spec names. -/

namespace Sys2Proof

/-- A byte of an operation written as text (30_encoding R91). The block itself has no bytes (00_scope R13). -/
abbrev Byte := BitVec 8

/-- A command word, a response word: `FRAME_BITS` = 16 (00_scope R9). -/
abbrev Word16 := BitVec 16

/-- A sample: `SAMPLE_BITS` = 12 (00_scope R9). -/
abbrev Sample := BitVec 12

/-- A channel address 0 to 15: `CHANNEL_BITS` = 4 (00_scope R9, 20_memory R51). -/
abbrev Channel := BitVec 4

end Sys2Proof
end

