-- ==== Sys2Proof/Syntax.lean ====
section
/-! DEFINITION. The operations of the opcode table (30_encoding R90) as one inductive, with their operands,
and the records in which an operation can be handed to the host. -/

namespace Sys2Proof

/-- The six configuration fields (10_state R35, R36). Each is exactly as wide as its field in the command
word, so every value is legal (10_state R22). The spec gives the fields no meaning: opaque bits (00_scope R18). -/
structure Cfg where
  seq    : BitVec 1
  pm     : BitVec 2
  shadow : BitVec 1
  weak   : BitVec 1
  range  : BitVec 1
  coding : BitVec 1
deriving DecidableEq, Repr, Inhabited

/-- The inputs of the command encoder: a channel and the six fields (40_encoder R100). -/
structure CmdFields where
  ch  : Channel
  cfg : Cfg
deriving DecidableEq, Repr, Inhabited

/-- The configuration fields of an `XFER_ENC` line: a field left out takes the host's current value (30_encoding R91). -/
structure CfgOverride where
  seq    : Option (BitVec 1)
  pm     : Option (BitVec 2)
  shadow : Option (BitVec 1)
  weak   : Option (BitVec 1)
  range  : Option (BitVec 1)
  coding : Option (BitVec 1)
deriving DecidableEq, Repr

/-- What `EXTRACT` reads: the port `rsp_word`, or a response word that is given (42_extractor R160; entry 11). -/
inductive RspSource where
  | port
  | word (r : Word16)
deriving DecidableEq, Repr

/-- One request: `XFER_ENC` with its fields or `XFER_RAW` with its word (30_encoding R85). -/
inductive Request where
  | enc (f : CmdFields)
  | raw (w : Word16)
deriving DecidableEq, Repr

/-- The six fields by name, for the mutators (43_host_sequences R181). -/
inductive Field where
  | seq | pm | shadow | weak | range | coding
deriving DecidableEq, Repr

/-- One constructor per row of the opcode table (30_encoding R90). A READ's channel (43_host_sequences R170) and a mutator's value
(92_eei_decisions D19) are mathematical integers. DESIGN CHOICE (entry 31): a DELAY's count is a natural number. -/
inductive Instr where
  | encode (f : CmdFields)                       -- ENCODE, R100
  | xferEnc (ch : Channel) (o : CfgOverride)     -- XFER_ENC, R120
  | xferRaw (w : Word16)                         -- XFER_RAW, R121
  | extract (src : RspSource)                    -- EXTRACT, R160
  | writeFrame (f : CmdFields)                   -- WRITE_FRAME, R100
  | nopFrame                                     -- NOP_FRAME, R172
  | onesFrame                                    -- ONES_FRAME, R174
  | read (c : Int)                               -- READ, R170
  | resetSeq                                     -- RESET_SEQ, R173
  | delay (n : Nat)                              -- DELAY, R179
  | setSeq (v : Int)                             -- SET_SEQ, R182
  | setPm (v : Int)                              -- SET_PM, R183
  | setShadow (v : Int)                          -- SET_SHADOW, R184
  | setWeak (v : Int)                            -- SET_WEAK, R185
  | setRange (v : Int)                           -- SET_RANGE, R186
  | setCoding (v : Int)                          -- SET_CODING, R187
deriving DecidableEq, Repr

/-- The mnemonics of the opcode table (30_encoding R90). -/
inductive Mnemonic where
  | encode | xferEnc | xferRaw | extract | writeFrame | nopFrame | onesFrame | read | resetSeq | delay
  | setSeq | setPm | setShadow | setWeak | setRange | setCoding
deriving DecidableEq, Repr

/-- The operand names of 30_encoding R91's `<key>=<value>` operands. -/
inductive Key where
  | ch | seq | pm | shadow | weak | range | coding
deriving DecidableEq, Repr

/-- One queued operation, in one of the formats of 30_encoding: a line of text (R91), a request record (R85),
a command word (R80), a response word (R84). -/
inductive Record where
  | line (bytes : List Byte)
  | req (bits : BitVec 28)
  | cmd (w : Word16)
  | rsp (w : Word16)
deriving DecidableEq, Repr

/-- Why a line of text is no operation. -/
inductive DecodeError where
  | unknownMnemonic     -- the first token is no mnemonic of R90
  | missingOperand      -- an operand the notation asks for is not there
  | badOperand          -- an operand is not written as R91 writes it
  | operandOutOfRange   -- a field value wider than its port (R22)
  | trailingText        -- text after the last operand
deriving DecidableEq, Repr

end Sys2Proof
end

