-- ==== Sys2Proof/Config.lean ====
section
/-! DEFINITION. What an implementation fixes (the open parameters of 00_scope R10), the events of a run, and the
free values: opaque constants that nothing can evaluate. -/

namespace Sys2Proof

/-- The elaboration parameters (00_scope R10, 10_state R27; 93_implementation_defined section 2). They are OPEN: a
claim quantifies over them (D7, D8, D15 to D17; entry 2). -/
structure Params where
  /-- `DIV - 1`, so that `DIV ≥ 1` holds by construction. -/
  divPred   : Nat
  /-- `CPOL`: the idle level of SCLK (true is 1). -/
  cpol      : Bool
  /-- `CPHA`: false samples on the leading edge, true on the trailing edge. -/
  cpha      : Bool
  /-- `SETTLE`, in host time units. -/
  settle    : Nat
  /-- `DELAY_UNIT_CYCLES`: clk cycles in one host time unit (D15). -/
  delayUnit : Nat
  /-- `DUMMY_CH`: the channel of a mutator's dummy read. -/
  dummyCh   : Channel
  /-- `CFG_INIT`: the host's configuration at start. -/
  cfgInit   : Cfg
deriving DecidableEq, Repr

/-- `DIV`: clk cycles in one SCLK half-period, at least 1 (00_scope R10). -/
def Params.div (p : Params) : Nat := p.divPred + 1

/-- The number of the SPI mode, `2·CPOL + CPHA` (41_transactor R150). -/
def Params.spiMode (p : Params) : Nat := 2 * p.cpol.toNat + p.cpha.toNat

/-- `CPHA` as the number that 41_transactor R137 adds to an edge index. -/
def Params.phase (p : Params) : Nat := p.cpha.toNat

/-- What a run records (20_memory R57: a model must record every frame as an event, in the order performed; entry 23).
`k` is the number of the clk edge, or for a wait the cycle in which it starts. -/
inductive Event where
  /-- A request was accepted at edge `k`; the frame sends `w`. -/
  | accept (k : Nat) (w : Word16)
  /-- The frame completed at edge `k`; its response is `r`. -/
  | complete (k : Nat) (r : Word16)
  /-- `rst` was 1 at edge `k`; `cut` says whether it cut a frame short (70_reset_and_hazards R222). -/
  | reset (k : Nat) (cut : Bool)
  /-- The host began to wait `n` time units in cycle `k` (43_host_sequences R179). -/
  | delay (k : Nat) (n : Nat)
deriving DecidableEq, Repr, Inhabited

/-- The serial pins the block drives (10_state R25). -/
inductive Pin where
  | csN | sclk | mosi
deriving DecidableEq, Repr

/-- FREE VALUE: the level of MISO in a cycle for which no level is given (20_memory R60: a draw with no law; U8, U9, U11).
It depends on the whole record of events, so that no claim can compare the responses of two different histories (entry 3). -/
opaque Config.freeMiso : List Event → Nat → Bool

/-- FREE VALUE: the level of a pin in a cycle before the first reset (70_reset_and_hazards R223, U1; entry 14). -/
opaque Config.freePin : Pin → List Event → Nat → Bool

/-- FREE VALUE: the device's Control Register where the spec does not say it (U2, U3, U5, U16; entry 15). -/
opaque Config.freeCtrl : List Event → Nat → Cfg

/-- FREE VALUE: whether the device, its Control Register as given, converts the channel of a write frame (60_exceptions R212, U6: no
power mode may be assumed to keep it responsive; entry 15). -/
opaque Config.freeConverts : Cfg → List Event → Nat → Bool

/-- FREE VALUE: the device's conversion result (U9; entry 15). -/
opaque Config.freeConv : List Event → Nat → Sample

end Sys2Proof
end

