-- ==== Sys2Proof/WellFormed.lean ====
section
/-! DEFINITION. Which terms of `Instr` are well formed. Every port-wide operand is legal by its type
(30_encoding R86, R87); a mutator takes any integer (43_host_sequences R180, D19); only READ has a bound on its operand. -/

namespace Sys2Proof

/-- The channels a READ has a meaning for: 0 to 15 (43_host_sequences R189). -/
def channelInRange (c : Int) : Bool := decide (0 ≤ c) && decide (c ≤ 15)

/-- A well-formed operation: `READ <0..15>` (30_encoding R91, 43_host_sequences R189); the others always are. -/
def Instr.wellFormed : Instr → Bool
  | .encode _ => true
  | .xferEnc _ _ => true
  | .xferRaw _ => true
  | .extract _ => true
  | .writeFrame _ => true
  | .nopFrame => true
  | .onesFrame => true
  | .read c => channelInRange c
  | .resetSeq => true
  | .delay _ => true
  | .setSeq _ => true
  | .setPm _ => true
  | .setShadow _ => true
  | .setWeak _ => true
  | .setRange _ => true
  | .setCoding _ => true

end Sys2Proof
end

