-- ==== Sys2Proof/Decode.lean ====
section
/-! DEFINITION. The decoders of the spec's formats (CMD16, REQ, RSP16 and the line of text, 30_encoding), each total,
and after them the encoders. Entries 7, 8, 9 and 11 say what the spec leaves open here. -/

namespace Sys2Proof

/-! ### The command frame, CMD16 (30_encoding R80 to R83) -/

/-- The fields of a command word (30_encoding R82). -/
def unpackCmd (w : Word16) : CmdFields where
  ch := w.extractLsb' 10 4
  cfg :=
    { seq := w.extractLsb' 14 1
      pm := w.extractLsb' 8 2
      shadow := w.extractLsb' 7 1
      weak := w.extractLsb' 6 1
      range := w.extractLsb' 5 1
      coding := w.extractLsb' 4 1 }

/-- `write = W[15]` (30_encoding R82). -/
def cmdWrite (w : Word16) : Bool := w.getLsbD 15

/-- `pad = W[3:0]` (30_encoding R82). -/
def cmdPad (w : Word16) : BitVec 4 := w.extractLsb' 0 4

/-- An encoded write word: `W[15] = 1` and `W[3:0] = 0` (30_encoding R83). -/
def isEncodedWrite (w : Word16) : Bool := cmdWrite w && (cmdPad w == 0)

/-- The zero word, the no-op command (43_host_sequences R172). -/
def zeroWord : Word16 := 0x0000

/-- The all-ones word (43_host_sequences R174). -/
def onesWord : Word16 := 0xFFFF

/-- The frame decoder (30_encoding R83, R90): `NOP_FRAME` and `ONES_FRAME` are the named words, an encoded write word is a
`WRITE_FRAME`, and any other word is sent by `XFER_RAW`. No word is illegal (R87). -/
def decodeCmd (w : Word16) : Instr :=
  if w = zeroWord then .nopFrame
  else if w = onesWord then .onesFrame
  else if isEncodedWrite w then .writeFrame (unpackCmd w)
  else .xferRaw w

/-! ### The request record, REQ (30_encoding R85) -/

/-- The bits of a request record, this model's placing (entry 8): bit 0 is `req_op` (as the opcode table has it), bits 16:1
`req_raw`, bits 20:17 `ch`, then `seq`, `pm`, `shadow`, `weak`, `range`, `coding` upwards from bit 21. The fields of
the other operation are don't-care (R85). No record is illegal (R87). -/
def decodeReq (b : BitVec 28) : Instr :=
  if b.getLsbD 0 then .xferRaw (b.extractLsb' 1 16)
  else
    .xferEnc (b.extractLsb' 17 4)
      { seq := some (b.extractLsb' 21 1)
        pm := some (b.extractLsb' 22 2)
        shadow := some (b.extractLsb' 24 1)
        weak := some (b.extractLsb' 25 1)
        range := some (b.extractLsb' 26 1)
        coding := some (b.extractLsb' 27 1) }

/-! ### The response frame, RSP16 (30_encoding R84) -/

/-- A response word is what `EXTRACT` is applied to (30_encoding R84, R90; every response word matches). -/
def decodeRsp (w : Word16) : Instr := .extract (.word w)

/-- `echo`, bits 15:12 of a response (30_encoding R84). -/
def rspEcho (w : Word16) : BitVec 4 := w.extractLsb' 12 4

/-! ### The line of text (30_encoding R91) -/

/-- A space, which separates the tokens of a line. -/
def spaceByte : Byte := 0x20

/-- Characters as their ASCII codes. -/
def asciiBytes (cs : List Char) : List Byte := cs.map fun c => BitVec.ofNat 8 c.toNat

/-- A mnemonic as the opcode table spells it (30_encoding R90). -/
def Mnemonic.text : Mnemonic → List Byte
  | .encode => asciiBytes ['E', 'N', 'C', 'O', 'D', 'E']
  | .xferEnc => asciiBytes ['X', 'F', 'E', 'R', '_', 'E', 'N', 'C']
  | .xferRaw => asciiBytes ['X', 'F', 'E', 'R', '_', 'R', 'A', 'W']
  | .extract => asciiBytes ['E', 'X', 'T', 'R', 'A', 'C', 'T']
  | .writeFrame => asciiBytes ['W', 'R', 'I', 'T', 'E', '_', 'F', 'R', 'A', 'M', 'E']
  | .nopFrame => asciiBytes ['N', 'O', 'P', '_', 'F', 'R', 'A', 'M', 'E']
  | .onesFrame => asciiBytes ['O', 'N', 'E', 'S', '_', 'F', 'R', 'A', 'M', 'E']
  | .read => asciiBytes ['R', 'E', 'A', 'D']
  | .resetSeq => asciiBytes ['R', 'E', 'S', 'E', 'T', '_', 'S', 'E', 'Q']
  | .delay => asciiBytes ['D', 'E', 'L', 'A', 'Y']
  | .setSeq => asciiBytes ['S', 'E', 'T', '_', 'S', 'E', 'Q']
  | .setPm => asciiBytes ['S', 'E', 'T', '_', 'P', 'M']
  | .setShadow => asciiBytes ['S', 'E', 'T', '_', 'S', 'H', 'A', 'D', 'O', 'W']
  | .setWeak => asciiBytes ['S', 'E', 'T', '_', 'W', 'E', 'A', 'K']
  | .setRange => asciiBytes ['S', 'E', 'T', '_', 'R', 'A', 'N', 'G', 'E']
  | .setCoding => asciiBytes ['S', 'E', 'T', '_', 'C', 'O', 'D', 'I', 'N', 'G']

/-- Every mnemonic of the opcode table. -/
def Mnemonic.all : List Mnemonic :=
  [.encode, .xferEnc, .xferRaw, .extract, .writeFrame, .nopFrame, .onesFrame, .read, .resetSeq, .delay,
   .setSeq, .setPm, .setShadow, .setWeak, .setRange, .setCoding]

/-- The mnemonic a token spells, if it spells one. -/
def mnemonicOf (token : List Byte) : Option Mnemonic := Mnemonic.all.find? fun m => m.text == token

/-- The name of an operand with its `=` sign (30_encoding R91). -/
def Key.text : Key → List Byte
  | .ch => asciiBytes ['c', 'h', '=']
  | .seq => asciiBytes ['s', 'e', 'q', '=']
  | .pm => asciiBytes ['p', 'm', '=']
  | .shadow => asciiBytes ['s', 'h', 'a', 'd', 'o', 'w', '=']
  | .weak => asciiBytes ['w', 'e', 'a', 'k', '=']
  | .range => asciiBytes ['r', 'a', 'n', 'g', 'e', '=']
  | .coding => asciiBytes ['c', 'o', 'd', 'i', 'n', 'g', '=']

/-- The tokens of a line: what stands between its spaces. -/
def splitSpaces : List Byte → List (List Byte)
  | [] => [[]]
  | b :: bs =>
    if b = spaceByte then [] :: splitSpaces bs
    else
      match splitSpaces bs with
      | [] => [[b]]
      | t :: ts => (b :: t) :: ts

/-- What follows `start` in `token`, if the token begins with it. -/
def dropStart : List Byte → List Byte → Option (List Byte)
  | [], token => some token
  | _ :: _, [] => none
  | a :: start, b :: token => if a = b then dropStart start token else none

/-- Decimal digits read on from the value `acc`. -/
def parseDigits (acc : Nat) : List Byte → Option Nat
  | [] => some acc
  | b :: bs =>
    if 0x30 ≤ b.toNat ∧ b.toNat ≤ 0x39 then parseDigits (acc * 10 + (b.toNat - 0x30)) bs else none

/-- A decimal number: at least one digit. -/
def parseNat : List Byte → Option Nat
  | [] => none
  | b :: bs => parseDigits 0 (b :: bs)

/-- A decimal integer, with `-` before a negative one (95_test_vectors H-5 writes `SET_SEQ -1`). -/
def parseInt : List Byte → Option Int
  | [] => none
  | b :: bs =>
    if b = 0x2D then (parseNat bs).map fun n => -(n : Int)
    else (parseNat (b :: bs)).map fun n => (n : Int)

/-- A hexadecimal digit, in either case. -/
def parseHexDigit (b : Byte) : Option (BitVec 4) :=
  if 0x30 ≤ b.toNat ∧ b.toNat ≤ 0x39 then some (BitVec.ofNat 4 (b.toNat - 0x30))
  else if 0x41 ≤ b.toNat ∧ b.toNat ≤ 0x46 then some (BitVec.ofNat 4 (b.toNat - 0x37))
  else if 0x61 ≤ b.toNat ∧ b.toNat ≤ 0x66 then some (BitVec.ofNat 4 (b.toNat - 0x57))
  else none

/-- A 16-bit word: `0x` and four hexadecimal digits (30_encoding R91, 00_scope R11). -/
def parseHexWord : List Byte → Option Word16
  | [z, x, a, b, c, d] =>
    if z = 0x30 ∧ x = 0x78 then
      match parseHexDigit a, parseHexDigit b, parseHexDigit c, parseHexDigit d with
      | some a, some b, some c, some d => some (a ++ b ++ c ++ d)
      | _, _, _, _ => none
    else none
  | _ => none

/-- The value of the field `k` if the next token names it, and the tokens after it; the field may be left out
(30_encoding R91). A value too wide for the port is refused (10_state R22). -/
def takeField (k : Key) (width : Nat) (tokens : List (List Byte)) :
    Except DecodeError (Option (BitVec width) × List (List Byte)) :=
  match tokens with
  | [] => .ok (none, [])
  | t :: ts =>
    match dropStart k.text t with
    | none => .ok (none, t :: ts)
    | some digits =>
      match parseNat digits with
      | none => .error .badOperand
      | some n => if n < 2 ^ width then .ok (some (BitVec.ofNat width n), ts) else .error .operandOutOfRange

/-- An operand that must be there. -/
def required {α : Type} (o : Option α) : Except DecodeError α :=
  match o with
  | some a => .ok a
  | none => .error .missingOperand

/-- Nothing may stand after the last operand. -/
def noMore (tokens : List (List Byte)) (i : Instr) : Except DecodeError Instr :=
  match tokens with
  | [] => .ok i
  | _ :: _ => .error .trailingText

/-- `ch=<0..15>` and the six fields, each of which may be left out, in this order (30_encoding R91; entry 7). -/
def takeFields (tokens : List (List Byte)) : Except DecodeError ((Option Channel × CfgOverride) × List (List Byte)) := do
  let (ch, t) ← takeField .ch 4 tokens
  let (seq, t) ← takeField .seq 1 t
  let (pm, t) ← takeField .pm 2 t
  let (shadow, t) ← takeField .shadow 1 t
  let (weak, t) ← takeField .weak 1 t
  let (range, t) ← takeField .range 1 t
  let (coding, t) ← takeField .coding 1 t
  return ((ch, { seq, pm, shadow, weak, range, coding }), t)

/-- All seven fields, none left out. -/
def allFields (ch : Option Channel) (o : CfgOverride) : Except DecodeError CmdFields := do
  let ch ← required ch
  let seq ← required o.seq
  let pm ← required o.pm
  let shadow ← required o.shadow
  let weak ← required o.weak
  let range ← required o.range
  let coding ← required o.coding
  return { ch, cfg := { seq, pm, shadow, weak, range, coding } }

/-- A line with one operand that `parse` reads. -/
def oneOperand {α : Type} (parse : List Byte → Option α) (mk : α → Instr) (tokens : List (List Byte)) :
    Except DecodeError Instr :=
  match tokens with
  | [] => .error .missingOperand
  | t :: ts =>
    match parse t with
    | some a => noMore ts (mk a)
    | none => .error .badOperand

/-- The operands of a line whose mnemonic is `m` (30_encoding R91; entry 7 for `ENCODE`, `WRITE_FRAME`, `EXTRACT`). DESIGN CHOICE
(entry 31): the `<n>` of `DELAY <n>` is a natural number, so a line with a negative one is refused as `badOperand`. -/
def decodeOperands (m : Mnemonic) (tokens : List (List Byte)) : Except DecodeError Instr :=
  match m with
  | .encode => do
    let ((ch, o), t) ← takeFields tokens
    noMore t (.encode (← allFields ch o))
  | .xferEnc => do
    let ((ch, o), t) ← takeFields tokens
    noMore t (.xferEnc (← required ch) o)
  | .xferRaw => oneOperand parseHexWord .xferRaw tokens
  | .extract =>
    match tokens with
    | [] => .ok (.extract .port)
    | t :: ts => oneOperand parseHexWord (fun r => .extract (.word r)) (t :: ts)
  | .writeFrame => do
    let ((ch, o), t) ← takeFields tokens
    noMore t (.writeFrame (← allFields ch o))
  | .nopFrame => noMore tokens .nopFrame
  | .onesFrame => noMore tokens .onesFrame
  | .read => oneOperand parseInt .read tokens
  | .resetSeq => noMore tokens .resetSeq
  | .delay => oneOperand parseNat .delay tokens
  | .setSeq => oneOperand parseInt .setSeq tokens
  | .setPm => oneOperand parseInt .setPm tokens
  | .setShadow => oneOperand parseInt .setShadow tokens
  | .setWeak => oneOperand parseInt .setWeak tokens
  | .setRange => oneOperand parseInt .setRange tokens
  | .setCoding => oneOperand parseInt .setCoding tokens

/-- A line of text as an operation, or the name of what is wrong with it (30_encoding R91). Total on any bytes. -/
def decodeLine (bytes : List Byte) : Except DecodeError Instr :=
  match splitSpaces bytes with
  | [] => .error .unknownMnemonic
  | t :: ts =>
    match mnemonicOf t with
    | some m => decodeOperands m ts
    | none => .error .unknownMnemonic

/-- A queued record as an operation. -/
def decode : Record → Except DecodeError Instr
  | .line bytes => decodeLine bytes
  | .req bits => .ok (decodeReq bits)
  | .cmd w => .ok (decodeCmd w)
  | .rsp w => .ok (decodeRsp w)

/-! ### The encoders -/

/-- `1` in bit 15 and the fields' weights: 30_encoding R81's sum
`0x8000 + seq·0x4000 + ch·0x0400 + pm·0x0100 + shadow·0x0080 + weak·0x0040 + range·0x0020 + coding·0x0010`. -/
def packCmd (f : CmdFields) : Word16 :=
  BitVec.ofNat 16
    (0x8000 + f.cfg.seq.toNat * 0x4000 + f.ch.toNat * 0x0400 + f.cfg.pm.toNat * 0x0100 + f.cfg.shadow.toNat * 0x0080
      + f.cfg.weak.toNat * 0x0040 + f.cfg.range.toNat * 0x0020 + f.cfg.coding.toNat * 0x0010)

/-- The request record of a request, its don't-care bits 0 (30_encoding R85; entry 8). -/
def packReq : Request → BitVec 28
  | .raw w => (0 : BitVec 11) ++ w ++ (1 : BitVec 1)
  | .enc f =>
    f.cfg.coding ++ f.cfg.range ++ f.cfg.weak ++ f.cfg.shadow ++ f.cfg.pm ++ f.cfg.seq ++ f.ch ++ (0 : BitVec 16)
      ++ (0 : BitVec 1)

/-- A digit's ASCII code. -/
def digitByte (d : Nat) : Byte := BitVec.ofNat 8 (0x30 + d)

/-- The decimal digits of `n`, at most `fuel + 1` of them. -/
def natDigits : Nat → Nat → List Byte
  | 0, n => [digitByte (n % 10)]
  | fuel + 1, n => if n < 10 then [digitByte n] else natDigits fuel (n / 10) ++ [digitByte (n % 10)]

/-- A natural number in decimal. -/
def printNat (n : Nat) : List Byte := natDigits n n

/-- An integer in decimal. -/
def printInt : Int → List Byte
  | .ofNat n => printNat n
  | .negSucc n => 0x2D :: printNat (n + 1)

/-- A hexadecimal digit, in capitals. -/
def hexByte (d : BitVec 4) : Byte := if d.toNat < 10 then BitVec.ofNat 8 (0x30 + d.toNat) else BitVec.ofNat 8 (0x37 + d.toNat)

/-- A word as `0x` and four digits. -/
def printHexWord (w : Word16) : List Byte :=
  [0x30, 0x78, hexByte (w.extractLsb' 12 4), hexByte (w.extractLsb' 8 4), hexByte (w.extractLsb' 4 4), hexByte (w.extractLsb' 0 4)]

/-- A field with its value. -/
def fieldToken {width : Nat} (k : Key) (v : BitVec width) : List Byte := k.text ++ printNat v.toNat

/-- A field's token, if the field is given. -/
def optToken {width : Nat} (k : Key) : Option (BitVec width) → List (List Byte)
  | none => []
  | some v => [fieldToken k v]

/-- The six fields in order, those left out missing. -/
def overrideTokens (o : CfgOverride) : List (List Byte) :=
  optToken .seq o.seq ++ (optToken .pm o.pm ++ (optToken .shadow o.shadow ++ (optToken .weak o.weak
    ++ (optToken .range o.range ++ optToken .coding o.coding))))

/-- All six fields of a configuration given. -/
def Cfg.asOverride (c : Cfg) : CfgOverride :=
  { seq := some c.seq, pm := some c.pm, shadow := some c.shadow, weak := some c.weak, range := some c.range, coding := some c.coding }

/-- The tokens of the seven encoder inputs. -/
def cmdTokens (f : CmdFields) : List (List Byte) := fieldToken .ch f.ch :: overrideTokens f.cfg.asOverride

/-- The mnemonic of an operation (30_encoding R90). -/
def Instr.mnemonic : Instr → Mnemonic
  | .encode _ => .encode
  | .xferEnc _ _ => .xferEnc
  | .xferRaw _ => .xferRaw
  | .extract _ => .extract
  | .writeFrame _ => .writeFrame
  | .nopFrame => .nopFrame
  | .onesFrame => .onesFrame
  | .read _ => .read
  | .resetSeq => .resetSeq
  | .delay _ => .delay
  | .setSeq _ => .setSeq
  | .setPm _ => .setPm
  | .setShadow _ => .setShadow
  | .setWeak _ => .setWeak
  | .setRange _ => .setRange
  | .setCoding _ => .setCoding

/-- The operands of an operation as tokens (30_encoding R91). -/
def operandTokens : Instr → List (List Byte)
  | .encode f => cmdTokens f
  | .xferEnc ch o => fieldToken .ch ch :: overrideTokens o
  | .xferRaw w => [printHexWord w]
  | .extract .port => []
  | .extract (.word r) => [printHexWord r]
  | .writeFrame f => cmdTokens f
  | .nopFrame => []
  | .onesFrame => []
  | .read c => [printInt c]
  | .resetSeq => []
  | .delay n => [printNat n]
  | .setSeq v => [printInt v]
  | .setPm v => [printInt v]
  | .setShadow v => [printInt v]
  | .setWeak v => [printInt v]
  | .setRange v => [printInt v]
  | .setCoding v => [printInt v]

/-- Tokens with one space between them. -/
def joinSpaces : List (List Byte) → List Byte
  | [] => []
  | [t] => t
  | t :: u :: ts => t ++ spaceByte :: joinSpaces (u :: ts)

/-- An operation as a line of text (30_encoding R91). -/
def encodeLine (i : Instr) : List Byte := joinSpaces (i.mnemonic.text :: operandTokens i)

/-- The record of an operation: its line. -/
def encode (i : Instr) : Record := .line (encodeLine i)

/-! ### The table's words -/

/-- The record an opcode-table word stands for. A row of the REQ format numbers the bits of the request record, of which the
table gives at most the lowest byte; the one row without bits is `DELAY`, its operand 0; every other row gives a 16-bit
command word (30_encoding R90; entry 9). -/
def tableRecord (nbits w : Nat) : Record :=
  if nbits = 16 then .cmd (BitVec.ofNat 16 w)
  else if nbits = 0 then encode (.delay 0)
  else .req (BitVec.ofNat 28 (w % 2 ^ nbits))

/-- The operation the decoder reads from an opcode-table word. -/
def decodeTableWord (nbits w : Nat) : Option Instr := (decode (tableRecord nbits w)).toOption

end Sys2Proof
end

