-- ==== Sys2Proof/Machine/Parts.lean ====
section
/-! DEFINITION. The parts of the state, as plain data: the block's registers (10_state R30), its input ports (R20 to R22),
the host (R37), the device (R38), the inputs from outside; and the values they have after reset (R39, R190). -/

namespace Sys2Proof.Machine

/-- The states of the transactor (10_state R30). -/
inductive Fsm where
  | idle | active | gap
deriving DecidableEq, Repr

/-- The registers of the block; "There are no others" (10_state R30). Levels are Bool, true is 1. `divCnt` and `ph` are
numbers whose bounds are part of the invariant in Safety.lean (entry 20). -/
structure Block where
  fsm       : Fsm
  divCnt    : Nat
  ph        : Nat
  txSr      : Word16
  rxSr      : Word16
  rspWordQ  : Word16
  rspValidQ : Bool
  csNQ      : Bool
  sclkQ     : Bool
  mosiQ     : Bool
deriving DecidableEq, Repr

/-- The request and field input ports (10_state R21, R22). `reqOp` true is 1, `XFER_RAW`. -/
structure Ports where
  reqValid : Bool
  reqOp    : Bool
  reqRaw   : Word16
  ch       : Channel
  cfg      : Cfg
deriving DecidableEq, Repr

/-- Every input of the block in one clk cycle (10_state R20 to R22, R25). -/
structure Inputs where
  rst   : Bool
  ports : Ports
  miso  : Bool
deriving DecidableEq, Repr

/-- What the last host operation returned (43_host_sequences R170, R173, R181, R188; entry 22). -/
inductive Result where
  /-- No operation has returned yet. -/
  | none
  /-- `ENCODE`'s word (R100). -/
  | word (w : Word16)
  /-- A frame's response (R120, R121). -/
  | response (r : Word16)
  /-- `EXTRACT`'s sample (R160). -/
  | extracted (v : Sample)
  /-- READ's sample. `accurate` says whether a claim about its channel may be made at all (R65, R176, R177; entry 24). -/
  | sample (v : Sample) (accurate : Bool)
  /-- A mutator took the value (R181). -/
  | accepted
  /-- A mutator dropped the value (R181, R201). -/
  | rejected
  /-- An operation that returns nothing has ended (R173, R179). -/
  | completed
  /-- `rst` cut the operation short: it returns no result (R222). -/
  | abandoned
deriving DecidableEq, Repr

/-- The host (10_state R37), its queue of operations still to run, and what its last operation returned. -/
structure HostState where
  cfg      : Cfg
  devReady : Bool
  primed   : Bool
  /-- The operations the caller has asked for, in order (entries 5, 6). -/
  prog     : List Record
  /-- Idle cycles the host leaves before its next requests, one number a request, 0 past the end (R171; entry 27). -/
  pauses   : List Nat
  result   : Result
deriving DecidableEq, Repr

/-- The device (10_state R38): environment state, which nothing observes but through MISO (entry 15). -/
structure Device where
  /-- The Control Register's six fields (R36, R52). -/
  ctrl     : Cfg
  /-- The pipelined conversion register. -/
  conv     : Sample
  /-- The channel the conversion register holds a sample of, where 20_memory R62 names one and the device converted it. -/
  convCh   : Option Channel
  /-- Whether a RESET_SEQ has completed since the device was last in an unknown state (U3, U5, U16). -/
  settled  : Bool
deriving DecidableEq, Repr

/-- The inputs from outside, by the number of the clk cycle. -/
structure Env where
  /-- The cycles in which `rst` is 1 (10_state R20; entry 4). -/
  rstAt  : List Nat
  /-- The level of `miso` in cycle 0, 1, …; past the end it is a free value (20_memory R60; entry 3). -/
  miso   : List Bool
  /-- Requests another requester offers, with the cycle (20_memory R68; entry 19). -/
  rivals : List (Nat × Request)
deriving DecidableEq, Repr

/-- The block's registers after `rst` (10_state R39). -/
def Block.resetValue (p : Params) : Block where
  fsm := .idle
  divCnt := 0
  ph := 0
  txSr := 0x0000
  rxSr := 0x0000
  rspWordQ := 0x0000
  rspValidQ := false
  csNQ := true
  sclkQ := p.cpol
  mosiQ := false

/-- The device where the spec says nothing of its registers: free values (U3, U5, U16; entry 15). -/
def Device.unknown (log : List Event) (k : Nat) : Device where
  ctrl := Config.freeCtrl log k
  conv := Config.freeConv log k
  convCh := none
  settled := false

/-- DESIGN CHOICE (entry 2): the parameters are OPEN; these are the values of the one state `State.reset`. `SETTLE` is the
nominal 10 of 00_scope R10. -/
def resetParams : Params where
  divPred := 0
  cpol := false
  cpha := false
  settle := 10
  delayUnit := 1
  dummyCh := 0
  cfgInit := { seq := 0, pm := 0, shadow := 0, weak := 0, range := 0, coding := 0 }

/-- DESIGN CHOICE (entry 13): no request offered, every other port 0. -/
def Ports.quiet : Ports where
  reqValid := false
  reqOp := false
  reqRaw := 0x0000
  ch := 0
  cfg := { seq := 0, pm := 0, shadow := 0, weak := 0, range := 0, coding := 0 }

/-- The host at its start (43_host_sequences R190). -/
def HostState.start (p : Params) : HostState where
  cfg := p.cfgInit
  devReady := false
  primed := false
  prog := []
  pauses := []
  result := .none

/-- Nothing given from outside: no reset, no second requester, every MISO level a free value. -/
def Env.quiet : Env where
  rstAt := []
  miso := []
  rivals := []

end Sys2Proof.Machine
end

