-- ==== Sys2Proof/Machine/State.lean ====
section
/-! DEFINITION. The whole state as plain data (its parts are in Parts.lean), the ways a step can stop, and the state
after reset (10_state R39, 43_host_sequences R190). -/

namespace Sys2Proof.Machine

/-- Why a model of the block and its host stops with a fault (60_exceptions R205). The block itself has no fault (R200). -/
inductive Fault where
  /-- Raised by a read of a block output before the first `rst`: R223, U1. Safe: no claim can proceed past it. -/
  | unwrittenRegister
  /-- Raised at the start of a host operation while a frame is in progress: R175, R205, U14. Safe. -/
  | hostOverlap
  /-- Raised at the start of a host operation while a request is still held on the ports, and by a step without an operation from
the cycle after an acceptance on while the request is kept up: R178 step 4, R205, U15; entry 18. Safe. -/
  | duplicateRequest
  /-- Raised by READ when another requester offers a request between its two frames: R171, R205, U14. Safe. -/
  | interleavedRead
  /-- Raised when another requester offers a request in a cycle in which the host offers one too: R59 ("no concurrent access
  to the bus is permitted"); entry 19. Safe. -/
  | busContention
  /-- Raised by a use of the result of an operation that `rst` cut short: R222, R205, U18. Safe. -/
  | abandonedResult
  /-- Raised when the block does not answer in the time of R140; R192 says it always does, and it does in every state that
  keeps the invariant of Safety.lean; entry 21. Safe. -/
  | stalled
deriving DecidableEq, Repr

/-- Why an operation is refused. -/
inductive Refusal where
  /-- Raised by an arm of `exec` that has no meaning yet; no arm is left so. Safe. -/
  | notModelled (mnemonic : String)
  /-- Raised by READ outside 0 to 15: R189, U10. Safe: the operation has no meaning and sends no frame. -/
  | readChannelOutOfRange (c : Int)
  /-- Raised by a step whose queued record is no operation. Safe. -/
  | undecodable (e : DecodeError)
deriving DecidableEq, Repr

/-- The whole machine: block, ports, parameters, host, device, inputs, and the record of events. -/
structure State where
  params   : Params
  blk      : Block
  ports    : Ports
  host     : HostState
  dev      : Device
  env      : Env
  /-- Whether `rst` has been 1 at some edge: before that every block register is unwritten (70_reset_and_hazards R223; entry 14). -/
  wasReset : Bool
  /-- The number of the current clk cycle, which is also the number of the edge that ends it. -/
  cycle    : Nat
  /-- The events of the run, newest first (20_memory R57; entry 23). -/
  log      : List Event
deriving DecidableEq, Repr

/-- The outcome of a step of this machine. -/
abbrev Out := Host.Outcome State Fault Refusal

/-- How a piece of a host operation ends: with a value, cut short by `rst` (70_reset_and_hazards R222), or in a fault. -/
inductive HostRun (α : Type) where
  | done (a : α) (s : State)
  | abandoned (s : State)
  | stopped (f : Fault)

/-- The block right after its reset and the host right after its start (70_reset_and_hazards R225 steps 1 and 2), for any
parameters. -/
def State.resetWith (p : Params) : State where
  params := p
  blk := .resetValue p
  ports := .quiet
  host := .start p
  dev := .unknown [] 0
  env := .quiet
  wasReset := true
  cycle := 0
  log := []

/-- The machine right after reset (10_state R39, 43_host_sequences R190; entries 2 and 5). -/
def State.reset : State := .resetWith resetParams

/-- The machine at power-on, before the first `rst` (70_reset_and_hazards R223): the block's registers are unwritten,
whatever `blk` holds; every read of them faults and every pin shows a free value. DESIGN CHOICE (entry 35): the host already holds its
start values (R190), and no event starts it after the reset. -/
def State.powerOn (p : Params) : State := { State.resetWith p with wasReset := false }

end Sys2Proof.Machine
end

