-- ==== Sys2Proof/Machine/Operands.lean ====
section
/-! DEFINITION. The operands of the operations: the encoder's word, the extractor's sample, the fields of the host's
configuration, the request a host operation makes, and the input ports in one clk cycle. -/

namespace Sys2Proof.Machine

/-! ### Encoder and extractor (combinational) -/

/-- `payload12 = 1 ‖ seq ‖ ch[3:0] ‖ pm[1:0] ‖ shadow ‖ weak ‖ range ‖ coding` (30_encoding R81, 40_encoder R100). -/
def payload12 (f : CmdFields) : BitVec 12 :=
  (1 : BitVec 1) ++ f.cfg.seq ++ f.ch ++ f.cfg.pm ++ f.cfg.shadow ++ f.cfg.weak ++ f.cfg.range ++ f.cfg.coding

/-- `ENCODE(ch, cfg) = payload12 ‖ 0b0000` (40_encoder R100; C1 and C5 of 90_conflicts settle its layout and padding). -/
def encodeWord (f : CmdFields) : Word16 := payload12 f ++ (0 : BitVec 4)

/-- `EXTRACT(R) = R[11:0]` (42_extractor R160). -/
def extractSample (r : Word16) : Sample := r.extractLsb' 0 12

/-- `rsp_sample16 = zext_16(R[11:0])` (42_extractor R161). -/
def sample16 (r : Word16) : Word16 := (extractSample r).setWidth 16

/-! ### The host's configuration (43_host_sequences R180, R181) -/

/-- The largest legal value of a field: 3 for `pm`, 1 for the others (43_host_sequences R180). -/
def Field.top : Field → Int
  | .seq => 1
  | .pm => 3
  | .shadow => 1
  | .weak => 1
  | .range => 1
  | .coding => 1

/-- `v ∈ legal(F)`: every other integer, negative ones included, is out of range (43_host_sequences R180). -/
def legalValue (f : Field) (v : Int) : Bool := decide (0 ≤ v) && decide (v ≤ Field.top f)

/-- `cfg.F <- v`: only F changes (43_host_sequences R181). For a legal `v` no bit is lost. -/
def setField (f : Field) (v : Int) (c : Cfg) : Cfg :=
  match f with
  | .seq => { c with seq := BitVec.ofInt 1 v }
  | .pm => { c with pm := BitVec.ofInt 2 v }
  | .shadow => { c with shadow := BitVec.ofInt 1 v }
  | .weak => { c with weak := BitVec.ofInt 1 v }
  | .range => { c with range := BitVec.ofInt 1 v }
  | .coding => { c with coding := BitVec.ofInt 1 v }

/-- Fields left out of an `XFER_ENC` take the host's current values (30_encoding R91). -/
def resolveCfg (o : CfgOverride) (c : Cfg) : Cfg where
  seq := o.seq.getD c.seq
  pm := o.pm.getD c.pm
  shadow := o.shadow.getD c.shadow
  weak := o.weak.getD c.weak
  range := o.range.getD c.range
  coding := o.coding.getD c.coding

/-- A READ's channel as the 4 bits of the port; only used in range (43_host_sequences R189: it is not truncated). -/
def channelOf (c : Int) : Channel := BitVec.ofInt 4 c

/-! ### Requests on the ports (30_encoding R85) -/

/-- The ports while a request is offered. The fields of the other operation are don't-care: they keep their levels. -/
def Ports.offering (p : Ports) : Request → Ports
  | .enc f => { p with reqValid := true, reqOp := false, ch := f.ch, cfg := f.cfg }
  | .raw w => { p with reqValid := true, reqOp := true, reqRaw := w }

/-- `W = (req_op = 0) ? enc_word : req_raw` (41_transactor R125). -/
def Ports.frameWord (p : Ports) : Word16 :=
  if p.reqOp then p.reqRaw else encodeWord { ch := p.ch, cfg := p.cfg }

/-- The word a request sends (41_transactor R120, R121). -/
def requestWord : Request → Word16
  | .enc f => encodeWord f
  | .raw w => w

/-! ### The inputs in one clk cycle -/

/-- `rst` in the current cycle (10_state R20; entry 4). -/
def State.rst (s : State) : Bool := decide (s.cycle ∈ s.env.rstAt)

/-- The request another requester offers in the current cycle (20_memory R68; entry 19). -/
def State.rival (s : State) : Option Request := (s.env.rivals.find? fun r => r.1 == s.cycle).map fun r => r.2

/-- The level of `miso` in cycle `k` given the events so far: as listed, else a free value (20_memory R60; entry 3). -/
def misoLevel (env : Env) (log : List Event) (k : Nat) : Bool := (env.miso[k]?).getD (Config.freeMiso log k)

/-- `miso` in the current cycle. -/
def State.miso (s : State) : Bool := misoLevel s.env s.log s.cycle

/-- The request and field ports in the current cycle: the host's, or another requester's where the host offers nothing
(entry 19). -/
def State.livePorts (s : State) : Ports :=
  if s.ports.reqValid then s.ports
  else
    match s.rival with
    | some r => s.ports.offering r
    | none => s.ports

/-- Every input of the block in the current cycle. -/
def State.inputs (s : State) : Inputs where
  rst := s.rst
  ports := s.livePorts
  miso := s.miso

end Sys2Proof.Machine
end

