-- ==== Sys2Proof/Machine/Flags.lean ====
section
/-! DEFINITION. The block's outputs: the two status flags, the response, the encoder's word and the pins
(10_state R21 to R26, R34). A read of a register-backed output before the first `rst` faults; a pin then shows a
free value (70_reset_and_hazards R223, U1; entry 14). There are no condition codes (R34). -/

namespace Sys2Proof.Machine

/-- The block's registers, where they have been written: before the first `rst` a read faults (R223, U1). -/
def State.registers (s : State) : Except Fault Block :=
  if s.wasReset then .ok s.blk else .error .unwrittenRegister

/-- `req_ready = (fsm = IDLE)` (10_state R34). -/
def Block.reqReady (b : Block) : Bool := decide (b.fsm = .idle)

/-- `req_ready`, combinational, 1 also while `rst` is 1 (10_state R34). -/
def State.reqReady (s : State) : Except Fault Bool := s.registers.map Block.reqReady

/-- `busy = ~req_ready` (10_state R26). -/
def State.busy (s : State) : Except Fault Bool := s.registers.map fun b => !b.reqReady

/-- `rsp_valid` (10_state R34). -/
def State.rspValid (s : State) : Except Fault Bool := s.registers.map fun b => b.rspValidQ

/-- `rsp_word` (10_state R24). -/
def State.rspWord (s : State) : Except Fault Word16 := s.registers.map fun b => b.rspWordQ

/-- `rsp_sample = EXTRACT(rsp_word)`, combinational (10_state R24, 42_extractor R160). -/
def State.rspSample (s : State) : Except Fault Sample := s.rspWord.map extractSample

/-- `rsp_sample16 = zext_16(rsp_sample)` (10_state R24, 42_extractor R161). -/
def State.rspSample16 (s : State) : Except Fault Word16 := s.rspWord.map sample16

/-- `enc_word`, combinational in the field ports and in nothing else (10_state R23, 40_encoder R101). -/
def State.encWord (s : State) : Word16 := encodeWord { ch := s.livePorts.ch, cfg := s.livePorts.cfg }

/-- The pin `cs_n` (10_state R25). -/
def State.csN (s : State) : Bool := if s.wasReset then s.blk.csNQ else Config.freePin .csN s.log s.cycle

/-- The pin `sclk` (10_state R25). -/
def State.sclk (s : State) : Bool := if s.wasReset then s.blk.sclkQ else Config.freePin .sclk s.log s.cycle

/-- The pin `mosi` (10_state R25). -/
def State.mosi (s : State) : Bool := if s.wasReset then s.blk.mosiQ else Config.freePin .mosi s.log s.cycle

end Sys2Proof.Machine
end

