-- ==== Sys2Proof/Machine/Ops.lean ====
section
/-! DEFINITION. The shared operations: the transactor's clk edge (41_transactor R130), the same edge for the whole
machine, and what the host does with it (43_host_sequences R178, R179): offering a request, waiting for the response,
waiting idle cycles. The block has no exception to take and none to return from (60_exceptions R200, R206); the
nearest thing is `rst`, which is part of the edge. -/

namespace Sys2Proof.Machine

/-! ### The transactor's edge (41_transactor R130) -/

/-- IDLE: acceptance (R131) or no request (R132). -/
def Block.idleEdge (p : Params) (b : Block) (i : Inputs) : Block :=
  if i.ports.reqValid then
    { b with
      rspValidQ := false
      fsm := .active
      divCnt := 0
      ph := 0
      csNQ := false
      rxSr := 0x0000
      mosiQ := if p.cpha then false else i.ports.frameWord.getLsbD 15
      txSr := if p.cpha then i.ports.frameWord else i.ports.frameWord <<< 1 }
  else { b with rspValidQ := false }

/-- ACTIVE, a tick with `ph ≤ 31`: SCLK edge number `ph` (R134), which samples (R137) or shifts (R135, R136). -/
def Block.sclkEdge (p : Params) (b : Block) (i : Inputs) : Block :=
  if decide (b.ph % 2 = 0) == !p.cpha then
    { b with
      rspValidQ := false, divCnt := 0, sclkQ := !b.sclkQ, ph := b.ph + 1
      rxSr := b.rxSr.shiftConcat i.miso }
  else
    { b with
      rspValidQ := false, divCnt := 0, sclkQ := !b.sclkQ, ph := b.ph + 1
      mosiQ := b.txSr.getLsbD 15
      txSr := b.txSr <<< 1 }

/-- ACTIVE, the tick with `ph = 32`: completion (R142). -/
def Block.completeEdge (b : Block) : Block :=
  { b with
    divCnt := 0, csNQ := true, mosiQ := false, rspWordQ := b.rxSr, rspValidQ := true, fsm := .gap, ph := 0 }

/-- ACTIVE: between ticks, an SCLK edge or completion (R133). -/
def Block.activeEdge (p : Params) (b : Block) (i : Inputs) : Block :=
  if b.divCnt ≠ p.div - 1 then { b with rspValidQ := false, divCnt := b.divCnt + 1 }
  else if b.ph ≤ 31 then b.sclkEdge p i
  else b.completeEdge

/-- GAP (R144). -/
def Block.gapEdge (p : Params) (b : Block) : Block :=
  if b.divCnt ≠ p.div - 1 then { b with rspValidQ := false, divCnt := b.divCnt + 1 }
  else { b with rspValidQ := false, divCnt := 0, fsm := .idle }

/-- The step function of the block at one rising edge of `clk` (41_transactor R130); `rst` overrides every arm (R149). -/
def Block.edge (p : Params) (b : Block) (i : Inputs) : Block :=
  if i.rst then .resetValue p
  else
    match b.fsm with
    | .idle => b.idleEdge p i
    | .active => b.activeEdge p i
    | .gap => b.gapEdge p

/-- Acceptance happens at this edge: `rst = 0`, `req_valid = 1`, `req_ready = 1` (10_state R21). -/
def Block.accepts (b : Block) (i : Inputs) : Bool := !i.rst && (b.reqReady && i.ports.reqValid)

/-- Completion happens at this edge (41_transactor R142). -/
def Block.completes (p : Params) (b : Block) (i : Inputs) : Bool :=
  !i.rst && (decide (b.fsm = .active) && (decide (b.divCnt = p.div - 1) && decide (31 < b.ph)))

/-! ### The device (10_state R38; entry 15) -/

/-- The word of the frame in progress, from the record of events. -/
def openWord : List Event → Option Word16
  | .accept _ w :: _ => some w
  | _ => none

/-- What a completed frame with word `w` does to the device. A write frame loads the Control Register (20_memory R52, R57); whether
the device then converts the word's channel (R51) is a free value, in every power mode (60_exceptions R212, U6). The
all-ones word leaves it unknown (R64, U3), a non-write word leaves the register and the next channel unknown (R63, U2), and
while it is unknown it stays so until a RESET_SEQ ends (U3, U16). DESIGN CHOICE (entry 29): a write word with non-zero
padding other than 0xFFFF is taken as a write frame, by R52 and R88, although 30_encoding R87 leaves the device open there. -/
def Device.afterFrame (d : Device) (w : Word16) (log : List Event) (k : Nat) : Device :=
  if w = onesWord then .unknown log k
  else if cmdWrite w && d.settled then
    { ctrl := (unpackCmd w).cfg
      conv := Config.freeConv log k
      convCh := if Config.freeConverts d.ctrl log k then some (unpackCmd w).ch else none
      settled := true }
  else { Device.unknown log k with settled := d.settled }

/-- The device after a clk edge: changed by a completed frame, unknown after any reset (70_reset_and_hazards R222, U5). -/
def Device.edge (d : Device) (p : Params) (b : Block) (i : Inputs) (log : List Event) (k : Nat) : Device :=
  if i.rst then .unknown log k
  else if b.completes p i then
    match openWord log with
    | some w => d.afterFrame w log k
    | none => .unknown log k
  else d

/-! ### One clk edge of the whole machine -/

/-- The events of an edge, put on the record (20_memory R57). -/
def recordEvents (p : Params) (b : Block) (i : Inputs) (wasReset : Bool) (k : Nat) (log : List Event) : List Event :=
  if i.rst then .reset k (wasReset && decide (b.fsm = .active)) :: log
  else if b.accepts i then .accept k i.ports.frameWord :: log
  else if b.completes p i then .complete k b.rxSr :: log
  else log

/-- One rising edge of `clk`. Any `rst` makes the host clear `dev_ready` (43_host_sequences R176, 70_reset_and_hazards
R222). Before the first `rst` the registers are unwritten and stay so (R223; entry 14). DESIGN CHOICE (entry 32): the device holds
still in those cycles, of which the spec says nothing. -/
def State.tick (s : State) : State :=
  if s.wasReset || s.rst then
    { s with
      blk := s.blk.edge s.params s.inputs
      dev := s.dev.edge s.params s.blk s.inputs s.log s.cycle
      host := { s.host with devReady := s.host.devReady && !s.rst }
      log := recordEvents s.params s.blk s.inputs s.wasReset s.cycle s.log
      wasReset := true
      cycle := s.cycle + 1 }
  else { s with cycle := s.cycle + 1 }

/-- `n` clk edges. -/
def State.ticks : Nat → State → State
  | 0, s => s
  | n + 1, s => State.ticks n s.tick

/-! ### The host's side of one request (43_host_sequences R178) -/

/-- A request is put on the ports (R178 step 2). -/
def State.drive (s : State) (r : Request) : State := { s with ports := s.ports.offering r }

/-- `req_valid` drops to 0 (R178 step 4). -/
def State.dropRequest (s : State) : State := { s with ports := { s.ports with reqValid := false } }

/-- `rst` is 1 in this cycle of an operation: the edge happens and the operation is abandoned; its request is withdrawn and
its remaining frames are not sent (70_reset_and_hazards R222; entry 17). -/
def State.abandon (s : State) : State := s.tick.dropRequest

/-- What the host operation returned. -/
def State.setResult (s : State) (r : Result) : State := { s with host := { s.host with result := r } }

/-- One piece of a host operation after another. -/
def HostRun.bind {α β : Type} (m : HostRun α) (f : α → State → HostRun β) : HostRun β :=
  match m with
  | .done a s => f a s
  | .abandoned s => .abandoned s
  | .stopped e => .stopped e

/-- `n` clk edges in which the host offers nothing. `guarded` is true between the two frames of a READ, where no other
requester may issue a request (R171, 60_exceptions R205). -/
def hostWait (guarded : Bool) : Nat → State → HostRun Unit
  | 0, s => .done () s
  | n + 1, s =>
    if s.rst then .abandoned s.abandon
    else if guarded && s.rival.isSome then .stopped .interleavedRead
    else hostWait guarded n s.tick

/-- The request on the ports is held until the edge at which it is accepted, and dropped in the cycle after (R178 steps 3 and
4). `fuel` bounds the wait; it never runs out (R192; entry 21). -/
def offer (guarded : Bool) : Nat → State → HostRun Unit
  | 0, _ => .stopped .stalled
  | n + 1, s =>
    if !s.wasReset then .stopped .unwrittenRegister
    else if s.rst then .abandoned s.abandon
    else if s.rival.isSome then .stopped (if guarded then .interleavedRead else .busContention)
    else if s.blk.reqReady then .done () s.tick.dropRequest
    else offer guarded n s.tick

/-- The host waits for `rsp_valid = 1` and reads `rsp_word` in that cycle (R178 step 5). -/
def awaitRsp : Nat → State → HostRun Word16
  | 0, _ => .stopped .stalled
  | n + 1, s =>
    if s.rst then .abandoned s.abandon
    else if s.tick.blk.rspValidQ then .done s.tick.blk.rspWordQ s.tick
    else awaitRsp n s.tick

/-- The idle cycles the host leaves before its next request (R171; entry 27). -/
def State.nextPause (s : State) : Nat := s.host.pauses.headD 0

/-- That number is used up. -/
def State.popPause (s : State) : State := { s with host := { s.host with pauses := s.host.pauses.tail } }

/-- `Xfer(op, …)`: one request, from offering it to its response (R178). -/
def xfer (guarded : Bool) (r : Request) (s : State) : HostRun Word16 :=
  (hostWait guarded s.nextPause s.popPause).bind fun _ s1 =>
    (offer guarded (34 * s.params.div + 1) (s1.drive r)).bind fun _ s2 => awaitRsp (33 * s.params.div) s2

/-- `DELAY(n)`: `n` host time units without a request, put on the record when they start (43_host_sequences R179; entry 26). -/
def hostDelay (n : Nat) (s : State) : HostRun Unit :=
  hostWait false (n * s.params.delayUnit) { s with log := .delay s.cycle n :: s.log }

/-! ### Host operations as a whole -/

/-- What is wrong with starting a host operation now: a request is still held on the ports (43_host_sequences R178 step 4), or
a frame is in progress (R175); 60_exceptions R205. -/
def State.startFault (s : State) : Option Fault :=
  if s.ports.reqValid then some .duplicateRequest
  else if s.wasReset && decide (s.blk.fsm = .active) then some .hostOverlap
  else none

/-- Some frame was accepted since the last reset: the newest event but waits is a frame's. -/
def acceptedSinceReset : List Event → Bool
  | [] => false
  | .accept _ _ :: _ => true
  | .complete _ _ :: _ => true
  | .reset _ _ :: _ => false
  | .delay _ _ :: rest => acceptedSinceReset rest

/-- The host holds `req_valid` after an acceptance, with no operation running (43_host_sequences R178 step 4). Every operation
drops its own request, so a request that then stands on the ports is one that was accepted and kept up (entry 18). -/
def State.requestHeld (s : State) : Bool := s.ports.reqValid && acceptedSinceReset s.log

/-- The step of a host that has no operation to run: one clk edge, which is a fault of the host, "duplicate request", from the
cycle after an acceptance on if it keeps its request up (60_exceptions R205, U15; 95_test_vectors P5). What the block does
with the held request, a second frame, is `State.tick`. -/
def State.idleStep (s : State) : Out := if s.requestHeld then .fault .duplicateRequest else .next s.tick

/-- The outcome of an operation: `finish` stores its result; an abandoned one has none (70_reset_and_hazards R222). -/
def HostRun.outcome {α : Type} (m : HostRun α) (finish : α → State → State) : Out :=
  match m with
  | .done a s => .next (finish a s)
  | .abandoned s => .next (s.setResult .abandoned)
  | .stopped f => .fault f

/-- A host operation: it starts only where it may (60_exceptions R205). -/
def hostOp {α : Type} (s : State) (run : State → HostRun α) (finish : α → State → State) : Out :=
  match s.startFault with
  | some f => .fault f
  | none => (run s).outcome finish

/-- An operation that is one frame and returns its response (41_transactor R120, R121). -/
def execXfer (r : Request) (s : State) : Out := hostOp s (xfer false r) fun resp t => t.setResult (.response resp)

/-- A use of the last operation's result; there is none after an abandoned operation (70_reset_and_hazards R222, 60_exceptions
R205, U18; entry 25). -/
def State.useResult (s : State) : Except Fault Result :=
  if s.host.result = .abandoned then .error .abandonedResult else .ok s.host.result

end Sys2Proof.Machine
end

