-- ==== Sys2Proof/Machine/Encoder.lean ====
section
/-! DEFINITION. ENCODE (40_encoder R100). -/

namespace Sys2Proof.Machine

/-- `ENCODE`: the host puts the fields on the encoder's ports and reads `enc_word`, which is combinational: no clk edge
passes and no register changes (40_encoder R100, R101; entry 12). DESIGN CHOICE (entry 12): in a cycle in which another requester
drives the ports, the word returned is still that of the host's own operands. -/
def execEncode (f : CmdFields) (s : State) : Out :=
  .next ({ s with ports := { s.ports with ch := f.ch, cfg := f.cfg } }.setResult (.word (encodeWord f)))

end Sys2Proof.Machine
end

