-- ==== Sys2Proof/Machine/Extractor.lean ====
section
/-! DEFINITION. EXTRACT (42_extractor R160). -/

namespace Sys2Proof.Machine

/-- `EXTRACT`: the low 12 bits of a response, combinational (42_extractor R160). Its operand is `rsp_word`, whose read faults
before the first `rst` (70_reset_and_hazards R223), or a response word that is given (entry 11). -/
def execExtract (src : RspSource) (s : State) : Out :=
  match src with
  | .word r => .next (s.setResult (.extracted (extractSample r)))
  | .port =>
    match s.rspSample with
    | .ok v => .next (s.setResult (.extracted v))
    | .error f => .fault f

end Sys2Proof.Machine
end

