-- ==== Sys2Proof/Machine/HostSeq.lean ====
section
/-! DEFINITION. The host sequences READ, RESET_SEQ and DELAY (43_host_sequences R170, R173, R179). -/

namespace Sys2Proof.Machine

/-- The request of READ's first frame: a write frame for channel `c` with the current `cfg` (43_host_sequences R170, R35). -/
def readRequest (c : Channel) (s : State) : Request := .enc { ch := c, cfg := s.host.cfg }

/-- The end of a READ: `if dev_ready: primed <- true` (43_host_sequences R170, R177). -/
def State.markPrimed (s : State) : State := { s with host := { s.host with primed := s.host.primed || s.host.devReady } }

/-- Whether a claim about the channel of a READ that starts now may be made (20_memory R65, 43_host_sequences R176, R177;
entry 24). DESIGN CHOICE (entry 33): a 0xFFFF frame sent outside RESET_SEQ does not take it back, although U3 then leaves the device
open. -/
def State.readAccurate (s : State) : Bool := s.host.devReady && s.host.primed

/-- The two frames of `READ(c)`; the first response is discarded, the second one's low 12 bits are the sample
(43_host_sequences R170). No other requester may come between them (R171). -/
def readSeq (c : Channel) (s : State) : HostRun Sample :=
  (xfer false (readRequest c s) s).bind fun _ s1 =>
    (xfer true (.raw zeroWord) s1).bind fun r2 s2 => .done (extractSample r2) s2.markPrimed

/-- `READ(c)` (43_host_sequences R170); a channel outside 0 to 15 is refused and sends no frame (R189). -/
def execRead (c : Int) (s : State) : Out :=
  if channelInRange c then
    hostOp s (readSeq (channelOf c)) fun v t => t.setResult (.sample v s.readAccurate)
  else .refused (.readChannelOutOfRange c)

/-- `dev_ready <- false; primed <- false` (43_host_sequences R173). -/
def State.clearReady (s : State) : State := { s with host := { s.host with devReady := false, primed := false } }

/-- The end of a RESET_SEQ: `dev_ready <- true` (43_host_sequences R173); from here on a write frame loads the device's Control
Register again, whose value is not known yet (U3, U16; entry 15). DESIGN CHOICE (entry 34): so also if another requester's frame came
between the frames of the sequence. -/
def State.setReady (s : State) : State :=
  { s with host := { s.host with devReady := true }, dev := { s.dev with settled := true } }

/-- The three frames and two waits of RESET_SEQ; the responses are discarded (43_host_sequences R173). DESIGN CHOICE (entry 34):
another requester's frame inside the sequence is no fault and does not keep it from completing; R171 and R205 fault a READ only. -/
def resetSeq (s : State) : HostRun Unit :=
  (xfer false (.raw onesWord) s.clearReady).bind fun _ s1 =>
    (hostDelay s.params.settle s1).bind fun _ s2 =>
      (xfer false (.raw onesWord) s2).bind fun _ s3 =>
        (hostDelay s.params.settle s3).bind fun _ s4 =>
          (xfer false (readRequest 0 s4) s4).bind fun _ s5 => .done () s5.setReady

/-- `RESET_SEQ` (43_host_sequences R173). -/
def execResetSeq (s : State) : Out := hostOp s resetSeq fun _ t => t.setResult .completed

/-- `DELAY(n)` (43_host_sequences R179). -/
def execDelay (n : Nat) (s : State) : Out := hostOp s (hostDelay n) fun _ t => t.setResult .completed

end Sys2Proof.Machine
end

