-- ==== Sys2Proof/Machine/Mutators.lean ====
section
/-! DEFINITION. The six configuration mutators (43_host_sequences R181 to R187). -/

namespace Sys2Proof.Machine

/-- `cfg.F <- v` in the host's snapshot. -/
def State.setCfgField (s : State) (f : Field) (v : Int) : State :=
  { s with host := { s.host with cfg := setField f v s.host.cfg } }

/-- The generic mutator (43_host_sequences R181): a legal value changes that field only and is followed by `READ(DUMMY_CH)`,
whose sample is discarded; any other value changes nothing and sends no frame. -/
def mutate (f : Field) (v : Int) (s : State) : Out :=
  if legalValue f v then
    hostOp s (fun t => readSeq s.params.dummyCh (t.setCfgField f v)) fun _ t => t.setResult .accepted
  else hostOp s (.done ()) fun _ t => t.setResult .rejected

/-- `SET_SEQ(v)` (43_host_sequences R182). -/
def execSetSeq (v : Int) (s : State) : Out := mutate .seq v s

/-- `SET_PM(v)` (43_host_sequences R183). -/
def execSetPm (v : Int) (s : State) : Out := mutate .pm v s

/-- `SET_SHADOW(v)` (43_host_sequences R184). -/
def execSetShadow (v : Int) (s : State) : Out := mutate .shadow v s

/-- `SET_WEAK(v)` (43_host_sequences R185). -/
def execSetWeak (v : Int) (s : State) : Out := mutate .weak v s

/-- `SET_RANGE(v)` (43_host_sequences R186). -/
def execSetRange (v : Int) (s : State) : Out := mutate .range v s

/-- `SET_CODING(v)` (43_host_sequences R187). -/
def execSetCoding (v : Int) (s : State) : Out := mutate .coding v s

end Sys2Proof.Machine
end

