-- ==== Sys2Proof/Machine/Transactor.lean ====
section
/-! DEFINITION. The operations that are one frame: XFER_ENC, XFER_RAW (41_transactor R120, R121) and the named frames
WRITE_FRAME, NOP_FRAME, ONES_FRAME (30_encoding R90, R91). -/

namespace Sys2Proof.Machine

/-- `XFER_ENC(ch, cfg)` (41_transactor R120); fields left out take the host's `cfg` (30_encoding R91). -/
def execXferEnc (ch : Channel) (o : CfgOverride) (s : State) : Out :=
  execXfer (.enc { ch, cfg := resolveCfg o s.host.cfg }) s

/-- `XFER_RAW(word)`: the word is sent verbatim (41_transactor R121). -/
def execXferRaw (w : Word16) (s : State) : Out := execXfer (.raw w) s

/-- `WRITE_FRAME`: a frame with an encoded word, sent by the encoder (30_encoding R83, R90; entry 10). -/
def execWriteFrame (f : CmdFields) (s : State) : Out := execXfer (.enc f) s

/-- `NOP_FRAME` is `XFER_RAW 0x0000` (30_encoding R91, 43_host_sequences R172). -/
def execNopFrame (s : State) : Out := execXfer (.raw zeroWord) s

/-- `ONES_FRAME` is `XFER_RAW 0xFFFF` (30_encoding R91, 43_host_sequences R174). -/
def execOnesFrame (s : State) : Out := execXfer (.raw onesWord) s

end Sys2Proof.Machine
end

