-- ==== Sys2Proof/Machine/Dispatch.lean ====
section
/-! DEFINITION. One arm per operation of the opcode table (30_encoding R90). -/

namespace Sys2Proof.Machine

def exec (i : Instr) (s : State) : Host.Outcome State Fault Refusal :=
  match i with
  | .encode f => Sys2Proof.Machine.execEncode f s
  | .xferEnc ch o => Sys2Proof.Machine.execXferEnc ch o s
  | .xferRaw w => Sys2Proof.Machine.execXferRaw w s
  | .extract src => Sys2Proof.Machine.execExtract src s
  | .writeFrame f => Sys2Proof.Machine.execWriteFrame f s
  | .nopFrame => Sys2Proof.Machine.execNopFrame s
  | .onesFrame => Sys2Proof.Machine.execOnesFrame s
  | .read c => Sys2Proof.Machine.execRead c s
  | .resetSeq => Sys2Proof.Machine.execResetSeq s
  | .delay n => Sys2Proof.Machine.execDelay n s
  | .setSeq v => Sys2Proof.Machine.execSetSeq v s
  | .setPm v => Sys2Proof.Machine.execSetPm v s
  | .setShadow v => Sys2Proof.Machine.execSetShadow v s
  | .setWeak v => Sys2Proof.Machine.execSetWeak v s
  | .setRange v => Sys2Proof.Machine.execSetRange v s
  | .setCoding v => Sys2Proof.Machine.execSetCoding v s

end Sys2Proof.Machine
end

