-- ==== Sys2Proof/Machine/Fetch.lean ====
section
/-! DEFINITION. Where the host's next operation comes from: the queue of operations still to run (entries 5, 6). -/

namespace Sys2Proof.Machine

/-- The next queued record. -/
def State.nextRecord (s : State) : Option Record := s.host.prog.head?

/-- The state with the first queued record taken off the queue. -/
def State.takeRecord (s : State) : State := { s with host := { s.host with prog := s.host.prog.tail } }

/-- The state with a record put before the others. -/
def State.withRecord (s : State) (r : Record) : State := { s with host := { s.host with prog := r :: s.host.prog } }

end Sys2Proof.Machine
end

