-- ==== Sys2Proof/Machine/Step.lean ====
section
/-! DEFINITION. One step of the machine: the next queued host operation, run until it returns; with nothing queued, one
clk edge (entry 1). -/

namespace Sys2Proof.Machine

/-- Runs a queued record (43_host_sequences R175: every operation is blocking), or lets one clk edge pass. -/
def step (s : State) : Host.Outcome State Fault Refusal :=
  match s.nextRecord with
  | none => s.idleStep
  | some r =>
    match decode r with
    | .ok i => exec i s.takeRecord
    | .error e => .refused (.undecodable e)

/-- The operation of an opcode-table word, queued first. -/
def State.withFetchWord (s : State) (nbits w : Nat) : State := s.withRecord (tableRecord nbits w)

end Sys2Proof.Machine
end

