-- ==== Sys2Proof/Machine/Frame.lean ====
section
/-! DEFINITION. The transaction level (41_transactor section 1): what one whole frame does, `Frame(W) -> R`, said at once. The
machine does not run these functions: it runs the clk edges of Ops.lean. Statements compare the two (R19, R145). -/

namespace Sys2Proof.Machine

/-- The clk edges until the block is in IDLE: what is left of the gap (41_transactor R144). -/
def State.gapLeft (s : State) : Nat :=
  match s.blk.fsm with
  | .gap => s.params.div - s.blk.divCnt
  | .idle => 0
  | .active => 0

/-- `k0`: the edge at which the host's next request is accepted; the host may leave idle cycles first (R131, R171). -/
def State.acceptEdge (s : State) : Nat := s.cycle + max s.nextPause s.gapLeft

/-- SCLK edge `e` of a frame accepted at `k0` happens at clk edge `k0 + (e+1)·DIV` (41_transactor R140). -/
def sclkEdgeAt (p : Params) (k0 e : Nat) : Nat := k0 + (e + 1) * p.div

/-- Response bit `R[15−i]` is sampled at SCLK edge `2i + CPHA` (41_transactor R137). -/
def sampleEdgeAt (p : Params) (k0 i : Nat) : Nat := sclkEdgeAt p k0 (2 * i + p.phase)

/-- Completion of a frame accepted at `k0` happens at `k0 + 33·DIV` (41_transactor R140). -/
def completeEdgeAt (p : Params) (k0 : Nat) : Nat := k0 + 33 * p.div

/-- The first `n` bits received, the first of them the most significant (20_memory R53). -/
def bitsReceived (f : Nat → Bool) : Nat → Word16
  | 0 => 0x0000
  | n + 1 => (bitsReceived f n).shiftConcat (f n)

/-- The response of a frame accepted at `k0`: `s_0 ‖ … ‖ s_15`, `s_i` the level of `miso` at its sampling edge (R145). `log` is
the record of events with the acceptance on it. -/
def responseAt (p : Params) (env : Env) (log : List Event) (k0 : Nat) : Word16 :=
  bitsReceived (fun i => misoLevel env log (sampleEdgeAt p k0 i)) 16

/-- The record of events once the frame of `r` is accepted. -/
def State.acceptLog (s : State) (r : Request) : List Event := .accept s.acceptEdge (requestWord r) :: s.log

/-- The response of the frame of `r`. -/
def State.frameResponse (s : State) (r : Request) : Word16 := responseAt s.params s.env (s.acceptLog r) s.acceptEdge

/-- The edge at which the frame of `r` completes. -/
def State.frameEnd (s : State) : Nat := completeEdgeAt s.params s.acceptEdge

/-- The block in the cycle after a completion with response `resp` (41_transactor R142): chip-select released, SCLK and MOSI
idle, the response latched, `rsp_valid` 1. -/
def Block.completed (p : Params) (resp : Word16) : Block where
  fsm := .gap
  divCnt := 0
  ph := 0
  txSr := 0x0000
  rxSr := resp
  rspWordQ := resp
  rspValidQ := true
  csNQ := true
  sclkQ := p.cpol
  mosiQ := false

/-- `Frame(W) -> R`: the state once the frame of `r` has completed (41_transactor R120 to R122). Nothing else of the state
changes. -/
def State.afterFrame (s : State) (r : Request) : State :=
  { s with
    blk := .completed s.params (s.frameResponse r)
    ports := { s.ports.offering r with reqValid := false }
    host := { s.host with pauses := s.host.pauses.tail }
    dev := s.dev.afterFrame (requestWord r) (s.acceptLog r) s.frameEnd
    cycle := s.frameEnd + 1
    log := .complete s.frameEnd (s.frameResponse r) :: s.acceptLog r }

/-- The state after both frames of `READ(c)`, before `primed` is set (43_host_sequences R170). -/
def State.afterReadFrames (s : State) (c : Channel) : State :=
  (s.afterFrame (readRequest c s)).afterFrame (.raw zeroWord)

/-- The block after `m` clk edges outside a frame with no request offered: `rsp_valid` is over after the first, and what is left
of the gap passes (41_transactor R132, R144). -/
def Block.waited (p : Params) (b : Block) : Nat → Block
  | 0 => b
  | m + 1 =>
    match b.fsm with
    | .active => b
    | .idle => { b with rspValidQ := false }
    | .gap =>
      if b.divCnt + (m + 1) < p.div then { b with rspValidQ := false, divCnt := b.divCnt + (m + 1) }
      else { b with rspValidQ := false, divCnt := 0, fsm := .idle }

/-- The state once `DELAY(n)` is over (43_host_sequences R179; entry 26). Nothing else of the state changes. -/
def State.afterDelay (s : State) (n : Nat) : State :=
  { s with
    blk := s.blk.waited s.params (n * s.params.delayUnit)
    cycle := s.cycle + n * s.params.delayUnit
    log := .delay s.cycle n :: s.log }

/-- The state after the three frames and two waits of RESET_SEQ, before `dev_ready` is set (43_host_sequences R173). -/
def State.afterResetFrames (s : State) : State :=
  ((((s.afterFrame (.raw onesWord)).afterDelay s.params.settle).afterFrame (.raw onesWord)).afterDelay s.params.settle).afterFrame
    (readRequest 0 s)

end Sys2Proof.Machine
end

