-- ==== Sys2Proof/Safety.lean ====
section
/-! DEFINITION. The terms claims are made in: the invariant of the machine, the conditions on the inputs from outside under
which a host operation runs undisturbed, and the spec's premises about the device (20_memory section 5). -/

namespace Sys2Proof.Machine

/-! ### The invariant -/

/-- What the block's registers keep once they have been reset (10_state R30, R33; 41_transactor R132, R138, R143, R144). -/
structure Block.Inv (p : Params) (b : Block) : Prop where
  /-- `div_cnt` is 0 to DIV−1 (R30). -/
  div_lt : b.divCnt < p.div
  /-- `ph` is 0 to 32 (R30, R33). -/
  ph_le : b.ph ≤ 32
  /-- `ph` counts only in a frame (R33). -/
  ph_zero : b.fsm ≠ .active → b.ph = 0
  /-- The divider counts only in ACTIVE and GAP (R133). -/
  div_zero : b.fsm = .idle → b.divCnt = 0
  /-- `cs_n` is 0 exactly while a frame is in progress (R25). -/
  cs : b.csNQ = decide (b.fsm ≠ .active)
  /-- `sclk` is `CPOL xor (ph mod 2)`, so `CPOL` outside a frame (R138). -/
  sclk : b.sclkQ = (p.cpol ^^ decide (b.ph % 2 = 1))
  /-- `mosi` is 0 outside a frame (R132, R144). -/
  mosi : b.fsm ≠ .active → b.mosiQ = false
  /-- `rsp_valid` is 1 only in the first cycle of the gap (R143). -/
  valid : b.rspValidQ = true → b.fsm = .gap ∧ b.divCnt = 0

/-- The record of events is a sequence of whole frames: an acceptance only where no frame is in progress, a completion only of
the frame accepted just before, a wait only between frames, a reset that says whether it cut a frame (20_memory R56, R59). -/
def serialLog : List Event → Bool
  | [] => true
  | .accept _ _ :: rest => (openWord rest).isNone && serialLog rest
  | .complete _ _ :: rest => (openWord rest).isSome && serialLog rest
  | .reset _ cut :: rest => (cut == (openWord rest).isSome) && serialLog rest
  | .delay _ _ :: rest => (openWord rest).isNone && serialLog rest

/-- The invariant of the whole machine. -/
structure State.Inv (s : State) : Prop where
  /-- The block's registers, once written. -/
  block : s.wasReset = true → s.blk.Inv s.params
  /-- A frame is on the record as in progress exactly while the block is in ACTIVE. -/
  frame : (openWord s.log).isSome = (s.wasReset && decide (s.blk.fsm = .active))
  /-- Frames are serial (R59). -/
  serial : serialLog s.log = true
  /-- `dev_ready` holds only after a block reset (R176). -/
  ready : s.host.devReady = true → s.wasReset = true
  /-- A channel is known of the device only while its state is (R62, U3). -/
  convCh : s.dev.convCh.isSome = true → s.dev.settled = true

/-! ### Undisturbed operation -/

/-- No `rst` in the next `n` cycles. -/
abbrev State.noRstFor (s : State) (n : Nat) : Prop := ∀ k ∈ s.env.rstAt, k < s.cycle ∨ s.cycle + n ≤ k

/-- No other requester in the next `n` cycles (the spec's one host, 60_exceptions R210). -/
abbrev State.noRivalFor (s : State) (n : Nat) : Prop := ∀ r ∈ s.env.rivals, r.1 < s.cycle ∨ s.cycle + n ≤ r.1

/-- No reset and no other requester in the next `n` cycles. -/
abbrev State.calmFor (s : State) (n : Nat) : Prop := s.noRstFor n ∧ s.noRivalFor n

/-- The block has been reset, keeps its invariant, and a host operation may start (R175, R205). -/
structure State.Ready (s : State) : Prop where
  inv : s.blk.Inv s.params
  reset : s.wasReset = true
  may : s.startFault = none

/-- The clk edges from now to the end of the host's next frame (41_transactor R140). -/
def State.frameCycles (s : State) : Nat := s.frameEnd + 1 - s.cycle

/-- The clk edges from now to the end of a READ: two frames (70_reset_and_hazards R237). -/
def State.readCycles (s : State) (c : Channel) : Nat := (s.afterReadFrames c).cycle - s.cycle

/-- The clk edges from now to the end of a RESET_SEQ (43_host_sequences R173). -/
def State.resetSeqCycles (s : State) : Nat := s.afterResetFrames.cycle - s.cycle

/-! ### The premises about the device (20_memory R61, R62, R65, R66): never rules of the step -/

/-- The word of the frame before, if it completed and nothing but waits came after it. -/
def lastFrameWord : List Event → Option Word16
  | .complete _ _ :: .accept _ w :: _ => some w
  | .delay _ _ :: rest => lastFrameWord rest
  | _ => none

/-- Premise `DEV_PIPELINE` (20_memory R62) of a record of events: if frame n carries an encoded write word with channel c, then the
sample of `R_{n+1}` is a sample of channel c. `isSampleOf c k v` is what the reader takes "v, received at edge k, is a sample of
channel c" to mean. It says nothing of a frame after a reset (U5). DESIGN CHOICE (entry 29): "write-frame word" of R62 is read as
encoded write word, so the premise says nothing after a write word with non-zero padding (30_encoding R87), which is the weaker
premise; the device of `Device.afterFrame` takes such a word as a write of its channel. -/
def DevPipeline (isSampleOf : Channel → Nat → Sample → Prop) : List Event → Prop
  | [] => True
  | .complete k r :: .accept k0 w :: earlier =>
    (∀ w1, lastFrameWord earlier = some w1 → isEncodedWrite w1 = true → isSampleOf (unpackCmd w1).ch k (extractSample r)) ∧
      DevPipeline isSampleOf (.accept k0 w :: earlier)
  | _ :: rest => DevPipeline isSampleOf rest

/-- Premise `DEV_CONFIG_LAG` (20_memory R66) of the host's next frame from `s`: the levels of MISO up to its completion are the same
whichever word it sends, so its own word does not affect its own response. DESIGN CHOICE (entry 30): R66 speaks only of a Control
Register value that the frame writes; the premise is taken of every pair of words, non-write words and 0xFFFF included, on which the
spec is silent (R63, R64, U3). It is a hypothesis of a claim, never a rule of the step. -/
def DevConfigLag (s : State) : Prop :=
  ∀ (w v : Word16) (k : Nat), k ≤ s.frameEnd →
    misoLevel s.env (s.acceptLog (.raw w)) k = misoLevel s.env (s.acceptLog (.raw v)) k

end Sys2Proof.Machine
end

