-- ==== Sys2Proof/Certificates/Slice0/Obligations.lean ====
section
/-! DEFINITION. The statements for the provers. Each docstring names the rule of spec/ it formalises, or the log entry whose
choice it rests on. -/

namespace Sys2Proof.Claims

open Sys2Proof.Machine

/-- The block after `n` clk edges, `inp k` its inputs at edge `k`. -/
def blockAt (p : Params) (inp : Nat → Inputs) (b : Block) : Nat → Block
  | 0 => b
  | n + 1 => (blockAt p inp b n).edge p (inp n)

/-- A frame starts at edge 0: the block is idle and a request is offered (41_transactor R131). -/
structure StartsFrame (p : Params) (b : Block) (i : Inputs) : Prop where
  inv : b.Inv p
  idle : b.fsm = .idle
  valid : i.ports.reqValid = true

/-- A sampling edge of the block (41_transactor R137): a tick with `ph ≤ 31` whose parity is that of `CPHA`. -/
def samplingEdge (p : Params) (b : Block) : Prop :=
  b.fsm = .active ∧ b.divCnt = p.div - 1 ∧ b.ph ≤ 31 ∧ b.ph % 2 = p.phase

/-- The request of an operation that is one frame, `cfg` the host's configuration (30_encoding R91). -/
def requestOf (cfg : Cfg) : Instr → Option Request
  | .xferEnc ch o =>
    some (.enc
      { ch
        cfg :=
          { seq := o.seq.getD cfg.seq
            pm := o.pm.getD cfg.pm
            shadow := o.shadow.getD cfg.shadow
            weak := o.weak.getD cfg.weak
            range := o.range.getD cfg.range
            coding := o.coding.getD cfg.coding } })
  | .writeFrame f => some (.enc f)
  | .xferRaw w => some (.raw w)
  | .nopFrame => some (.raw 0x0000)
  | .onesFrame => some (.raw 0xFFFF)
  | .encode _ => none
  | .extract _ => none
  | .read _ => none
  | .resetSeq => none
  | .delay _ => none
  | .setSeq _ => none
  | .setPm _ => none
  | .setShadow _ => none
  | .setWeak _ => none
  | .setRange _ => none
  | .setCoding _ => none

/-- The operation runs as the one frame of `r` and returns its response; nothing else of the state changes. -/
def RunsOneFrame (i : Instr) (r : Request) (s : State) : Prop :=
  exec i s = .next ((s.afterFrame r).setResult (.response (s.frameResponse r)))

/-- The state with the host's configuration replaced. -/
def withCfg (s : State) (new : Cfg) : State := { s with host := { s.host with cfg := new } }

/-- The two frames of a READ of channel `c` were added to the record, the second with response `r`. -/
def addedRead (s t : State) (c : Channel) (cfg : Cfg) (r : Word16) : Prop :=
  ∃ a1 e1 r1 a2 e2,
    t.log = [.complete e2 r, .accept a2 0x0000, .complete e1 r1, .accept a1 (encodeWord { ch := c, cfg })] ++ s.log

/-- The mutator takes its value: only the configuration of the host becomes `new`, one dummy READ is sent, and it returns
Accepted. -/
def Takes (i : Instr) (new : Cfg) (s : State) : Prop :=
  (withCfg s new).calmFor ((withCfg s new).readCycles s.params.dummyCh) →
    ∃ t r, exec i s = .next t ∧ t.host.result = .accepted ∧ t.host.cfg = new ∧ addedRead s t s.params.dummyCh new r

/-- The mutator takes its value, with the whole state after it. -/
def TakesFrame (i : Instr) (new : Cfg) (s : State) : Prop :=
  (withCfg s new).calmFor ((withCfg s new).readCycles s.params.dummyCh) →
    exec i s = .next (((withCfg s new).afterReadFrames s.params.dummyCh).markPrimed.setResult .accepted)

/-- The mutator drops its value: Rejected, and nothing else changes. -/
def Drops (i : Instr) (s : State) : Prop := exec i s = .next (s.setResult .rejected)

/-- The operations that drive the bus or the clock: all but the two combinational ones. -/
def needsHost : Instr → Bool
  | .encode _ => false
  | .extract _ => false
  | .xferEnc _ _ => true
  | .xferRaw _ => true
  | .writeFrame _ => true
  | .nopFrame => true
  | .onesFrame => true
  | .read _ => true
  | .resetSeq => true
  | .delay _ => true
  | .setSeq _ => true
  | .setPm _ => true
  | .setShadow _ => true
  | .setWeak _ => true
  | .setRange _ => true
  | .setCoding _ => true

/-- The configuration an operation leaves in the host (43_host_sequences R181): only an accepted mutator changes it. -/
def cfgAfter (c : Cfg) : Instr → Cfg
  | .setSeq v => if 0 ≤ v ∧ v ≤ 1 then { c with seq := BitVec.ofInt 1 v } else c
  | .setPm v => if 0 ≤ v ∧ v ≤ 3 then { c with pm := BitVec.ofInt 2 v } else c
  | .setShadow v => if 0 ≤ v ∧ v ≤ 1 then { c with shadow := BitVec.ofInt 1 v } else c
  | .setWeak v => if 0 ≤ v ∧ v ≤ 1 then { c with weak := BitVec.ofInt 1 v } else c
  | .setRange v => if 0 ≤ v ∧ v ≤ 1 then { c with range := BitVec.ofInt 1 v } else c
  | .setCoding v => if 0 ≤ v ∧ v ≤ 1 then { c with coding := BitVec.ofInt 1 v } else c
  | .encode _ => c
  | .xferEnc _ _ => c
  | .xferRaw _ => c
  | .extract _ => c
  | .writeFrame _ => c
  | .nopFrame => c
  | .onesFrame => c
  | .read _ => c
  | .resetSeq => c
  | .delay _ => c

/-- The operation holds a READ: READ itself, or a mutator with its dummy READ (43_host_sequences R177). -/
def holdsRead : Instr → Bool
  | .read _ => true
  | .setSeq _ => true
  | .setPm _ => true
  | .setShadow _ => true
  | .setWeak _ => true
  | .setRange _ => true
  | .setCoding _ => true
  | .encode _ => false
  | .xferEnc _ _ => false
  | .xferRaw _ => false
  | .extract _ => false
  | .writeFrame _ => false
  | .nopFrame => false
  | .onesFrame => false
  | .resetSeq => false
  | .delay _ => false

/-- How many requests a record of events holds. -/
def frameCount : List Event → Nat
  | [] => 0
  | .accept _ _ :: rest => frameCount rest + 1
  | .complete _ _ :: rest => frameCount rest
  | .reset _ _ :: rest => frameCount rest
  | .delay _ _ :: rest => frameCount rest

/-- What the first `rst`, at edge `k`, leaves of an operation (70_reset_and_hazards R222): the block at its reset values, no result and
its use a fault, `dev_ready` false, the device unknown (U5; entry 15), the reset the newest event. That the operation ends at
that very edge and its request is withdrawn is entry 17. -/
structure Abandoned (s t : State) (k : Nat) : Prop where
  block : t.blk = .resetValue s.params
  result : t.host.result = .abandoned
  noUse : t.useResult = .error .abandonedResult
  devReady : t.host.devReady = false
  dropped : t.ports.reqValid = false
  cycle : t.cycle = k + 1
  newest : ∃ cut, t.log = .reset k cut :: t.log.tail
  settled : t.dev.settled = false
  convCh : t.dev.convCh = none
  ctrl : t.dev.ctrl = Config.freeCtrl t.log.tail k
  conv : t.dev.conv = Config.freeConv t.log.tail k
  params : t.params = s.params
  env : t.env = s.env
  queue : t.host.prog = s.host.prog

/-- The first `rst` comes in cycle `k`, within the next `n` cycles, and no other requester before it. -/
structure FirstRst (s : State) (k n : Nat) : Prop where
  from_now : s.cycle ≤ k
  within : k < s.cycle + n
  rst : k ∈ s.env.rstAt
  first : s.noRstFor (k - s.cycle)
  alone : s.noRivalFor (k - s.cycle)

/-- 1 for a frame accepted before edge `k`, 0 for one whose acceptance would come at `k` or later. -/
def sentBefore (acceptEdge k : Nat) : Nat := if acceptEdge < k then 1 else 0

/-- The mutator that takes its value is cut short by the first `rst` in cycle `k` of its READ: abandoned, only the frames accepted
before are sent, `primed` stays, and the configuration is already `new` (entry 17). -/
def TakesUntilRst (i : Instr) (new : Cfg) (s : State) (k : Nat) : Prop :=
  FirstRst s k ((withCfg s new).readCycles s.params.dummyCh) →
    ∃ t, exec i s = .next t ∧ Abandoned s t k ∧ t.host.primed = s.host.primed ∧ t.host.cfg = new ∧
      frameCount t.log =
        frameCount s.log + sentBefore s.acceptEdge k
          + sentBefore ((withCfg s new).afterFrame (.enc { ch := s.params.dummyCh, cfg := new })).acceptEdge k

/-- The machine sent `n` more frames. -/
def SentFrames (i : Instr) (n : Nat) (s : State) : Prop :=
  ∃ t, exec i s = .next t ∧ frameCount t.log = frameCount s.log + n

end Sys2Proof.Claims

section

open Sys2Proof Sys2Proof.Machine Sys2Proof.Claims

/-! ### Encoder -/

/-- 30_encoding R81: the payload, the shift, and the sum of the fields' weights. -/
def Obligations.EncodeAssemblesPayloadAndPadding : Prop :=
  ∀ f : CmdFields,
    payload12 f =
        (1 : BitVec 1) ++ f.cfg.seq ++ f.ch ++ f.cfg.pm ++ f.cfg.shadow ++ f.cfg.weak ++ f.cfg.range ++ f.cfg.coding ∧
      encodeWord f = payload12 f ++ (0 : BitVec 4) ∧
      encodeWord f = (payload12 f).setWidth 16 <<< 4 ∧
      (encodeWord f).toNat =
        0x8000 + f.cfg.seq.toNat * 0x4000 + f.ch.toNat * 0x0400 + f.cfg.pm.toNat * 0x0100 + f.cfg.shadow.toNat * 0x0080
          + f.cfg.weak.toNat * 0x0040 + f.cfg.range.toNat * 0x0020 + f.cfg.coding.toNat * 0x0010

/-- 30_encoding R82, 40_encoder R102 and R104: the fields of any word, what they are of an encoded word, and that two
inputs never give one word. -/
def Obligations.FieldDecodingInvertsEncode : Prop :=
  (∀ w : Word16,
    cmdWrite w = w.getLsbD 15 ∧ (unpackCmd w).cfg.seq = w.extractLsb' 14 1 ∧ (unpackCmd w).ch = w.extractLsb' 10 4 ∧
      (unpackCmd w).cfg.pm = w.extractLsb' 8 2 ∧ (unpackCmd w).cfg.shadow = w.extractLsb' 7 1 ∧
      (unpackCmd w).cfg.weak = w.extractLsb' 6 1 ∧ (unpackCmd w).cfg.range = w.extractLsb' 5 1 ∧
      (unpackCmd w).cfg.coding = w.extractLsb' 4 1 ∧ cmdPad w = w.extractLsb' 0 4) ∧
    (∀ f : CmdFields,
      unpackCmd (encodeWord f) = f ∧ (encodeWord f).getLsbD 15 = true ∧ (encodeWord f).extractLsb' 0 4 = 0) ∧
    ∀ f g : CmdFields, encodeWord f = encodeWord g → f = g

/-- 30_encoding R83 and R90, the classes of command words: the encoded write words are exactly the image of the encoder, and the
frame decoder names each word's operation. That a word outside the named classes is an XFER_RAW of itself is the model's choice
(entry 9): R90 gives only its class. -/
def Obligations.CommandWordsFallInTheirClasses : Prop :=
  (∀ w : Word16, (w.getLsbD 15 = true ∧ w.extractLsb' 0 4 = 0) ↔ ∃ f, encodeWord f = w) ∧
    decodeCmd 0x0000 = .nopFrame ∧ decodeCmd 0xFFFF = .onesFrame ∧ (∀ f, decodeCmd (encodeWord f) = .writeFrame f) ∧
    ∀ w : Word16, w ≠ 0x0000 → w ≠ 0xFFFF → (∀ f, encodeWord f ≠ w) → decodeCmd w = .xferRaw w

/-- 40_encoder R105: changing one input changes only that input's bits of the word, by its weight. -/
def Obligations.EachInputChangesOnlyItsBits : Prop :=
  ∀ (f : CmdFields) (j : Nat),
    (∀ v, let g : CmdFields := { f with cfg := { f.cfg with seq := v } }
      (j ≠ 14 → (encodeWord g).getLsbD j = (encodeWord f).getLsbD j) ∧
        (encodeWord g).toNat + f.cfg.seq.toNat * 0x4000 = (encodeWord f).toNat + v.toNat * 0x4000) ∧
    (∀ v, let g : CmdFields := { f with ch := v }
      (j < 10 ∨ 13 < j → (encodeWord g).getLsbD j = (encodeWord f).getLsbD j) ∧
        (encodeWord g).toNat + f.ch.toNat * 0x0400 = (encodeWord f).toNat + v.toNat * 0x0400) ∧
    (∀ v, let g : CmdFields := { f with cfg := { f.cfg with pm := v } }
      (j < 8 ∨ 9 < j → (encodeWord g).getLsbD j = (encodeWord f).getLsbD j) ∧
        (encodeWord g).toNat + f.cfg.pm.toNat * 0x0100 = (encodeWord f).toNat + v.toNat * 0x0100) ∧
    (∀ v, let g : CmdFields := { f with cfg := { f.cfg with shadow := v } }
      (j ≠ 7 → (encodeWord g).getLsbD j = (encodeWord f).getLsbD j) ∧
        (encodeWord g).toNat + f.cfg.shadow.toNat * 0x0080 = (encodeWord f).toNat + v.toNat * 0x0080) ∧
    (∀ v, let g : CmdFields := { f with cfg := { f.cfg with weak := v } }
      (j ≠ 6 → (encodeWord g).getLsbD j = (encodeWord f).getLsbD j) ∧
        (encodeWord g).toNat + f.cfg.weak.toNat * 0x0040 = (encodeWord f).toNat + v.toNat * 0x0040) ∧
    (∀ v, let g : CmdFields := { f with cfg := { f.cfg with range := v } }
      (j ≠ 5 → (encodeWord g).getLsbD j = (encodeWord f).getLsbD j) ∧
        (encodeWord g).toNat + f.cfg.range.toNat * 0x0020 = (encodeWord f).toNat + v.toNat * 0x0020) ∧
    (∀ v, let g : CmdFields := { f with cfg := { f.cfg with coding := v } }
      (j ≠ 4 → (encodeWord g).getLsbD j = (encodeWord f).getLsbD j) ∧
        (encodeWord g).toNat + f.cfg.coding.toNat * 0x0010 = (encodeWord f).toNat + v.toNat * 0x0010)

/-- 40_encoder R101 and 10_state R23: `enc_word` is the encoder's word of the field ports in this cycle, and depends on nothing
else of the state. -/
def Obligations.EncWordDependsOnFieldPortsOnly : Prop :=
  (∀ s : State, s.encWord = encodeWord { ch := s.livePorts.ch, cfg := s.livePorts.cfg }) ∧
    ∀ s t : State, s.livePorts.ch = t.livePorts.ch → s.livePorts.cfg = t.livePorts.cfg → s.encWord = t.encWord

/-- 90_conflicts C1: the worked example encodes to 0x9770, not to the 0xB5F0 that the source prints, which belongs to other
inputs. -/
def Obligations.SourceExampleEncodesTo9770 : Prop :=
  encodeWord { ch := 5, cfg := { seq := 0, pm := 3, shadow := 0, weak := 1, range := 1, coding := 1 } } = 0x9770 ∧
    encodeWord { ch := 13, cfg := { seq := 0, pm := 1, shadow := 1, weak := 1, range := 1, coding := 1 } } = 0xB5F0

/-- ENCODE completes in every state (40_encoder R100): the fields stand on the ports and the word is returned. That the host
drives the ports and keeps the word is entry 12. -/
def Obligations.EncodeCompletesWithItsWord : Prop :=
  ∀ (f : CmdFields) (s : State),
    exec (.encode f) s =
        .next { s with
          ports := { s.ports with ch := f.ch, cfg := f.cfg }
          host := { s.host with result := .word (encodeWord f) } } ∧
      ∀ t, exec (.encode f) s = .next t → (s.ports.reqValid = true ∨ s.rival = none) → t.encWord = encodeWord f

/-! ### Extractor -/

/-- 42_extractor R161, R162 and R164: the two views of the sample agree, no bit moves, and the value is at most 4095. -/
def Obligations.SampleViewsAgree : Prop :=
  ∀ r : Word16,
    sample16 r = r &&& 0x0FFF ∧ sample16 r = (extractSample r).setWidth 16 ∧
      (sample16 r).extractLsb' 0 12 = extractSample r ∧ (sample16 r).extractLsb' 12 4 = 0 ∧
      (∀ j, j < 12 → (extractSample r).getLsbD j = r.getLsbD j) ∧ (extractSample r).toNat ≤ 4095

/-- EXTRACT completes (42_extractor R160): on a response word that is given, and on the port `rsp_word` once the block has been
reset; before that the read of `rsp_word` faults (70_reset_and_hazards R223). The two operand forms are entry 11. -/
def Obligations.ExtractCompletesWithLowBits : Prop :=
  (∀ (r : Word16) (s : State),
    exec (.extract (.word r)) s = .next { s with host := { s.host with result := .extracted (r.extractLsb' 0 12) } }) ∧
    (∀ s : State, s.wasReset = true →
      exec (.extract .port) s =
        .next { s with host := { s.host with result := .extracted (s.blk.rspWordQ.extractLsb' 0 12) } }) ∧
    ∀ s : State, s.wasReset = false → exec (.extract .port) s = .fault .unwrittenRegister

/-! ### Encodings -/

/-- Every request record is read back as its request, with every field, and the don't-care bits are ignored (30_encoding R85;
the places of the bits are entry 8). -/
def Obligations.RequestRecordsReadBack : Prop :=
  (∀ w, decodeReq (packReq (.raw w)) = .xferRaw w) ∧
    (∀ f : CmdFields,
      decodeReq (packReq (.enc f)) =
        .xferEnc f.ch
          { seq := some f.cfg.seq, pm := some f.cfg.pm, shadow := some f.cfg.shadow, weak := some f.cfg.weak
            range := some f.cfg.range, coding := some f.cfg.coding }) ∧
    (∀ b c : BitVec 28, b.extractLsb' 0 17 = c.extractLsb' 0 17 → b.getLsbD 0 = true → decodeReq b = decodeReq c) ∧
    ∀ b c : BitVec 28, b.getLsbD 0 = false → c.getLsbD 0 = false → b.extractLsb' 17 11 = c.extractLsb' 17 11 →
      decodeReq b = decodeReq c

/-- HEADLINE: every operation, with every operand, is read back from the line of text the encoder writes for it (30_encoding
R91; the spelling details are entry 7). -/
def Obligations.EveryOperationReadsBackFromItsLine : Prop := ∀ i : Instr, decode (encode i) = .ok i

/-- Words and lines written out from the spec's encodings decode to what they stand for (95_test_vectors E-3, E-4, E-22, X-3, T-1,
H-5). The model's choices here: that 0x1234, a word of no named class, is an XFER_RAW of itself (entry 9), and that a response word
is an EXTRACT of itself (entry 11). -/
def Obligations.WrittenOutWordsDecode : Prop :=
  decode (.cmd 0b1_0_0101_11_0_1_1_1_0000) =
      .ok (.writeFrame { ch := 5, cfg := { seq := 0, pm := 3, shadow := 0, weak := 1, range := 1, coding := 1 } }) ∧
    decode (.cmd 0b1_0_1101_01_1_1_1_1_0000) =
      .ok (.writeFrame { ch := 13, cfg := { seq := 0, pm := 1, shadow := 1, weak := 1, range := 1, coding := 1 } }) ∧
    decode (.cmd 0b0001_0010_0011_0100) = .ok (.xferRaw 0x1234) ∧
    decode (.cmd 0b0000_0000_0000_0000) = .ok .nopFrame ∧
    decode (.cmd 0b1111_1111_1111_1111) = .ok .onesFrame ∧
    decode (.rsp 0b0101_101010111100) = .ok (.extract (.word 0x5ABC)) ∧
    decode (.line (asciiBytes ['R', 'E', 'A', 'D', ' ', '1', '5'])) = .ok (.read 15) ∧
    decode (.line (asciiBytes ['S', 'E', 'T', '_', 'S', 'E', 'Q', ' ', '-', '1'])) = .ok (.setSeq (-1))

/-! ### The step -/

/-- A step runs the operation that the next queued record decodes to, at the state with the record taken off; a record that is no
operation is refused by name; with nothing queued one clk edge passes, but that a request kept up after its acceptance is the
fault "duplicate request" (60_exceptions R205; entry 18). An opcode-table word queued first is run so (entries 1, 6 and 9). -/
def Obligations.StepRunsTheDecodedOperation : Prop :=
  (∀ (s : State) (r : Record) (rest : List Record) (i : Instr), s.host.prog = r :: rest → decode r = .ok i →
    step s = exec i { s with host := { s.host with prog := rest } }) ∧
    (∀ (s : State) (r : Record) (rest : List Record) (e : DecodeError), s.host.prog = r :: rest → decode r = .error e →
      step s = .refused (.undecodable e)) ∧
    (∀ s : State, s.host.prog = [] → ¬ (s.ports.reqValid = true ∧ acceptedSinceReset s.log = true) → step s = .next s.tick) ∧
    (∀ s : State, s.host.prog = [] → s.ports.reqValid = true → acceptedSinceReset s.log = true →
      step s = .fault .duplicateRequest) ∧
    ∀ (s : State) (nbits w : Nat) (i : Instr), decodeTableWord nbits w = some i → step (s.withFetchWord nbits w) = exec i s

/-- One clk edge of the machine is one edge of the block with the inputs of that cycle (41_transactor R130). The model's choices: the
ports keep the levels the host drives until an operation changes them (entry 13), the parameters stay (10_state R27; entry 2 for
those it does not name), and the inputs to come stand in lists that no edge changes (entries 3, 4 and 19). -/
def Obligations.MachineEdgeRunsTheBlock : Prop :=
  ∀ s : State,
    (s.wasReset = true ∨ s.rst = true → s.tick.blk = s.blk.edge s.params s.inputs ∧ s.tick.wasReset = true) ∧
      s.tick.params = s.params ∧ s.tick.ports = s.ports ∧ s.tick.env = s.env ∧ s.tick.cycle = s.cycle + 1

/-! ### The block, edge by edge -/

/-- 70_reset_and_hazards R220 and 41_transactor R149 with 10_state R39: `rst = 1` at an edge overrides every arm, in every state
and for every input, and no request is accepted there. -/
def Obligations.ResetOverridesEveryArm : Prop :=
  ∀ (p : Params) (b : Block) (i : Inputs), i.rst = true →
    b.edge p i =
        { fsm := .idle, divCnt := 0, ph := 0, txSr := 0x0000, rxSr := 0x0000, rspWordQ := 0x0000, rspValidQ := false
          csNQ := true, sclkQ := p.cpol, mosiQ := false } ∧
      b.accepts i = false

/-- After an edge with `rst = 1`, in any state, also before the first one: the flags, the response and the pins that
70_reset_and_hazards R221 names, and a request offered at the next edge with `rst = 0` is accepted there. `dev_ready` is false
(R222, 43_host_sequences R176; that it is so from this edge on is entry 16), and the device is in an unknown state (R222, U5): its
registers are free values (entry 15). The record of the reset is entry 23. -/
def Obligations.OutputsAfterReset : Prop :=
  ∀ s : State, s.rst = true →
    s.tick.reqReady = .ok true ∧ s.tick.busy = .ok false ∧ s.tick.rspValid = .ok false ∧ s.tick.rspWord = .ok 0x0000 ∧
      s.tick.rspSample = .ok 0x000 ∧ s.tick.rspSample16 = .ok 0x0000 ∧ s.tick.csN = true ∧
      s.tick.sclk = s.params.cpol ∧ s.tick.mosi = false ∧ s.tick.host.devReady = false ∧
      s.tick.dev.settled = false ∧ s.tick.dev.convCh = none ∧ s.tick.dev.ctrl = Config.freeCtrl s.log s.cycle ∧
      s.tick.dev.conv = Config.freeConv s.log s.cycle ∧
      s.tick.log = .reset s.cycle (s.wasReset && decide (s.blk.fsm = .active)) :: s.log ∧
      (s.tick.rst = false → s.ports.reqValid = true →
        s.tick.tick.log = .accept (s.cycle + 1) s.ports.frameWord :: s.tick.log ∧ s.tick.tick.csN = false)

/-- 41_transactor R131 and R125: acceptance loads the frame word fixed at that edge, clears what it clears, drives `cs_n` low; and
until the first SCLK edge `mosi` shows the first bit (`CPHA` 0) or 0 (`CPHA` 1), `sclk` stays at `CPOL`, `rsp_word` stays,
whatever the request inputs do. -/
def Obligations.AcceptanceLoadsTheFrameWord : Prop :=
  ∀ (p : Params) (b : Block) (inp : Nat → Inputs), StartsFrame p b (inp 0) → (∀ k, k < p.div → (inp k).rst = false) →
    let w := if (inp 0).ports.reqOp then (inp 0).ports.reqRaw
      else encodeWord { ch := (inp 0).ports.ch, cfg := (inp 0).ports.cfg }
    blockAt p inp b 1 =
        { fsm := .active, divCnt := 0, ph := 0, rxSr := 0x0000, rspWordQ := b.rspWordQ, rspValidQ := false
          csNQ := false, sclkQ := p.cpol
          txSr := if p.cpha then w else w <<< 1
          mosiQ := if p.cpha then false else w.getLsbD 15 } ∧
      ∀ n, 1 ≤ n → n ≤ p.div →
        (blockAt p inp b n).fsm = .active ∧ (blockAt p inp b n).csNQ = false ∧ (blockAt p inp b n).sclkQ = p.cpol ∧
          (blockAt p inp b n).mosiQ = (if p.cpha then false else w.getLsbD 15) ∧
          (blockAt p inp b n).rspWordQ = b.rspWordQ

/-- 41_transactor R132: idle without a request, every register keeps its value but `rsp_valid`. -/
def Obligations.IdleWithoutRequestKeepsEveryRegister : Prop :=
  ∀ (p : Params) (b : Block) (i : Inputs), b.fsm = .idle →
    (i.rst = false → i.ports.reqValid = false → b.edge p i = { b with rspValidQ := false }) ∧
      (b.Inv p → b.csNQ = true ∧ b.sclkQ = p.cpol ∧ b.mosiQ = false)

/-- 41_transactor R142 and R143: what the completion tick does, and that no other edge but a reset writes `rsp_word`, and no other
edge at all sets `rsp_valid`. -/
def Obligations.OnlyCompletionDeliversAResponse : Prop :=
  ∀ (p : Params) (b : Block) (i : Inputs), b.Inv p →
    (i.rst = false → b.fsm = .active → b.divCnt = p.div - 1 → b.ph = 32 →
      b.edge p i =
          { b with
            csNQ := true, mosiQ := false, rspWordQ := b.rxSr, rspValidQ := true, fsm := .gap, ph := 0, divCnt := 0 } ∧
        (b.edge p i).sclkQ = p.cpol) ∧
      (¬ (i.rst = false ∧ b.fsm = .active ∧ b.divCnt = p.div - 1 ∧ b.ph = 32) →
        (b.edge p i).rspValidQ = false ∧ (i.rst = false → (b.edge p i).rspWordQ = b.rspWordQ))

/-- 41_transactor R147: the request and field inputs reach the block's registers at an acceptance edge only. -/
def Obligations.RequestInputsIgnoredOutsideAcceptance : Prop :=
  ∀ (p : Params) (b : Block) (i j : Inputs), i.rst = j.rst → i.miso = j.miso → b.accepts i = false → b.accepts j = false →
    b.edge p i = b.edge p j

/-- 41_transactor R148: `miso` reaches the block's registers at a sampling edge only. -/
def Obligations.MisoIgnoredOutsideSampling : Prop :=
  ∀ (p : Params) (b : Block) (i j : Inputs), i.rst = j.rst → i.ports = j.ports → ¬ samplingEdge p b → b.edge p i = b.edge p j

/-- From 41_transactor R127 ("The bits sent do not depend on the bits received"): two runs that differ in `miso` alone show the
same pins and the same flags at every edge. -/
def Obligations.PinsDoNotDependOnReceivedBits : Prop :=
  ∀ (p : Params) (b : Block) (f g : Nat → Inputs), (∀ k, (f k).rst = (g k).rst ∧ (f k).ports = (g k).ports) →
    ∀ n, let x := blockAt p f b n; let y := blockAt p g b n
      x.csNQ = y.csNQ ∧ x.sclkQ = y.sclkQ ∧ x.mosiQ = y.mosiQ ∧ x.rspValidQ = y.rspValidQ ∧ x.reqReady = y.reqReady

/-- From 41_transactor R124, with 10_state R25: outside a frame `cs_n = 1`, `sclk = CPOL`, `mosi = 0`, and `cs_n` is 0 throughout a
frame; in every state of a block that keeps its invariant. -/
def Obligations.PinsAreIdleOutsideAFrame : Prop :=
  ∀ (p : Params) (b : Block) (i : Inputs), b.Inv p →
    (b.fsm ≠ .active → b.csNQ = true ∧ b.sclkQ = p.cpol ∧ b.mosiQ = false) ∧ (b.fsm = .active → b.csNQ = false) ∧
      (b.edge p i).Inv p ∧ ((b.edge p i).csNQ = false → b.csNQ = false ∨ b.accepts i = true)

/-- 41_transactor R145 and R125, with the windows of R139: for every `DIV`, `CPOL`, `CPHA`, word and MISO levels, a frame without
reset presents the word's bits, latches the sampled bits, and holds `cs_n = 0` from acceptance to completion. Edge 0 is the
acceptance, so SCLK edge e is clk edge (e+1)·DIV. -/
def Obligations.FramePresentsTheWordAndLatchesTheResponse : Prop :=
  ∀ (p : Params) (b : Block) (inp : Nat → Inputs), StartsFrame p b (inp 0) →
    (∀ k, k ≤ 33 * p.div → (inp k).rst = false) →
    let w := if (inp 0).ports.reqOp then (inp 0).ports.reqRaw
      else encodeWord { ch := (inp 0).ports.ch, cfg := (inp 0).ports.cfg }
    (∀ i n, i < 16 → (2 * i + p.phase) * p.div < n → n ≤ (2 * i + p.phase + 2) * p.div →
      (blockAt p inp b n).mosiQ = w.getLsbD (15 - i)) ∧
    (blockAt p inp b (33 * p.div + 1)).rspValidQ = true ∧
    (∀ i, i < 16 →
      (blockAt p inp b (33 * p.div + 1)).rspWordQ.getLsbD (15 - i) = (inp ((2 * i + p.phase + 1) * p.div)).miso) ∧
    b.csNQ = true ∧ (∀ n, 1 ≤ n → n ≤ 33 * p.div → (blockAt p inp b n).csNQ = false) ∧
    (blockAt p inp b (33 * p.div + 1)).csNQ = true

/-- 41_transactor R140 and R138: the clk edges of a frame accepted at edge 0, and the levels of SCLK between them. -/
def Obligations.FrameEdgesFallAtTheirClkEdges : Prop :=
  ∀ (p : Params) (b : Block) (inp : Nat → Inputs), StartsFrame p b (inp 0) →
    (∀ k, k ≤ 34 * p.div + 1 → (inp k).rst = false) →
    (∀ n, 1 ≤ n → n ≤ 33 * p.div →
      ((blockAt p inp b (n + 1)).sclkQ ≠ (blockAt p inp b n).sclkQ ↔ ∃ e, e ≤ 31 ∧ n = (e + 1) * p.div)) ∧
    (∀ n, 1 ≤ n → n ≤ p.div → (blockAt p inp b n).sclkQ = p.cpol) ∧
    (∀ e n, e ≤ 31 → (e + 1) * p.div < n → n ≤ (e + 2) * p.div →
      (blockAt p inp b n).sclkQ = (p.cpol ^^ decide ((e + 1) % 2 = 1))) ∧
    (∀ n, 1 ≤ n → n ≤ 34 * p.div + 1 → ((blockAt p inp b n).rspValidQ = true ↔ n = 33 * p.div + 1)) ∧
    (∀ n, 1 ≤ n → n ≤ 34 * p.div + 1 → ((blockAt p inp b n).fsm = .idle ↔ n = 34 * p.div + 1)) ∧
    (∀ n, 33 * p.div < n → n ≤ 34 * p.div + 1 → (blockAt p inp b n).sclkQ = p.cpol) ∧
    (∀ n, 1 ≤ n → n ≤ 34 * p.div → (blockAt p inp b n).accepts (inp n) = false) ∧
    ((inp (34 * p.div + 1)).ports.reqValid = true →
      (blockAt p inp b (34 * p.div + 1)).accepts (inp (34 * p.div + 1)) = true)

/-- From 70_reset_and_hazards R233 and 95_test_vectors T-6: a request held for ever is accepted every `34·DIV + 1` edges, and at no
other edge. -/
def Obligations.HeldRequestIsAcceptedAgainAndAgain : Prop :=
  ∀ (p : Params) (b : Block) (inp : Nat → Inputs), b.Inv p → b.fsm = .idle →
    (∀ k, (inp k).rst = false ∧ (inp k).ports.reqValid = true) →
    ∀ n, (blockAt p inp b n).accepts (inp n) = true ↔ n % (34 * p.div + 1) = 0

/-! ### One frame -/

/-- XFER_RAW, NOP_FRAME and ONES_FRAME complete (41_transactor R121, 43_host_sequences R172, R174): undisturbed, from any state in
which a host operation may start, the cycle-level run is the transaction-level frame of the word, and nothing else of the
state changes. The model's choices in the state after it: the device is entry 15 (and entry 29), the record entry 23, the levels left
on the ports entry 13, the pause used up entry 27. -/
def Obligations.RawFramesRunAsOneFrame : Prop :=
  ∀ s : State, s.Ready → s.calmFor s.frameCycles →
    (∀ w, RunsOneFrame (.xferRaw w) (.raw w) s) ∧ RunsOneFrame .nopFrame (.raw 0x0000) s ∧
      RunsOneFrame .onesFrame (.raw 0xFFFF) s

/-- XFER_ENC and WRITE_FRAME complete (41_transactor R120, 30_encoding R90, R91): the same with the encoder's word; fields that are
left out take the host's values. The model's choices in the state after it: the device is entry 15, the record entry 23, the levels
left on the ports, so `enc_word`, entry 13, the pause used up entry 27. WRITE_FRAME as a frame of its own is entry 10. -/
def Obligations.EncodedFramesRunAsOneFrame : Prop :=
  ∀ s : State, s.Ready → s.calmFor s.frameCycles →
    (∀ ch o r, requestOf s.host.cfg (.xferEnc ch o) = some r → RunsOneFrame (.xferEnc ch o) r s) ∧
      ∀ f, RunsOneFrame (.writeFrame f) (.enc f) s

/-- A settled device takes a write frame (20_memory R52, R57): its Control Register holds the frame's fields; whether it converts the
frame's channel is a free value, whatever its power mode (60_exceptions R212); a non-write frame or the all-ones word leaves
its Control Register a free value. That the device answers by these rules is entry 15, that write words with non-zero padding are
taken so too is entry 29. -/
def Obligations.WriteFrameLoadsTheControlRegister : Prop :=
  ∀ (s : State) (w : Word16) (t : State), s.Ready → s.calmFor s.frameCycles → s.dev.settled = true →
    exec (.xferRaw w) s = .next t →
      (w.getLsbD 15 = true → w ≠ 0xFFFF →
        t.dev.ctrl = (unpackCmd w).cfg ∧ t.dev.settled = true ∧
          t.dev.convCh =
            (if Config.freeConverts s.dev.ctrl (s.acceptLog (.raw w)) s.frameEnd then some (w.extractLsb' 10 4) else none)) ∧
      (w.getLsbD 15 = false → t.dev.ctrl = Config.freeCtrl (s.acceptLog (.raw w)) s.frameEnd ∧ t.dev.convCh = none) ∧
      (w = 0xFFFF → t.dev.ctrl = Config.freeCtrl (s.acceptLog (.raw w)) s.frameEnd ∧ t.dev.settled = false)

/-- From 20_memory R60: the response of a frame can be any 16-bit word, by the levels of MISO alone. -/
def Obligations.EveryResponseWordIsPossible : Prop :=
  ∀ (s : State) (w r : Word16), s.Ready → s.calmFor s.frameCycles →
    ∃ (levels : List Bool) (t : State),
      exec (.xferRaw w) { s with env := { s.env with miso := levels } } = .next t ∧ t.host.result = .response r ∧
        t.rspWord = .ok r

/-- Under premise `DEV_CONFIG_LAG` (20_memory R66): the response of a frame does not depend on the word that frame sends. The premise
is taken of every pair of words, also those that write no Control Register value, of which R66 does not speak: the model's choice
(entry 30). -/
def Obligations.ResponseIndependentOfItsOwnWord : Prop :=
  ∀ (s : State) (w v : Word16) (t u : State), DevConfigLag s → s.Ready → s.calmFor s.frameCycles →
    exec (.xferRaw w) s = .next t → exec (.xferRaw v) s = .next u → t.host.result = u.host.result ∧ t.rspWord = u.rspWord

/-! ### READ -/

/-- 43_host_sequences R170: READ sends the write frame and then the zero word, discards the first response and returns the low
12 bits of the second; out of range it is refused. `accurate` of the result is left open here. -/
def Obligations.ReadReturnsTheSecondResponse : Prop :=
  ∀ (s : State) (c : Int),
    (0 ≤ c → c ≤ 15 → s.Ready → s.calmFor (s.readCycles (BitVec.ofInt 4 c)) →
      ∃ t r accurate, exec (.read c) s = .next t ∧ addedRead s t (BitVec.ofInt 4 c) s.host.cfg r ∧
        t.host.result = .sample (r.extractLsb' 0 12) accurate ∧ t.host.cfg = s.host.cfg ∧
        t.host.primed = (s.host.primed || s.host.devReady)) ∧
      (¬ (0 ≤ c ∧ c ≤ 15) → exec (.read c) s = .refused (.readChannelOutOfRange c))

/-- READ completes, with the whole state after it: two transaction-level frames, `primed`, and the result with the flag that
says whether a claim about its channel may be made (entry 24). The model's choices in the state after it: the device is entry 15,
the record entry 23, the levels left on the ports entry 13, the pauses used up entry 27. -/
def Obligations.ReadRunsAsTwoFrames : Prop :=
  ∀ (s : State) (c : Int), 0 ≤ c → c ≤ 15 → s.Ready → s.calmFor (s.readCycles (BitVec.ofInt 4 c)) →
    let s1 := s.afterFrame (.enc { ch := BitVec.ofInt 4 c, cfg := s.host.cfg })
    let s2 := s1.afterFrame (.raw 0x0000)
    exec (.read c) s =
      .next { s2 with
        host := { s2.host with
          primed := s.host.primed || s.host.devReady
          result := .sample ((s1.frameResponse (.raw 0x0000)).extractLsb' 0 12) (s.host.devReady && s.host.primed) } }

/-- 43_host_sequences R189: a channel outside 0 to 15 is refused, in every state, and not truncated. -/
def Obligations.ReadOutOfRangeIsRefused : Prop :=
  ∀ (s : State) (c : Int), c < 0 ∨ 15 < c → exec (.read c) s = .refused (.readChannelOutOfRange c)

/-- Under premise `DEV_PIPELINE` (20_memory R62), a READ whose result says that a claim about its channel may be made (R65, entry 24)
returns a sample of the channel asked for. That a 0xFFFF frame sent outside RESET_SEQ does not take that back is the model's choice
(entry 33). -/
def Obligations.PrimedReadSamplesItsChannel : Prop :=
  ∀ (isSampleOf : Channel → Nat → Sample → Prop) (s t : State) (c : Int) (v : Sample), 0 ≤ c → c ≤ 15 → s.Ready →
    s.calmFor (s.readCycles (BitVec.ofInt 4 c)) → exec (.read c) s = .next t → t.host.result = .sample v true →
    DevPipeline isSampleOf t.log → isSampleOf (BitVec.ofInt 4 c) (t.cycle - 1) v

/-- From 43_host_sequences R171 and 60_exceptions R205: another requester's request between the completion of a READ's first frame
and the acceptance of its second is a fault on the READ. -/
def Obligations.InterleavedReadFaults : Prop :=
  ∀ (s : State) (c : Int) (k : Nat) (r : Request), 0 ≤ c → c ≤ 15 → s.Ready →
    let s1 := s.afterFrame (.enc { ch := BitVec.ofInt 4 c, cfg := s.host.cfg })
    s1.cycle ≤ k → k ≤ s1.acceptEdge → (k, r) ∈ s.env.rivals → s.noRstFor (k + 1 - s.cycle) → s.noRivalFor (k - s.cycle) →
    exec (.read c) s = .fault .interleavedRead

/-! ### RESET_SEQ and DELAY -/

/-- 43_host_sequences R173: the fixed order of three frames and two waits, the channel-0 word with the current configuration, and
what it writes. -/
def Obligations.ResetSeqSendsItsFixedSequence : Prop :=
  ∀ s : State, s.Ready → s.calmFor s.resetSeqCycles →
    ∃ t a1 e1 r1 d1 a2 e2 r2 d2 a3 e3 r3, exec .resetSeq s = .next t ∧
      t.log =
        [.complete e3 r3, .accept a3 (encodeWord { ch := 0, cfg := s.host.cfg }), .delay d2 s.params.settle,
          .complete e2 r2, .accept a2 0xFFFF, .delay d1 s.params.settle, .complete e1 r1, .accept a1 0xFFFF] ++ s.log ∧
      t.host.devReady = true ∧ t.host.primed = false ∧ t.host.cfg = s.host.cfg

/-- RESET_SEQ completes, with the whole state after it (the model's choices: entries 15, 26 and 23 for the
device, the waits and the record, entry 13 for the levels left on the ports, entry 27 for the pauses used up). -/
def Obligations.ResetSeqRunsItsFramesAndWaits : Prop :=
  ∀ s : State, s.Ready → s.calmFor s.resetSeqCycles →
    exec .resetSeq s =
      .next { s.afterResetFrames with
        host := { s.afterResetFrames.host with devReady := true, primed := false, result := .completed }
        dev := { s.afterResetFrames.dev with settled := true } }

/-- DELAY completes, with the whole state after it: `n · DELAY_UNIT_CYCLES` clk edges without a request (43_host_sequences R179;
entry 26), the ports keeping their levels (entry 13); outside the gap the block stays as it is, but that `rsp_valid` is over. -/
def Obligations.DelayLetsTimePass : Prop :=
  ∀ (s : State) (n : Nat), s.Ready → s.calmFor (n * s.params.delayUnit) →
    exec (.delay n) s = .next ((s.afterDelay n).setResult .completed) ∧
      (s.afterDelay n).blk.csNQ = true ∧ (s.afterDelay n).blk.sclkQ = s.params.cpol ∧
      (s.blk.fsm = .idle → 0 < n * s.params.delayUnit → (s.afterDelay n).blk = { s.blk with rspValidQ := false })

/-! ### Mutators -/

/-- 43_host_sequences R180 to R188: for each mutator, a legal value changes that field only, sends exactly one dummy READ and is
Accepted; any other integer is Rejected, with nothing changed and no frame. -/
def Obligations.MutatorsTakeLegalValuesOnly : Prop :=
  ∀ (s : State) (v : Int), s.Ready →
    let c := s.host.cfg
    ((0 ≤ v ∧ v ≤ 1 → Takes (.setSeq v) { c with seq := BitVec.ofInt 1 v } s) ∧ (¬ (0 ≤ v ∧ v ≤ 1) → Drops (.setSeq v) s)) ∧
    ((0 ≤ v ∧ v ≤ 3 → Takes (.setPm v) { c with pm := BitVec.ofInt 2 v } s) ∧ (¬ (0 ≤ v ∧ v ≤ 3) → Drops (.setPm v) s)) ∧
    ((0 ≤ v ∧ v ≤ 1 → Takes (.setShadow v) { c with shadow := BitVec.ofInt 1 v } s) ∧
      (¬ (0 ≤ v ∧ v ≤ 1) → Drops (.setShadow v) s)) ∧
    ((0 ≤ v ∧ v ≤ 1 → Takes (.setWeak v) { c with weak := BitVec.ofInt 1 v } s) ∧
      (¬ (0 ≤ v ∧ v ≤ 1) → Drops (.setWeak v) s)) ∧
    ((0 ≤ v ∧ v ≤ 1 → Takes (.setRange v) { c with range := BitVec.ofInt 1 v } s) ∧
      (¬ (0 ≤ v ∧ v ≤ 1) → Drops (.setRange v) s)) ∧
    ((0 ≤ v ∧ v ≤ 1 → Takes (.setCoding v) { c with coding := BitVec.ofInt 1 v } s) ∧
      (¬ (0 ≤ v ∧ v ≤ 1) → Drops (.setCoding v) s))

/-- An accepted mutator, with the whole state after it: the field, then `READ(DUMMY_CH)` as two transaction-level frames
(43_host_sequences R181). The model's choices in the state after it: the device is entry 15, the record entry 23, the levels left on
the ports entry 13, the pauses used up entry 27. -/
def Obligations.AcceptedMutatorsRunOneRead : Prop :=
  ∀ (s : State) (v : Int), s.Ready →
    let c := s.host.cfg
    (0 ≤ v → v ≤ 1 → TakesFrame (.setSeq v) { c with seq := BitVec.ofInt 1 v } s) ∧
    (0 ≤ v → v ≤ 3 → TakesFrame (.setPm v) { c with pm := BitVec.ofInt 2 v } s) ∧
    (0 ≤ v → v ≤ 1 → TakesFrame (.setShadow v) { c with shadow := BitVec.ofInt 1 v } s) ∧
    (0 ≤ v → v ≤ 1 → TakesFrame (.setWeak v) { c with weak := BitVec.ofInt 1 v } s) ∧
    (0 ≤ v → v ≤ 1 → TakesFrame (.setRange v) { c with range := BitVec.ofInt 1 v } s) ∧
    (0 ≤ v → v ≤ 1 → TakesFrame (.setCoding v) { c with coding := BitVec.ofInt 1 v } s)

/-- 43_host_sequences R191: each host operation sends a fixed number of frames. -/
def Obligations.HostOperationsSendFixedFrameCounts : Prop :=
  ∀ (s : State) (v : Int) (n : Nat), s.Ready → (∀ m, s.calmFor m) →
    (0 ≤ v → v ≤ 15 → SentFrames (.read v) 2 s) ∧
    (∀ i ∈ [Instr.setSeq v, .setShadow v, .setWeak v, .setRange v, .setCoding v],
      SentFrames i (if 0 ≤ v ∧ v ≤ 1 then 2 else 0) s) ∧
    SentFrames (.setPm v) (if 0 ≤ v ∧ v ≤ 3 then 2 else 0) s ∧
    SentFrames .resetSeq 3 s ∧ SentFrames (.delay n) 0 s

/-! ### Reset in the middle, overlaps, power-on -/

/-- From 70_reset_and_hazards R222: the first `rst` in cycle `k` of an operation that is one frame abandons it: the block has its
reset values, the response is lost, `dev_ready` is false, the configuration stays, the device is unknown (U5; entry 15), and a use
of the result faults. That the operation ends at that very edge and its request is withdrawn is the model's choice (entry 17),
and so are that `primed` stays (entry 16) and that the pause is used up (entry 27). -/
def Obligations.ResetAbandonsAFrame : Prop :=
  ∀ (s : State) (i : Instr) (r : Request) (k : Nat), requestOf s.host.cfg i = some r → s.Ready → s.cycle ≤ k →
    k ≤ s.frameEnd → k ∈ s.env.rstAt → s.noRstFor (k - s.cycle) → s.noRivalFor (k - s.cycle) →
    ∃ t, exec i s = .next t ∧ Abandoned s t k ∧ t.blk = .resetValue s.params ∧
      t.host = { s.host with devReady := false, pauses := s.host.pauses.tail, result := .abandoned } ∧
      t.useResult = .error .abandonedResult ∧ t.params = s.params ∧ t.ports.reqValid = false ∧ t.cycle = k + 1 ∧
      t.log = .reset k (decide (s.acceptEdge < k)) :: (if s.acceptEdge < k then s.acceptLog r else s.log)

/-- From 70_reset_and_hazards R222 and 95_test_vectors P4: the first `rst` in any cycle of a READ abandons it, its remaining frames
are not sent, it returns no result, the device is unknown (U5; entry 15), and the configuration stays. The model's choices: the
operation ends at the very edge of the reset and its request is withdrawn (entry 17), and `primed` stays (entry 16). -/
def Obligations.ResetAbandonsARead : Prop :=
  ∀ (s : State) (c : Int) (k : Nat), 0 ≤ c → c ≤ 15 → s.Ready → s.cycle ≤ k →
    k < s.cycle + s.readCycles (BitVec.ofInt 4 c) → k ∈ s.env.rstAt → s.noRstFor (k - s.cycle) →
    s.noRivalFor (k - s.cycle) →
    ∃ t, exec (.read c) s = .next t ∧ Abandoned s t k ∧ t.blk = .resetValue s.params ∧ t.cycle = k + 1 ∧
      t.host.devReady = false ∧ t.host.primed = s.host.primed ∧ t.host.cfg = s.host.cfg ∧
      t.host.result = .abandoned ∧ t.useResult = .error .abandonedResult ∧
      frameCount t.log =
        frameCount s.log +
          (if s.acceptEdge < k then 1 else 0) +
          (if (s.afterFrame (.enc { ch := BitVec.ofInt 4 c, cfg := s.host.cfg })).acceptEdge < k then 1 else 0)

/-- From 60_exceptions R205, 43_host_sequences R175 and R178: an operation that needs the host does not start while a request is
held on the ports or a frame is in progress. That this is looked at when the operation starts is entry 18. -/
def Obligations.HostOperationsDoNotOverlap : Prop :=
  ∀ (i : Instr) (s : State), needsHost i = true → i.wellFormed = true → s.wasReset = true →
    (s.ports.reqValid = true → exec i s = .fault .duplicateRequest) ∧
      (s.ports.reqValid = false → s.blk.fsm = .active → exec i s = .fault .hostOverlap)

/-- From 70_reset_and_hazards R223 and U1: before the first `rst`, every read of a register faults, the pins show free values,
a clk edge writes nothing, and a frame cannot be asked for. The fault of the last is entry 14; that the device too holds still at such
an edge is the model's choice (entry 32). -/
def Obligations.NothingIsReadableBeforeTheFirstReset : Prop :=
  ∀ s : State, s.wasReset = false →
    s.rspWord = .error .unwrittenRegister ∧ s.rspSample = .error .unwrittenRegister ∧
      s.rspSample16 = .error .unwrittenRegister ∧ s.rspValid = .error .unwrittenRegister ∧
      s.reqReady = .error .unwrittenRegister ∧ s.busy = .error .unwrittenRegister ∧
      s.csN = Config.freePin .csN s.log s.cycle ∧ s.sclk = Config.freePin .sclk s.log s.cycle ∧
      s.mosi = Config.freePin .mosi s.log s.cycle ∧
      (s.rst = false → s.tick = { s with cycle := s.cycle + 1 }) ∧
      ∀ i r, requestOf s.host.cfg i = some r → s.ports.reqValid = false → s.noRstFor s.nextPause →
        exec i s = .fault .unwrittenRegister

/-- No operation and no step ends in the fault `stalled`, in any state that keeps the invariant, whatever `rst`, MISO and the
requests of others do (43_host_sequences R192, 60_exceptions R200; entry 21). -/
def Obligations.NoOperationStalls : Prop :=
  ∀ s : State, s.Inv → (∀ i : Instr, exec i s ≠ .fault .stalled) ∧ step s ≠ .fault .stalled

/-! ### Reset state and invariants -/

/-- 10_state R39 and 43_host_sequences R190 at `State.reset`, for every value of the parameters. -/
def Obligations.ResetStateHoldsTheSpecsValues : Prop :=
  ∀ p : Params,
    (State.resetWith p).blk =
        { fsm := .idle, divCnt := 0, ph := 0, txSr := 0x0000, rxSr := 0x0000, rspWordQ := 0x0000, rspValidQ := false
          csNQ := true, sclkQ := p.cpol, mosiQ := false } ∧
      (State.resetWith p).reqReady = .ok true ∧ (State.resetWith p).rspSample = .ok 0x000 ∧
      (State.resetWith p).host.cfg = p.cfgInit ∧ (State.resetWith p).host.devReady = false ∧
      (State.resetWith p).host.primed = false ∧ frameCount (State.resetWith p).log = 0 ∧
      State.reset = State.resetWith resetParams

/-- The invariant of Safety.lean holds right after reset and at power-on, for every value of the parameters. -/
def Obligations.ResetStateKeepsTheMachineInvariant : Prop :=
  ∀ p : Params, (State.resetWith p).Inv ∧ (State.powerOn p).Inv

/-- HEADLINE: every step from a state that keeps the invariant of Safety.lean keeps it: the block's registers stay in their ranges
and the pins in their idle levels outside a frame, frames are serial and whole on the record (20_memory R56, R59),
`dev_ready` holds only of a block that has been reset (43_host_sequences R176). -/
def Obligations.EveryStepKeepsTheMachineInvariant : Prop := ∀ s t : State, s.Inv → step s = .next t → t.Inv

/-- From 10_state R27 for `DIV`, `CPOL` and `CPHA`: constants that no step changes, and `DIV` is at least 1. That the other parameters
stay as well is the model's choice (entry 2), and so is that the inputs from outside stand in lists that no step changes (entries
3, 4 and 19). -/
def Obligations.NoStepChangesTheParameters : Prop :=
  ∀ s t : State, step s = .next t → t.params = s.params ∧ 1 ≤ t.params.div ∧ t.env = s.env

/-- From 10_state R37 and 43_host_sequences R181: whatever happens to an operation that ends in a next state, a reset included, the
host's configuration is what the operation leaves in it, so only a mutator with a legal value changes it. That the change of a
mutator stays when `rst` cuts it short is the model's choice (entry 17). -/
def Obligations.OnlyMutatorsChangeTheConfiguration : Prop :=
  ∀ (i : Instr) (s t : State), exec i s = .next t → t.host.cfg = cfgAfter s.host.cfg i

/-- From 43_host_sequences R176 and R177: `dev_ready` becomes true only at the end of a RESET_SEQ, `primed` becomes true only where a
READ, or the READ of an accepted mutator, completes and `dev_ready` held before, a RESET_SEQ leaves `primed` false, and any
`rst` clears `dev_ready` (in the same edge: entry 16). What a 0xFFFF frame outside RESET_SEQ, or another requester's frame inside
one, leaves of the two is the model's choice (entries 33 and 34). -/
def Obligations.ReadinessComesOnlyFromItsOperations : Prop :=
  (∀ (i : Instr) (s t : State), exec i s = .next t →
    (t.host.devReady = true → s.host.devReady = true ∨ (i = .resetSeq ∧ t.host.result = .completed)) ∧
      (t.host.primed = true → s.host.primed = true ∨
        (holdsRead i = true ∧ s.host.devReady = true ∧
          ((∃ v accurate, t.host.result = .sample v accurate) ∨ t.host.result = .accepted))) ∧
      (i = .resetSeq → t.host.primed = false ∧ (t.host.result ≠ .completed → t.host.devReady = false))) ∧
    ∀ s : State, s.rst = true → s.tick.host.devReady = false

/-! ### Cut short by a reset: the other host operations; a request kept up -/

/-- From 70_reset_and_hazards R222: the first `rst` in any cycle of a RESET_SEQ, its waits included, abandons it: its remaining frames
are not sent, `dev_ready` and `primed` are false, the configuration stays. That it ends at the very edge of the reset and its request
is withdrawn is the model's choice (entry 17); the device is entry 15. -/
def Obligations.ResetAbandonsAResetSeq : Prop :=
  ∀ (s : State) (k : Nat), s.Ready → FirstRst s k s.resetSeqCycles →
    let s2 := (s.afterFrame (.raw 0xFFFF)).afterDelay s.params.settle
    let s4 := (s2.afterFrame (.raw 0xFFFF)).afterDelay s.params.settle
    ∃ t, exec .resetSeq s = .next t ∧ Abandoned s t k ∧ t.host.primed = false ∧ t.host.cfg = s.host.cfg ∧
      frameCount t.log =
        frameCount s.log + sentBefore s.acceptEdge k + sentBefore s2.acceptEdge k + sentBefore s4.acceptEdge k

/-- From 70_reset_and_hazards R222: the first `rst` in any cycle of a DELAY abandons it; no frame was cut, `primed` and the
configuration stay (entries 15, 16 and 17 as for the others). -/
def Obligations.ResetAbandonsADelay : Prop :=
  ∀ (s : State) (n k : Nat), s.Ready → FirstRst s k (n * s.params.delayUnit) →
    ∃ t, exec (.delay n) s = .next t ∧ Abandoned s t k ∧ t.host.primed = s.host.primed ∧ t.host.cfg = s.host.cfg ∧
      t.log = .reset k false :: .delay s.cycle n :: s.log

/-- From 70_reset_and_hazards R222: the first `rst` in any cycle of an accepted mutator abandons it, its remaining frames are not sent,
and it returns no result. That its change of the configuration stays is the model's choice (entry 17), and so is that `primed`
stays (entry 16); the device is entry 15. -/
def Obligations.ResetAbandonsAMutator : Prop :=
  ∀ (s : State) (v : Int) (k : Nat), s.Ready →
    let c := s.host.cfg
    (0 ≤ v → v ≤ 1 → TakesUntilRst (.setSeq v) { c with seq := BitVec.ofInt 1 v } s k) ∧
    (0 ≤ v → v ≤ 3 → TakesUntilRst (.setPm v) { c with pm := BitVec.ofInt 2 v } s k) ∧
    (0 ≤ v → v ≤ 1 → TakesUntilRst (.setShadow v) { c with shadow := BitVec.ofInt 1 v } s k) ∧
    (0 ≤ v → v ≤ 1 → TakesUntilRst (.setWeak v) { c with weak := BitVec.ofInt 1 v } s k) ∧
    (0 ≤ v → v ≤ 1 → TakesUntilRst (.setRange v) { c with range := BitVec.ofInt 1 v } s k) ∧
    (0 ≤ v → v ≤ 1 → TakesUntilRst (.setCoding v) { c with coding := BitVec.ofInt 1 v } s k)

/-- From 60_exceptions R205 (U15) and 95_test_vectors P5: a host that has no operation to run and keeps `req_valid` up after an idle
block accepted its request is at fault from the next cycle on, however many edges pass without a reset. That nothing queued means
no operation that could own the request is entry 18. -/
def Obligations.RequestKeptUpFaults : Prop :=
  ∀ (s : State) (n : Nat), s.host.prog = [] → s.ports.reqValid = true → s.wasReset = true → s.blk.fsm = .idle →
    s.noRstFor (n + 1) →
    s.tick.log = .accept s.cycle s.ports.frameWord :: s.log ∧ s.tick.csN = false ∧
      step (State.ticks (n + 1) s) = .fault .duplicateRequest

end
end

