-- ==== Sys2Proof/Laws/State.lean ====
section
/-! SUPPORT. One lemma per field per update of the state, and what one clk edge does to each field. -/

namespace Sys2Proof.Machine

/-! ### Ports -/

@[simp] theorem Ports.offering_valid (p : Ports) (r : Request) : (p.offering r).reqValid = true := by cases r <;> rfl

@[simp] theorem Ports.offering_frameWord (p : Ports) (r : Request) : (p.offering r).frameWord = requestWord r := by
  cases r <;> rfl

@[simp] theorem Ports.frameWord_setValid (p : Ports) (v : Bool) :
    ({ p with reqValid := v } : Ports).frameWord = p.frameWord := rfl

/-! ### Updates on the host's side -/

@[simp] theorem State.drive_params (s : State) (r : Request) : (s.drive r).params = s.params := rfl
@[simp] theorem State.drive_blk (s : State) (r : Request) : (s.drive r).blk = s.blk := rfl
@[simp] theorem State.drive_ports (s : State) (r : Request) : (s.drive r).ports = s.ports.offering r := rfl
@[simp] theorem State.drive_host (s : State) (r : Request) : (s.drive r).host = s.host := rfl
@[simp] theorem State.drive_dev (s : State) (r : Request) : (s.drive r).dev = s.dev := rfl
@[simp] theorem State.drive_env (s : State) (r : Request) : (s.drive r).env = s.env := rfl
@[simp] theorem State.drive_wasReset (s : State) (r : Request) : (s.drive r).wasReset = s.wasReset := rfl
@[simp] theorem State.drive_cycle (s : State) (r : Request) : (s.drive r).cycle = s.cycle := rfl
@[simp] theorem State.drive_log (s : State) (r : Request) : (s.drive r).log = s.log := rfl

@[simp] theorem State.dropRequest_params (s : State) : s.dropRequest.params = s.params := rfl
@[simp] theorem State.dropRequest_blk (s : State) : s.dropRequest.blk = s.blk := rfl
@[simp] theorem State.dropRequest_ports (s : State) : s.dropRequest.ports = { s.ports with reqValid := false } := rfl
@[simp] theorem State.dropRequest_host (s : State) : s.dropRequest.host = s.host := rfl
@[simp] theorem State.dropRequest_dev (s : State) : s.dropRequest.dev = s.dev := rfl
@[simp] theorem State.dropRequest_env (s : State) : s.dropRequest.env = s.env := rfl
@[simp] theorem State.dropRequest_wasReset (s : State) : s.dropRequest.wasReset = s.wasReset := rfl
@[simp] theorem State.dropRequest_cycle (s : State) : s.dropRequest.cycle = s.cycle := rfl
@[simp] theorem State.dropRequest_log (s : State) : s.dropRequest.log = s.log := rfl

@[simp] theorem State.setResult_params (s : State) (r : Result) : (s.setResult r).params = s.params := rfl
@[simp] theorem State.setResult_blk (s : State) (r : Result) : (s.setResult r).blk = s.blk := rfl
@[simp] theorem State.setResult_ports (s : State) (r : Result) : (s.setResult r).ports = s.ports := rfl
@[simp] theorem State.setResult_cfg (s : State) (r : Result) : (s.setResult r).host.cfg = s.host.cfg := rfl
@[simp] theorem State.setResult_devReady (s : State) (r : Result) : (s.setResult r).host.devReady = s.host.devReady := rfl
@[simp] theorem State.setResult_primed (s : State) (r : Result) : (s.setResult r).host.primed = s.host.primed := rfl
@[simp] theorem State.setResult_prog (s : State) (r : Result) : (s.setResult r).host.prog = s.host.prog := rfl
@[simp] theorem State.setResult_pauses (s : State) (r : Result) : (s.setResult r).host.pauses = s.host.pauses := rfl
@[simp] theorem State.setResult_result (s : State) (r : Result) : (s.setResult r).host.result = r := rfl
@[simp] theorem State.setResult_dev (s : State) (r : Result) : (s.setResult r).dev = s.dev := rfl
@[simp] theorem State.setResult_env (s : State) (r : Result) : (s.setResult r).env = s.env := rfl
@[simp] theorem State.setResult_wasReset (s : State) (r : Result) : (s.setResult r).wasReset = s.wasReset := rfl
@[simp] theorem State.setResult_cycle (s : State) (r : Result) : (s.setResult r).cycle = s.cycle := rfl
@[simp] theorem State.setResult_log (s : State) (r : Result) : (s.setResult r).log = s.log := rfl

@[simp] theorem State.popPause_params (s : State) : s.popPause.params = s.params := rfl
@[simp] theorem State.popPause_blk (s : State) : s.popPause.blk = s.blk := rfl
@[simp] theorem State.popPause_ports (s : State) : s.popPause.ports = s.ports := rfl
@[simp] theorem State.popPause_host (s : State) : s.popPause.host = { s.host with pauses := s.host.pauses.tail } := rfl
@[simp] theorem State.popPause_dev (s : State) : s.popPause.dev = s.dev := rfl
@[simp] theorem State.popPause_env (s : State) : s.popPause.env = s.env := rfl
@[simp] theorem State.popPause_wasReset (s : State) : s.popPause.wasReset = s.wasReset := rfl
@[simp] theorem State.popPause_cycle (s : State) : s.popPause.cycle = s.cycle := rfl
@[simp] theorem State.popPause_log (s : State) : s.popPause.log = s.log := rfl

@[simp] theorem State.setCfgField_blk (s : State) (f : Field) (v : Int) : (s.setCfgField f v).blk = s.blk := rfl
@[simp] theorem State.setCfgField_ports (s : State) (f : Field) (v : Int) : (s.setCfgField f v).ports = s.ports := rfl
@[simp] theorem State.setCfgField_params (s : State) (f : Field) (v : Int) : (s.setCfgField f v).params = s.params := rfl
@[simp] theorem State.setCfgField_cfg (s : State) (f : Field) (v : Int) :
    (s.setCfgField f v).host.cfg = setField f v s.host.cfg := rfl
@[simp] theorem State.setCfgField_env (s : State) (f : Field) (v : Int) : (s.setCfgField f v).env = s.env := rfl
@[simp] theorem State.setCfgField_cycle (s : State) (f : Field) (v : Int) : (s.setCfgField f v).cycle = s.cycle := rfl
@[simp] theorem State.setCfgField_log (s : State) (f : Field) (v : Int) : (s.setCfgField f v).log = s.log := rfl

@[simp] theorem State.clearReady_blk (s : State) : s.clearReady.blk = s.blk := rfl
@[simp] theorem State.clearReady_ports (s : State) : s.clearReady.ports = s.ports := rfl
@[simp] theorem State.clearReady_params (s : State) : s.clearReady.params = s.params := rfl
@[simp] theorem State.clearReady_cfg (s : State) : s.clearReady.host.cfg = s.host.cfg := rfl
@[simp] theorem State.clearReady_devReady (s : State) : s.clearReady.host.devReady = false := rfl
@[simp] theorem State.clearReady_primed (s : State) : s.clearReady.host.primed = false := rfl
@[simp] theorem State.clearReady_env (s : State) : s.clearReady.env = s.env := rfl
@[simp] theorem State.clearReady_cycle (s : State) : s.clearReady.cycle = s.cycle := rfl
@[simp] theorem State.clearReady_log (s : State) : s.clearReady.log = s.log := rfl

@[simp] theorem State.setReady_blk (s : State) : s.setReady.blk = s.blk := rfl
@[simp] theorem State.setReady_params (s : State) : s.setReady.params = s.params := rfl
@[simp] theorem State.setReady_cfg (s : State) : s.setReady.host.cfg = s.host.cfg := rfl
@[simp] theorem State.setReady_devReady (s : State) : s.setReady.host.devReady = true := rfl
@[simp] theorem State.setReady_primed (s : State) : s.setReady.host.primed = s.host.primed := rfl
@[simp] theorem State.setReady_log (s : State) : s.setReady.log = s.log := rfl

@[simp] theorem State.markPrimed_blk (s : State) : s.markPrimed.blk = s.blk := rfl
@[simp] theorem State.markPrimed_params (s : State) : s.markPrimed.params = s.params := rfl
@[simp] theorem State.markPrimed_cfg (s : State) : s.markPrimed.host.cfg = s.host.cfg := rfl
@[simp] theorem State.markPrimed_devReady (s : State) : s.markPrimed.host.devReady = s.host.devReady := rfl
@[simp] theorem State.markPrimed_primed (s : State) : s.markPrimed.host.primed = (s.host.primed || s.host.devReady) := rfl
@[simp] theorem State.markPrimed_log (s : State) : s.markPrimed.log = s.log := rfl

@[simp] theorem State.takeRecord_blk (s : State) : s.takeRecord.blk = s.blk := rfl
@[simp] theorem State.takeRecord_params (s : State) : s.takeRecord.params = s.params := rfl
@[simp] theorem State.takeRecord_prog (s : State) : s.takeRecord.host.prog = s.host.prog.tail := rfl
@[simp] theorem State.withRecord_prog (s : State) (r : Record) : (s.withRecord r).host.prog = r :: s.host.prog := rfl
@[simp] theorem State.nextRecord_withRecord (s : State) (r : Record) : (s.withRecord r).nextRecord = some r := rfl
@[simp] theorem State.takeRecord_withRecord (s : State) (r : Record) : (s.withRecord r).takeRecord = s := rfl

/-! ### One clk edge -/

@[simp] theorem State.tick_params (s : State) : s.tick.params = s.params := by unfold State.tick; split <;> rfl
@[simp] theorem State.tick_ports (s : State) : s.tick.ports = s.ports := by unfold State.tick; split <;> rfl
@[simp] theorem State.tick_env (s : State) : s.tick.env = s.env := by unfold State.tick; split <;> rfl
@[simp] theorem State.tick_cycle (s : State) : s.tick.cycle = s.cycle + 1 := by unfold State.tick; split <;> rfl

@[simp] theorem State.tick_wasReset (s : State) : s.tick.wasReset = (s.wasReset || s.rst) := by
  unfold State.tick
  split <;> simp_all

/-- A clk edge leaves the host alone, but that a reset clears `dev_ready`. -/
@[simp] theorem State.tick_host (s : State) :
    s.tick.host = { s.host with devReady := s.host.devReady && !s.rst } := by
  unfold State.tick
  split
  · rfl
  · have : s.rst = false := by simp_all
    simp [this]

/-- One clk edge of a block that has been reset, with `rst = 0`. -/
theorem State.tick_run (s : State) (hw : s.wasReset = true) (hr : s.rst = false) :
    s.tick =
      { s with
        blk := s.blk.edge s.params s.inputs
        dev := s.dev.edge s.params s.blk s.inputs s.log s.cycle
        log := recordEvents s.params s.blk s.inputs true s.cycle s.log
        cycle := s.cycle + 1 } := by
  simp [State.tick, hw, hr]

/-- One clk edge with `rst = 1`, whatever the state (70_reset_and_hazards R220). -/
theorem State.tick_rst (s : State) (hr : s.rst = true) :
    s.tick =
      { s with
        blk := .resetValue s.params
        dev := .unknown s.log s.cycle
        host := { s.host with devReady := false }
        log := .reset s.cycle (s.wasReset && decide (s.blk.fsm = .active)) :: s.log
        wasReset := true
        cycle := s.cycle + 1 } := by
  simp [State.tick, hr, Block.edge, Device.edge, recordEvents, State.inputs]

theorem State.rst_false_of (s : State) {n : Nat} (h : s.noRstFor n) (hn : 0 < n) : s.rst = false := by
  simp only [State.rst, decide_eq_false_iff_not]
  intro hm
  rcases h _ hm with h | h <;> omega

theorem State.rival_none_of (s : State) {n : Nat} (h : s.noRivalFor n) (hn : 0 < n) : s.rival = none := by
  simp only [State.rival, Option.map_eq_none_iff, List.find?_eq_none]
  intro r hr
  have := h r hr
  simp only [beq_iff_eq]
  omega

theorem State.noRstFor_tick {s : State} {n : Nat} (h : s.noRstFor (n + 1)) : s.tick.noRstFor n := by
  intro k hk
  have := h k (by simpa using hk)
  simp only [State.tick_cycle]
  omega

theorem State.noRivalFor_tick {s : State} {n : Nat} (h : s.noRivalFor (n + 1)) : s.tick.noRivalFor n := by
  intro r hr
  have := h r (by simpa using hr)
  simp only [State.tick_cycle]
  omega

/-! ### Many clk edges -/

@[simp] theorem State.ticks_zero (s : State) : State.ticks 0 s = s := rfl
theorem State.ticks_succ (n : Nat) (s : State) : State.ticks (n + 1) s = State.ticks n s.tick := rfl

theorem State.ticks_succ_last (n : Nat) (s : State) : State.ticks (n + 1) s = (State.ticks n s).tick := by
  induction n generalizing s with
  | zero => rfl
  | succ n ih => rw [State.ticks_succ, ih, ← State.ticks_succ]

theorem State.ticks_add (m n : Nat) (s : State) : State.ticks (m + n) s = State.ticks n (State.ticks m s) := by
  induction m generalizing s with
  | zero => simp
  | succ m ih => rw [Nat.succ_add, State.ticks_succ, ih, ← State.ticks_succ]

@[simp] theorem State.ticks_params (n : Nat) (s : State) : (State.ticks n s).params = s.params := by
  induction n generalizing s with
  | zero => rfl
  | succ n ih => rw [State.ticks_succ, ih, State.tick_params]

@[simp] theorem State.ticks_env (n : Nat) (s : State) : (State.ticks n s).env = s.env := by
  induction n generalizing s with
  | zero => rfl
  | succ n ih => rw [State.ticks_succ, ih, State.tick_env]

@[simp] theorem State.ticks_ports (n : Nat) (s : State) : (State.ticks n s).ports = s.ports := by
  induction n generalizing s with
  | zero => rfl
  | succ n ih => rw [State.ticks_succ, ih, State.tick_ports]

@[simp] theorem State.ticks_cycle (n : Nat) (s : State) : (State.ticks n s).cycle = s.cycle + n := by
  induction n generalizing s with
  | zero => rfl
  | succ n ih => rw [State.ticks_succ, ih, State.tick_cycle]; omega

theorem State.noRstFor_ticks {s : State} {m n : Nat} (h : s.noRstFor (m + n)) : (State.ticks m s).noRstFor n := by
  intro k hk
  have := h k (by simpa using hk)
  simp only [State.ticks_cycle]
  omega

theorem State.noRivalFor_ticks {s : State} {m n : Nat} (h : s.noRivalFor (m + n)) : (State.ticks m s).noRivalFor n := by
  intro r hr
  have := h r (by simpa using hr)
  simp only [State.ticks_cycle]
  omega

theorem State.noRstFor_mono {s : State} {m n : Nat} (h : s.noRstFor n) (hmn : m ≤ n) : s.noRstFor m := by
  intro k hk
  have := h k hk
  omega

theorem State.noRivalFor_mono {s : State} {m n : Nat} (h : s.noRivalFor n) (hmn : m ≤ n) : s.noRivalFor m := by
  intro r hr
  have := h r hr
  omega

/-! ### Starting an operation -/

theorem State.startFault_eq_none (s : State) :
    s.startFault = none ↔ s.ports.reqValid = false ∧ (s.wasReset = true → s.blk.fsm ≠ .active) := by
  unfold State.startFault
  split
  · simp_all
  · split <;> simp_all

end Sys2Proof.Machine
end

