-- ==== Sys2Proof/Laws/Frame.lean ====
section
/-! SUPPORT. A frame edge by edge: the block `m` clk edges after an acceptance, and what a host operation's pieces come
to when nothing disturbs them. -/

namespace Sys2Proof.Machine

/-! ### Counting half-periods -/

theorem div_mod_succ_within {m d : Nat} (hd : 0 < d) (h : m % d ≠ d - 1) :
    (m + 1) / d = m / d ∧ (m + 1) % d = m % d + 1 := by
  have hlt := Nat.mod_lt m hd
  have := (Nat.div_mod_unique hd (a := m + 1) (c := m % d + 1) (d := m / d)).2
    ⟨by have := Nat.mod_add_div m d; omega, by omega⟩
  exact this

theorem div_mod_succ_tick {m d : Nat} (hd : 0 < d) (h : m % d = d - 1) :
    (m + 1) / d = m / d + 1 ∧ (m + 1) % d = 0 := by
  have := (Nat.div_mod_unique hd (a := m + 1) (c := 0) (d := m / d + 1)).2
    ⟨by have := Nat.mod_add_div m d; rw [Nat.mul_add]; omega, hd⟩
  exact this

theorem div_pos (p : Params) : 0 < p.div := Nat.succ_pos _

/-! ### The block in a frame -/

/-- Bits sampled once SCLK edges 0 to e−1 have happened (41_transactor R137). -/
def samplesBefore (p : Params) (e : Nat) : Nat := if p.cpha then e / 2 else (e + 1) / 2

/-- Bits shifted out once SCLK edges 0 to e−1 have happened (41_transactor R135, R136). -/
def shiftsBefore (p : Params) (e : Nat) : Nat := if p.cpha then (e + 1) / 2 else e / 2

/-- `mosi` once SCLK edges 0 to e−1 have happened: 0, or a bit of the frame's word. -/
def mosiBefore (p : Params) (w : Word16) (e : Nat) : Bool :=
  if p.cpha then !decide (e = 0) && w.getMsbD ((e - 1) / 2) else w.getMsbD (e / 2)

/-- `tx_sr` once SCLK edges 0 to e−1 have happened. -/
def txBefore (p : Params) (w : Word16) (e : Nat) : Word16 :=
  (if p.cpha then w else w <<< 1) <<< shiftsBefore p e

/-- The block `m` clk edges after the acceptance of a frame with word `w`, `f i` the level sampled for bit `15−i`, `old` the last
response. -/
def Block.inFrame (p : Params) (w : Word16) (f : Nat → Bool) (old : Word16) (m : Nat) : Block where
  fsm := .active
  divCnt := m % p.div
  ph := m / p.div
  txSr := txBefore p w (m / p.div)
  rxSr := bitsReceived f (samplesBefore p (m / p.div))
  rspWordQ := old
  rspValidQ := false
  csNQ := false
  sclkQ := p.cpol ^^ decide (m / p.div % 2 = 1)
  mosiQ := mosiBefore p w (m / p.div)

theorem txBefore_top (p : Params) (w : Word16) (e : Nat) (he : e ≤ 31) :
    (txBefore p w e).getLsbD 15 = w.getMsbD (if p.cpha then (e + 1) / 2 else e / 2 + 1) := by
  unfold txBefore shiftsBefore
  cases p.cpha
  · simp only [BitVec.getMsbD_eq_getLsbD, Bool.false_eq_true, if_false, BitVec.getLsbD_shiftLeft]
    by_cases h : e / 2 + 1 < 16
    · have h1 : ¬ (15 < e / 2) := by omega
      have h2 : ¬ (15 - e / 2 < 1) := by omega
      have h3 : 15 - e / 2 - 1 = 16 - 1 - (e / 2 + 1) := by omega
      have h4 : 15 - e / 2 < 16 := by omega
      simp [h, h1, h2, h3, h4]
    · have h2 : 15 - e / 2 < 1 := by omega
      simp [h, h2]
  · simp only [BitVec.getMsbD_eq_getLsbD, if_true, BitVec.getLsbD_shiftLeft]
    by_cases h : (e + 1) / 2 < 16
    · have h1 : ¬ (15 < (e + 1) / 2) := by omega
      simp [h, h1]
    · have h1 : 15 < (e + 1) / 2 := by omega
      simp [h, h1]

theorem shift_again (w : Word16) (n : Nat) : (w <<< n) <<< 1 = w <<< (n + 1) := by
  rw [BitVec.shiftLeft_add]

/-- One clk edge inside a frame. -/
theorem Block.edge_inFrame (p : Params) (w : Word16) (f : Nat → Bool) (old : Word16) (m : Nat) (i : Inputs)
    (hr : i.rst = false) (hm : m + 1 < 33 * p.div)
    (hs : ∀ n, m % p.div = p.div - 1 → m / p.div = 2 * n + p.phase → i.miso = f n) :
    (Block.inFrame p w f old m).edge p i = Block.inFrame p w f old (m + 1) := by
  have hd := div_pos p
  simp only [Block.edge, hr, Bool.false_eq_true, if_false]
  simp only [Block.activeEdge, Block.inFrame]
  by_cases ht : m % p.div = p.div - 1
  · obtain ⟨e1, e2⟩ := div_mod_succ_tick hd ht
    have hle : m / p.div ≤ 31 := by
      have h3 : (m + 1) / p.div < 33 := by rw [Nat.div_lt_iff_lt_mul hd]; omega
      omega
    simp only [ht, ne_eq, not_true_eq_false, if_false, hle, if_true, e1, e2]
    have hs' := fun n => hs n ht
    have htop := txBefore_top p w (m / p.div) hle
    generalize m / p.div = e at *
    unfold Block.sclkEdge
    rcases Nat.even_or_odd' e with ⟨c, rfl | rfl⟩
    all_goals cases hc : p.cpha
    all_goals simp only [hc, Params.phase, Bool.toNat_true, Bool.toNat_false, Bool.false_eq_true, if_false, if_true] at hs' htop
    · -- a leading edge that samples
      have hi := hs' c (by omega)
      have h2 : (2 * c + 1 + 1) / 2 = c + 1 := by omega
      have h1 : (2 * c + 1) / 2 = c := by omega
      have h0 : 2 * c / 2 = c := by omega
      have hm1 : (2 * c + 1) % 2 = 1 := by omega
      simp [hc, h0, h1, h2, hm1, hi, samplesBefore, txBefore, shiftsBefore, mosiBefore, bitsReceived, Nat.mul_mod_right]
    · -- a leading edge that shifts
      have h1 : (2 * c + 1) / 2 = c := by omega
      have h2 : (2 * c + 1 + 1) / 2 = c + 1 := by omega
      have h0 : 2 * c / 2 = c := by omega
      have hm1 : (2 * c + 1) % 2 = 1 := by omega
      rw [h1] at htop
      simp [hc, h0, h1, h2, hm1, samplesBefore, txBefore, shiftsBefore, mosiBefore, shift_again, Nat.mul_mod_right] at htop ⊢
      exact htop
    · -- a trailing edge that shifts
      have h1 : (2 * c + 1) / 2 = c := by omega
      have h2 : (2 * c + 1 + 1) / 2 = c + 1 := by omega
      have h3 : (2 * c + 1 + 1 + 1) / 2 = c + 1 := by omega
      have hm1 : (2 * c + 1) % 2 = 1 := by omega
      have hm2 : (2 * c + 1 + 1) % 2 = 0 := by omega
      rw [h1] at htop
      simp [hc, h1, h2, h3, hm1, hm2, samplesBefore, txBefore, shiftsBefore, mosiBefore, shift_again] at htop ⊢
      exact htop
    · -- a trailing edge that samples
      have hi := hs' c (by omega)
      have h1 : (2 * c + 1) / 2 = c := by omega
      have h2 : (2 * c + 1 + 1) / 2 = c + 1 := by omega
      have h3 : (2 * c + 1 + 1 + 1) / 2 = c + 1 := by omega
      have h0 : 2 * c / 2 = c := by omega
      have hm1 : (2 * c + 1) % 2 = 1 := by omega
      have hm2 : (2 * c + 1 + 1) % 2 = 0 := by omega
      simp [hc, h0, h1, h2, h3, hm1, hm2, hi, samplesBefore, txBefore, shiftsBefore, mosiBefore, bitsReceived]
  · obtain ⟨e1, e2⟩ := div_mod_succ_within hd ht
    simp [ht, e1, e2]

/-- The last clk edge of a frame is its completion (41_transactor R142). -/
theorem Block.edge_inFrame_last (p : Params) (w : Word16) (f : Nat → Bool) (old : Word16) (i : Inputs) (hr : i.rst = false) :
    (Block.inFrame p w f old (33 * p.div - 1)).edge p i = Block.completed p (bitsReceived f 16) := by
  have hd := div_pos p
  have hq : (33 * p.div - 1) / p.div = 32 ∧ (33 * p.div - 1) % p.div = p.div - 1 :=
    (Nat.div_mod_unique hd).2 ⟨by omega, by omega⟩
  have htx : txBefore p w 32 = 0 := by
    unfold txBefore shiftsBefore
    cases p.cpha
    · simp only [Bool.false_eq_true, if_false]
      rw [← BitVec.shiftLeft_add]
      exact BitVec.shiftLeft_eq_zero (by decide)
    · exact BitVec.shiftLeft_eq_zero (by decide)
  have hrx : samplesBefore p 32 = 16 := by unfold samplesBefore; cases p.cpha <;> rfl
  simp [Block.edge, hr, Block.activeEdge, Block.inFrame, Block.completeEdge, Block.completed, hq.1, hq.2, htx, hrx]

/-! ### The machine in a frame -/

/-- A machine whose frame with word `w` was accepted at edge `k0`, in the cycle after it. -/
structure State.Accepted (s : State) (k0 : Nat) (w : Word16) (old : Word16) : Prop where
  reset : s.wasReset = true
  cycle : s.cycle = k0 + 1
  log : ∃ earlier, s.log = .accept k0 w :: earlier
  blk : s.blk = Block.inFrame s.params w (fun i => misoLevel s.env s.log (sampleEdgeAt s.params k0 i)) old 0

theorem recordEvents_quiet {p : Params} {b : Block} {i : Inputs} {k : Nat} {log : List Event} (hr : i.rst = false)
    (ha : b.accepts i = false) (hc : b.completes p i = false) : recordEvents p b i true k log = log := by
  simp [recordEvents, hr, ha, hc]

theorem Device.edge_quiet {d : Device} {p : Params} {b : Block} {i : Inputs} {k : Nat} {log : List Event} (hr : i.rst = false)
    (hc : b.completes p i = false) : d.edge p b i log k = d := by
  simp [Device.edge, hr, hc]

/-- One clk edge that completes a frame (41_transactor R142). -/
theorem State.tick_complete (s : State) (hw : s.wasReset = true) (hr : s.rst = false) (hf : s.blk.fsm = .active)
    (hd : s.blk.divCnt = s.params.div - 1) (hp : 31 < s.blk.ph) {w : Word16} (ho : openWord s.log = some w) :
    s.tick =
      { s with
        blk := s.blk.edge s.params s.inputs
        dev := s.dev.afterFrame w s.log s.cycle
        log := .complete s.cycle s.blk.rxSr :: s.log
        cycle := s.cycle + 1 } := by
  have hri : s.inputs.rst = false := hr
  rw [State.tick_run s hw hr]
  simp [Device.edge, recordEvents, Block.accepts, Block.completes, Block.reqReady, hri, hf, hd, hp, ho]

/-- `m` clk edges after the acceptance, before the completion: only the block moves on. -/
theorem State.Accepted.ticks {a : State} {k0 : Nat} {w old : Word16} (h : a.Accepted k0 w old) :
    ∀ m, m < 33 * a.params.div → a.noRstFor m →
      State.ticks m a =
        { a with
          blk := Block.inFrame a.params w (fun i => misoLevel a.env a.log (sampleEdgeAt a.params k0 i)) old m
          cycle := k0 + 1 + m } := by
  intro m
  induction m with
  | zero =>
    intro _ _
    rw [State.ticks_zero, Nat.add_zero, ← h.blk, ← h.cycle]
  | succ m ih =>
    intro hm hn
    have hd := div_pos a.params
    rw [State.ticks_succ_last]
    have hr : (State.ticks m a).rst = false := State.rst_false_of _ (State.noRstFor_ticks (m := m) (n := 1) hn) (by omega)
    rw [ih (by omega) (State.noRstFor_mono hn (by omega))] at hr ⊢
    rw [State.tick_run _ (by exact h.reset) hr]
    have hac : ∀ i : Inputs, (Block.inFrame a.params w (fun i => misoLevel a.env a.log (sampleEdgeAt a.params k0 i)) old m).accepts i
        = false := by
      intro i; simp [Block.accepts, Block.reqReady, Block.inFrame]
    have hcm : ∀ i : Inputs, (Block.inFrame a.params w (fun i => misoLevel a.env a.log (sampleEdgeAt a.params k0 i)) old m).completes
        a.params i = false := by
      intro i
      have h31 : m % a.params.div = a.params.div - 1 → ¬ 31 < m / a.params.div := by
        intro ht
        obtain ⟨e1, -⟩ := div_mod_succ_tick hd ht
        have h3 : (m + 1) / a.params.div < 33 := by rw [Nat.div_lt_iff_lt_mul hd]; omega
        omega
      by_cases ht : m % a.params.div = a.params.div - 1
      · simp [Block.completes, Block.inFrame, h31 ht]
      · simp [Block.completes, Block.inFrame, ht]
    simp only
    rw [Block.edge_inFrame a.params w _ old m _ hr hm, Device.edge_quiet hr (hcm _), recordEvents_quiet hr (hac _) (hcm _)]
    · rfl
    · intro n h1 h2
      have hkey : sampleEdgeAt a.params k0 n = k0 + 1 + m := by
        have := Nat.mod_add_div m a.params.div
        rw [h1, h2] at this
        simp only [sampleEdgeAt, sclkEdgeAt]
        rw [Nat.add_mul, Nat.mul_comm (2 * n + a.params.phase), Nat.one_mul]
        omega
      simp only [State.inputs, State.miso, hkey]

/-- The completion: `33·DIV` clk edges after the acceptance (41_transactor R140, R142). -/
theorem State.Accepted.ticks_complete {a : State} {k0 : Nat} {w old : Word16} (h : a.Accepted k0 w old)
    (hn : a.noRstFor (33 * a.params.div)) :
    State.ticks (33 * a.params.div) a =
      { a with
        blk := .completed a.params (responseAt a.params a.env a.log k0)
        dev := a.dev.afterFrame w a.log (completeEdgeAt a.params k0)
        cycle := completeEdgeAt a.params k0 + 1
        log := .complete (completeEdgeAt a.params k0) (responseAt a.params a.env a.log k0) :: a.log } := by
  have hd := div_pos a.params
  obtain ⟨earlier, hl⟩ := h.log
  have hsplit : 33 * a.params.div = (33 * a.params.div - 1) + 1 := by omega
  have hr : (State.ticks (33 * a.params.div - 1) a).rst = false :=
    State.rst_false_of _ (State.noRstFor_ticks (m := 33 * a.params.div - 1) (n := 1) (by rw [← hsplit]; exact hn)) (by omega)
  have hq : (33 * a.params.div - 1) / a.params.div = 32 ∧ (33 * a.params.div - 1) % a.params.div = a.params.div - 1 :=
    (Nat.div_mod_unique hd).2 ⟨by omega, by omega⟩
  rw [hsplit, State.ticks_succ_last]
  rw [h.ticks (33 * a.params.div - 1) (by omega) (State.noRstFor_mono hn (by omega))] at hr ⊢
  have hk : k0 + 1 + (33 * a.params.div - 1) = completeEdgeAt a.params k0 := by unfold completeEdgeAt; omega
  have hrx : samplesBefore a.params 32 = 16 := by unfold samplesBefore; cases a.params.cpha <;> rfl
  rw [State.tick_complete _ (by exact h.reset) hr (by simp [Block.inFrame]) (by simp [Block.inFrame, hq.2])
    (by simp [Block.inFrame, hq.1]) (w := w) (by simp [hl, openWord])]
  simp only
  rw [Block.edge_inFrame_last a.params w _ old _ hr, hk]
  simp only [Block.inFrame, hq.1, hrx, responseAt]

/-- The host's wait for the response of an accepted frame (43_host_sequences R178 step 5). -/
theorem awaitRsp_of_ticks {s : State} (n : Nat) (hn : s.noRstFor (n + 1))
    (hbusy : ∀ j, j < n → (State.ticks (j + 1) s).blk.rspValidQ = false)
    (hdone : (State.ticks (n + 1) s).blk.rspValidQ = true) :
    awaitRsp (n + 1) s = .done (State.ticks (n + 1) s).blk.rspWordQ (State.ticks (n + 1) s) := by
  induction n generalizing s with
  | zero =>
    have hr := State.rst_false_of s hn (by omega)
    simp only [Nat.zero_add, State.ticks_succ, State.ticks_zero] at hdone ⊢
    simp [awaitRsp, hr, hdone]
  | succ n ih =>
    have hr := State.rst_false_of s hn (by omega)
    have h0 := hbusy 0 (by omega)
    simp only [State.ticks_succ, State.ticks_zero] at h0
    rw [awaitRsp]
    simp only [hr, Bool.false_eq_true, if_false, h0]
    exact ih (State.noRstFor_tick hn) (fun j hj => hbusy (j + 1) (by omega)) hdone

theorem State.Accepted.awaitRsp {a : State} {k0 : Nat} {w old : Word16} (h : a.Accepted k0 w old)
    (hn : a.noRstFor (33 * a.params.div)) :
    awaitRsp (33 * a.params.div) a =
      .done (responseAt a.params a.env a.log k0)
        { a with
          blk := .completed a.params (responseAt a.params a.env a.log k0)
          dev := a.dev.afterFrame w a.log (completeEdgeAt a.params k0)
          cycle := completeEdgeAt a.params k0 + 1
          log := .complete (completeEdgeAt a.params k0) (responseAt a.params a.env a.log k0) :: a.log } := by
  have hd := div_pos a.params
  have hsplit : 33 * a.params.div = (33 * a.params.div - 1) + 1 := by omega
  have hc := h.ticks_complete hn
  have := awaitRsp_of_ticks (s := a) (33 * a.params.div - 1) (by rw [← hsplit]; exact hn)
    (by
      intro j hj
      rw [h.ticks (j + 1) (by omega) (State.noRstFor_mono hn (by omega))]
      rfl)
    (by rw [← hsplit, hc]; rfl)
  rw [← hsplit] at this
  rw [this, hc]
  rfl

/-! ### Waiting and offering -/

/-- `t` is `s` some clk edges later, with only the block moved on, outside a frame. -/
structure State.Waited (s t : State) (n : Nat) : Prop where
  same : t = { s with blk := t.blk, cycle := s.cycle + n }
  inv : t.blk.Inv s.params
  out : t.blk.fsm ≠ .active
  left : t.gapLeft = s.gapLeft - n
  word : t.blk.rspWordQ = s.blk.rspWordQ

theorem State.Waited.refl {s : State} (hi : s.blk.Inv s.params) (ho : s.blk.fsm ≠ .active) : s.Waited s 0 :=
  ⟨rfl, hi, ho, rfl, rfl⟩

theorem State.Waited.trans {s t u : State} {m n : Nat} (h : s.Waited t m) (h' : t.Waited u n) : s.Waited u (m + n) := by
  have hp : t.params = s.params := by rw [h.same]
  refine ⟨?_, ?_, h'.out, ?_, h'.word.trans h.word⟩
  · have e1 := h'.same
    have e2 := h.same
    rw [e2] at e1
    rw [e1]
    simp [Nat.add_assoc]
  · rw [← hp]; exact h'.inv
  · rw [h'.left, h.left]; omega

/-- One clk edge outside a frame at which no request is accepted (41_transactor R132, R144). -/
theorem State.Waited.tick {s : State} (hw : s.wasReset = true) (hr : s.rst = false) (hi : s.blk.Inv s.params)
    (ho : s.blk.fsm ≠ .active) (hq : s.blk.fsm = .idle → s.livePorts.reqValid = false) : s.Waited s.tick 1 := by
  have hri : s.inputs.rst = false := hr
  have hac : s.blk.accepts s.inputs = false := by
    cases hf : s.blk.fsm
    · have := hq hf
      simp [Block.accepts, State.inputs, this]
    · exact absurd hf ho
    · simp [Block.accepts, Block.reqReady, hf]
  have hcm : s.blk.completes s.params s.inputs = false := by simp [Block.completes, ho]
  have hedge : s.tick = { s with blk := s.blk.edge s.params s.inputs, cycle := s.cycle + 1 } := by
    rw [State.tick_run s hw hr, Device.edge_quiet hri hcm, recordEvents_quiet hri hac hcm]
  obtain ⟨i1, i2, i3, i4, i5, i6, i7, i8⟩ := hi
  have hd := div_pos s.params
  have hph := i3 ho
  refine ⟨?_, ?_, ?_, ?_, ?_⟩
  · rw [hedge]
  all_goals rw [hedge]
  all_goals simp only [Block.edge, hri, Bool.false_eq_true, if_false]
  · cases hf : s.blk.fsm
    · have hq' : s.inputs.ports.reqValid = false := hq hf
      constructor <;> simp_all [Block.idleEdge]
    · exact absurd hf ho
    · by_cases ht : s.blk.divCnt = s.params.div - 1
      · constructor <;> simp_all [Block.gapEdge]
      · constructor <;> simp_all [Block.gapEdge]
        omega
  · cases hf : s.blk.fsm
    · have hq' : s.inputs.ports.reqValid = false := hq hf
      simp [Block.idleEdge, hq', hf]
    · exact absurd hf ho
    · by_cases ht : s.blk.divCnt = s.params.div - 1 <;> simp [Block.gapEdge, ht, hf]
  · cases hf : s.blk.fsm
    · have hq' : s.inputs.ports.reqValid = false := hq hf
      simp [State.gapLeft, Block.idleEdge, hq', hf]
    · exact absurd hf ho
    · by_cases ht : s.blk.divCnt = s.params.div - 1
      · simp [State.gapLeft, Block.gapEdge, ht, hf]; omega
      · simp [State.gapLeft, Block.gapEdge, ht, hf]; omega
  · cases hf : s.blk.fsm
    · have hq' : s.inputs.ports.reqValid = false := hq hf
      simp [Block.idleEdge, hq']
    · exact absurd hf ho
    · by_cases ht : s.blk.divCnt = s.params.div - 1 <;> simp [Block.gapEdge, ht]

/-- Clk edges outside a frame with no request offered. -/
theorem State.ticks_waited (n : Nat) {s : State} (hw : s.wasReset = true) (hi : s.blk.Inv s.params)
    (ho : s.blk.fsm ≠ .active) (hp : s.ports.reqValid = false) (hn : s.noRstFor n) (hv : s.noRivalFor n) :
    s.Waited (State.ticks n s) n := by
  induction n generalizing s with
  | zero => exact .refl hi ho
  | succ n ih =>
    have h0 := State.rst_false_of s hn (by omega)
    have h1 := State.rival_none_of s hv (by omega)
    have ht := State.Waited.tick hw h0 hi ho (fun _ => by simp [State.livePorts, hp, h1])
    have := ht.trans (ih (s := s.tick) (by simp [hw]) (by simpa using ht.inv) ht.out (by simpa using hp)
      (State.noRstFor_tick hn) (State.noRivalFor_tick hv))
    rwa [Nat.add_comm] at this

/-- Idle cycles the host leaves, undisturbed. -/
theorem hostWait_undisturbed (g : Bool) (n : Nat) {s : State} (hw : s.wasReset = true) (hi : s.blk.Inv s.params)
    (ho : s.blk.fsm ≠ .active) (hp : s.ports.reqValid = false) (hn : s.noRstFor n) (hv : s.noRivalFor n) :
    ∃ t, hostWait g n s = .done () t ∧ s.Waited t n := by
  refine ⟨_, ?_, State.ticks_waited n hw hi ho hp hn hv⟩
  clear hi ho hp hw
  induction n generalizing s with
  | zero => rfl
  | succ n ih =>
    have hr := State.rst_false_of s hn (by omega)
    have hri := State.rival_none_of s hv (by omega)
    rw [hostWait]
    simp [hr, hri, ih (State.noRstFor_tick hn) (State.noRivalFor_tick hv), State.ticks_succ]

/-- The edge at which an offered request is accepted (41_transactor R131). -/
theorem State.accepted_tick {s : State} (hw : s.wasReset = true) (hr : s.rst = false) (hi : s.blk.Inv s.params)
    (hf : s.blk.fsm = .idle) (hp : s.ports.reqValid = true) :
    s.tick.Accepted s.cycle s.ports.frameWord s.blk.rspWordQ ∧
      s.tick = { s with blk := s.tick.blk, log := .accept s.cycle s.ports.frameWord :: s.log, cycle := s.cycle + 1 } := by
  have hri : s.inputs.rst = false := hr
  have hip : s.inputs.ports = s.ports := by simp [State.inputs, State.livePorts, hp]
  have hac : s.blk.accepts s.inputs = true := by simp [Block.accepts, Block.reqReady, hri, hip, hf, hp]
  have hcm : s.blk.completes s.params s.inputs = false := by simp [Block.completes, hf]
  have hedge : s.tick =
      { s with
        blk := s.blk.idleEdge s.params s.inputs
        log := .accept s.cycle s.ports.frameWord :: s.log
        cycle := s.cycle + 1 } := by
    rw [State.tick_run s hw hr, Device.edge_quiet hri hcm]
    simp [recordEvents, hri, hac, hip, Block.edge, hf]
  refine ⟨⟨?_, ?_, ?_, ?_⟩, ?_⟩
  · simp [hw]
  · simp
  · exact ⟨s.log, by rw [hedge]⟩
  · have hs := hi.sclk
    have hph := hi.ph_zero (by simp [hf])
    have hd := div_pos s.params
    rw [hph] at hs
    rw [hedge]
    cases hc : s.params.cpha <;>
      simp [Block.idleEdge, hip, hp, Block.inFrame, txBefore, shiftsBefore, samplesBefore, mosiBefore, bitsReceived, hs, hc,
        BitVec.getMsbD_eq_getLsbD]
  · rw [hedge]

/-- A request offered outside a frame, undisturbed, is accepted once the gap is over (41_transactor R126, R131). -/
theorem offer_undisturbed (g : Bool) (n : Nat) {s : State} (hw : s.wasReset = true) (hi : s.blk.Inv s.params)
    (ho : s.blk.fsm ≠ .active) (hp : s.ports.reqValid = true) (hn : s.noRstFor (s.gapLeft + 1))
    (hv : s.noRivalFor (s.gapLeft + 1)) (hfuel : s.gapLeft < n) :
    ∃ t, offer g n s = .done () t ∧
      t.Accepted (s.cycle + s.gapLeft) s.ports.frameWord t.blk.rspWordQ ∧
      t = { s with
            blk := t.blk
            ports := { s.ports with reqValid := false }
            log := .accept (s.cycle + s.gapLeft) s.ports.frameWord :: s.log
            cycle := s.cycle + s.gapLeft + 1 } := by
  induction n generalizing s with
  | zero => omega
  | succ n ih =>
    have hr := State.rst_false_of s hn (by omega)
    have hri := State.rival_none_of s hv (by omega)
    rw [offer]
    simp only [hw, hr, hri, Bool.not_true, Bool.false_eq_true, if_false, Option.isSome_none]
    cases hf : s.blk.fsm
    · obtain ⟨ha, he⟩ := State.accepted_tick hw hr hi hf hp
      have hg : s.gapLeft = 0 := by simp [State.gapLeft, hf]
      simp only [Block.reqReady, hf, decide_true, if_true, hg, Nat.add_zero]
      refine ⟨_, rfl, ?_, ?_⟩
      · have hb := ha.blk
        refine ⟨ha.reset, ha.cycle, ha.log, ?_⟩
        have h2 : s.tick.dropRequest.blk.rspWordQ = s.blk.rspWordQ := by
          rw [State.dropRequest_blk, hb]; rfl
        rw [h2]
        exact hb
      · generalize s.tick = u at he
        generalize u.blk = b at he
        subst he
        simp [State.dropRequest, hw]
    · exact absurd hf ho
    · have hlt := hi.div_lt
      have hg : s.gapLeft = s.params.div - s.blk.divCnt := by simp [State.gapLeft, hf]
      have h1 := State.Waited.tick hw hr hi ho (fun h => by simp [hf] at h)
      have hl : s.tick.gapLeft + 1 = s.gapLeft := by rw [h1.left]; omega
      simp only [Block.reqReady, hf, reduceCtorEq, decide_false, Bool.false_eq_true, if_false]
      obtain ⟨t, ht, ha, he⟩ := ih (s := s.tick) (by simp [hw]) (by simpa using h1.inv) h1.out (by simpa using hp)
        (by rw [hl]; exact State.noRstFor_tick hn)
        (by rw [hl]; exact State.noRivalFor_tick hv) (by omega)
      have hc : s.tick.cycle + s.tick.gapLeft = s.cycle + s.gapLeft := by rw [State.tick_cycle]; omega
      rw [hc] at ha he
      refine ⟨t, ht, by simpa using ha, ?_⟩
      have hsame := h1.same
      generalize s.tick = u at hsame he
      generalize u.blk = b at hsame
      subst hsame
      simpa [hw] using he

/-- Fields a wait leaves alone. -/
theorem State.Waited.fields {s t : State} {n : Nat} (h : s.Waited t n) :
    t.params = s.params ∧ t.ports = s.ports ∧ t.host = s.host ∧ t.dev = s.dev ∧ t.env = s.env ∧ t.wasReset = s.wasReset ∧
      t.log = s.log ∧ t.cycle = s.cycle + n := by
  have := h.same
  generalize hb : t.blk = b at this
  subst this
  exact ⟨rfl, rfl, rfl, rfl, rfl, rfl, rfl, rfl⟩

/-- `Xfer`, undisturbed, from any state outside a frame: exactly one frame, exactly its response (41_transactor R145). -/
theorem xfer_undisturbed (g : Bool) (r : Request) {s : State} (hs : s.Ready) (hn : s.noRstFor s.frameCycles)
    (hv : s.noRivalFor s.frameCycles) : xfer g r s = .done (s.frameResponse r) (s.afterFrame r) := by
  obtain ⟨hi, hw, hst⟩ := hs
  rw [State.startFault_eq_none] at hst
  obtain ⟨hp, ho⟩ := hst
  have ho := ho hw
  have hlt := hi.div_lt
  have hlen : s.frameCycles = max s.nextPause s.gapLeft + 1 + 33 * s.params.div := by
    simp only [State.frameCycles, State.frameEnd, completeEdgeAt, State.acceptEdge]; omega
  have hgl : s.gapLeft ≤ s.params.div := by unfold State.gapLeft; split <;> omega
  rw [hlen] at hn hv
  obtain ⟨t, ht, hwt⟩ := hostWait_undisturbed g s.nextPause (s := s.popPause) hw hi ho hp
    (State.noRstFor_mono (s := s) hn (by omega)) (State.noRivalFor_mono (s := s) hv (by omega))
  obtain ⟨f1, f2, f3, f4, f5, f6, f7, f8⟩ := hwt.fields
  have hleft : t.gapLeft = s.gapLeft - s.nextPause := hwt.left
  have hdl : (t.drive r).gapLeft = t.gapLeft := rfl
  obtain ⟨u, hu, ha, he⟩ := offer_undisturbed g (34 * t.params.div + 1) (s := t.drive r)
    (by simpa [f6] using hw) (by simpa [f1] using hwt.inv) hwt.out (by simp)
    (by
      intro k hk
      have := hn k (by simpa [f5] using hk)
      simp only [State.drive_cycle, f8, State.popPause_cycle, hdl, hleft]
      omega)
    (by
      intro k hk
      have := hv k (by simpa [f5] using hk)
      simp only [State.drive_cycle, f8, State.popPause_cycle, hdl, hleft]
      omega)
    (by rw [hdl, hleft, f1, State.popPause_params]; omega)
  have hk0 : (t.drive r).cycle + (t.drive r).gapLeft = s.acceptEdge := by
    simp only [State.drive_cycle, f8, hdl, hleft, State.popPause_cycle, State.acceptEdge]; omega
  rw [hk0] at ha he
  rw [State.drive_ports, Ports.offering_frameWord] at ha
  have hup : u.params = s.params := by rw [he]; simp [f1]
  have huc : u.cycle = s.acceptEdge + 1 := by rw [he]
  have hue : u.env = s.env := by rw [he]; simp [f5]
  have hul : u.log = s.acceptLog r := by rw [he]; simp [f7, State.acceptLog]
  have hres := ha.awaitRsp (by
    intro k hk
    have := hn k (by simpa [hue] using hk)
    rw [huc, hup]
    simp only [State.acceptEdge]
    omega)
  have hx : xfer g r s = awaitRsp (33 * u.params.div) u := by
    rw [f1, State.popPause_params] at hu
    simp [xfer, ht, HostRun.bind, hup, hu]
  rw [hx, hres]
  simp only [hup, hue, hul]
  have hfields : u.ports = { s.ports.offering r with reqValid := false } ∧ u.dev = s.dev ∧ u.wasReset = s.wasReset ∧
      u.host = { s.host with pauses := s.host.pauses.tail } := by
    rw [he]; simp [f2, f3, f4, f6]
  obtain ⟨g1, g2, g3, g4⟩ := hfields
  congr 1
  simp only [State.afterFrame, State.frameResponse, State.frameEnd, g1, g2, g3, g4]

end Sys2Proof.Machine
end

