-- ==== Sys2Proof/Laws/Ops.lean ====
section
/-! SUPPORT. One lemma per shared operation: what a host operation's pieces come to undisturbed, what they come to when a
reset cuts them, and what any of them keeps. -/

namespace Sys2Proof.Machine

/-! ### Pieces of a host operation -/

@[simp] theorem HostRun.bind_done {α β : Type} (a : α) (s : State) (f : α → State → HostRun β) :
    (HostRun.done a s).bind f = f a s := rfl
@[simp] theorem HostRun.bind_abandoned {α β : Type} (s : State) (f : α → State → HostRun β) :
    (HostRun.abandoned s).bind f = .abandoned s := rfl
@[simp] theorem HostRun.bind_stopped {α β : Type} (e : Fault) (f : α → State → HostRun β) :
    (HostRun.stopped e).bind f = .stopped e := rfl

@[simp] theorem HostRun.outcome_done {α : Type} (a : α) (s : State) (f : α → State → State) :
    (HostRun.done a s).outcome f = .next (f a s) := rfl
@[simp] theorem HostRun.outcome_abandoned {α : Type} (s : State) (f : α → State → State) :
    (HostRun.abandoned s).outcome f = .next (s.setResult .abandoned) := rfl
@[simp] theorem HostRun.outcome_stopped {α : Type} (e : Fault) (f : α → State → State) :
    (HostRun.stopped e).outcome f = .fault e := rfl

theorem hostOp_of_startFault_none {α : Type} {s : State} (h : s.startFault = none) (run : State → HostRun α)
    (finish : α → State → State) : hostOp s run finish = (run s).outcome finish := by
  simp [hostOp, h]

theorem hostOp_of_startFault_some {α : Type} {s : State} {f : Fault} (h : s.startFault = some f) (run : State → HostRun α)
    (finish : α → State → State) : hostOp s run finish = .fault f := by
  simp [hostOp, h]

/-! ### One frame after another -/

theorem Block.completed_inv (p : Params) (r : Word16) : (Block.completed p r).Inv p := by
  have := div_pos p
  constructor <;> simp [Block.completed, this]

theorem State.Ready.afterFrame {s : State} (h : s.Ready) (r : Request) : (s.afterFrame r).Ready := by
  refine ⟨Block.completed_inv _ _, h.reset, ?_⟩
  rw [State.startFault_eq_none]
  exact ⟨rfl, fun _ => by simp [State.afterFrame, Block.completed]⟩

theorem State.Ready.congr {s t : State} (h : s.Ready) (hp : t.params = s.params) (hb : t.blk = s.blk)
    (hw : t.wasReset = s.wasReset) (hv : t.ports.reqValid = s.ports.reqValid) : t.Ready := by
  refine ⟨by rw [hb, hp]; exact h.inv, by rw [hw]; exact h.reset, ?_⟩
  have := h.may
  rw [State.startFault_eq_none] at this ⊢
  rwa [hv, hb, hw]

theorem State.frameEnd_eq (s : State) : s.frameEnd + 1 = s.cycle + s.frameCycles := by
  simp only [State.frameCycles, State.frameEnd, completeEdgeAt, State.acceptEdge]; omega

@[simp] theorem State.afterFrame_cycle (s : State) (r : Request) : (s.afterFrame r).cycle = s.cycle + s.frameCycles :=
  s.frameEnd_eq

@[simp] theorem State.afterFrame_params (s : State) (r : Request) : (s.afterFrame r).params = s.params := rfl
@[simp] theorem State.afterFrame_env (s : State) (r : Request) : (s.afterFrame r).env = s.env := rfl
@[simp] theorem State.afterFrame_cfg (s : State) (r : Request) : (s.afterFrame r).host.cfg = s.host.cfg := rfl
@[simp] theorem State.afterFrame_devReady (s : State) (r : Request) : (s.afterFrame r).host.devReady = s.host.devReady := rfl
@[simp] theorem State.afterFrame_primed (s : State) (r : Request) : (s.afterFrame r).host.primed = s.host.primed := rfl

theorem State.calmFor.afterFrame {s : State} {n : Nat} (h : s.calmFor (s.frameCycles + n)) (r : Request) :
    (s.afterFrame r).calmFor n := by
  refine ⟨fun k hk => ?_, fun k hk => ?_⟩
  · have := h.1 k hk
    rw [State.afterFrame_cycle]
    omega
  · have := h.2 k hk
    rw [State.afterFrame_cycle]
    omega

theorem State.calmFor.mono {s : State} {m n : Nat} (h : s.calmFor n) (hmn : m ≤ n) : s.calmFor m :=
  ⟨State.noRstFor_mono h.1 hmn, State.noRivalFor_mono h.2 hmn⟩

theorem State.readCycles_eq (s : State) (c : Channel) :
    s.readCycles c = s.frameCycles + (s.afterFrame (readRequest c s)).frameCycles := by
  simp only [State.readCycles, State.afterReadFrames, State.afterFrame_cycle]; omega

/-- The two frames of a READ, undisturbed (43_host_sequences R170). -/
theorem readSeq_undisturbed (c : Channel) {s : State} (hs : s.Ready) (hc : s.calmFor (s.readCycles c)) :
    readSeq c s =
      .done (extractSample ((s.afterFrame (readRequest c s)).frameResponse (.raw zeroWord)))
        (s.afterReadFrames c).markPrimed := by
  rw [State.readCycles_eq] at hc
  have h1 := hc.mono (Nat.le_add_right _ _)
  have h2 := hc.afterFrame (readRequest c s)
  rw [readSeq, xfer_undisturbed false _ hs h1.1 h1.2, HostRun.bind_done,
    xfer_undisturbed true _ (hs.afterFrame _) h2.1 h2.2, HostRun.bind_done]
  rfl

/-- A wait that ends outside a frame leaves the machine ready. -/
theorem State.Waited.ready {s t : State} {n : Nat} (h : s.Waited t n) (hs : s.Ready) : t.Ready := by
  obtain ⟨f1, f2, f3, f4, f5, f6, f7, f8⟩ := h.fields
  refine ⟨by rw [f1]; exact h.inv, by rw [f6]; exact hs.reset, ?_⟩
  have := hs.may
  rw [State.startFault_eq_none] at this ⊢
  exact ⟨by rw [f2]; exact this.1, fun _ => h.out⟩

/-- The state in which a wait of `n` units starts. -/
def State.noteDelay (s : State) (n : Nat) : State := { s with log := .delay s.cycle n :: s.log }

/-- Idle cycles the host leaves are clk edges. -/
theorem hostWait_eq_ticks {g : Bool} (n : Nat) {s : State} (hn : s.noRstFor n) (hv : s.noRivalFor n) :
    hostWait g n s = .done () (State.ticks n s) := by
  induction n generalizing s with
  | zero => rfl
  | succ n ih =>
    rw [hostWait]
    simp [State.rst_false_of s hn (by omega), State.rival_none_of s hv (by omega), ih (State.noRstFor_tick hn)
      (State.noRivalFor_tick hv), State.ticks_succ]

/-- One clk edge of a wait outside a frame (41_transactor R132, R144). -/
theorem Block.edge_waited {p : Params} {b : Block} {i : Inputs} (m : Nat) (hr : i.rst = false) (hi : b.Inv p) (ho : b.fsm ≠ .active)
    (hq : i.ports.reqValid = false) : (b.waited p m).edge p i = b.waited p (m + 1) := by
  have hd := div_pos p
  cases m with
  | zero =>
    simp only [Block.waited, Block.edge, hr, Bool.false_eq_true, if_false]
    cases hf : b.fsm
    · simp [Block.idleEdge, hq, hf]
    · exact absurd hf ho
    · have := hi.div_lt
      simp only [Block.gapEdge]
      by_cases h : b.divCnt = p.div - 1
      · rw [if_neg (by simp [h]), if_neg (by omega)]
      · rw [if_pos h, if_pos (by omega)]
        simp [hf]
  | succ m =>
    simp only [Block.waited]
    cases hf : b.fsm
    · simp [Block.edge, hr, Block.idleEdge, hq]
    · exact absurd hf ho
    · have := hi.div_lt
      by_cases h : b.divCnt + (m + 1) < p.div
      · simp only [h, if_true, Block.edge, hr, Bool.false_eq_true, if_false, Block.gapEdge]
        by_cases h2 : b.divCnt + (m + 1) = p.div - 1
        · rw [if_neg (by simp [h2]), if_neg (by omega)]
        · rw [if_pos h2, if_pos (by omega)]
          rfl
      · rw [if_neg (by omega), if_neg (by omega)]
        simp [Block.edge, hr, Block.idleEdge, hq]

theorem State.ticks_blk_waited (n : Nat) {s : State} (hw : s.wasReset = true) (hi : s.blk.Inv s.params)
    (ho : s.blk.fsm ≠ .active) (hp : s.ports.reqValid = false) (hn : s.noRstFor n) (hv : s.noRivalFor n) :
    (State.ticks n s).blk = s.blk.waited s.params n := by
  induction n with
  | zero => rfl
  | succ n ih =>
    have hr1 := State.noRstFor_mono hn (Nat.le_succ n)
    have hv1 := State.noRivalFor_mono hv (Nat.le_succ n)
    obtain ⟨f1, f2, f3, f4, f5, f6, f7, f8⟩ := (State.ticks_waited n hw hi ho hp hr1 hv1).fields
    have hr := State.rst_false_of _ (State.noRstFor_ticks (m := n) (n := 1) hn) (by omega)
    have hvv := State.rival_none_of _ (State.noRivalFor_ticks (m := n) (n := 1) hv) (by omega)
    rw [State.ticks_succ_last, State.tick_run _ (by rw [f6]; exact hw) hr]
    show (State.ticks n s).blk.edge (State.ticks n s).params _ = _
    rw [ih hr1 hv1, f1]
    exact Block.edge_waited _ hr hi ho (by simp [State.inputs, State.livePorts, hvv, hp])

/-- `DELAY(n)`, undisturbed (43_host_sequences R179). -/
theorem hostDelay_undisturbed (n : Nat) {s : State} (hs : s.Ready) (hc : s.calmFor (n * s.params.delayUnit)) :
    hostDelay n s = .done () (s.afterDelay n) ∧ (s.afterDelay n).Ready := by
  have hm := hs.may
  rw [State.startFault_eq_none] at hm
  obtain ⟨t, h1, h2⟩ := hostWait_undisturbed false (n * s.params.delayUnit) (s := s.noteDelay n) hs.reset hs.inv
    (hm.2 hs.reset) hm.1 hc.1 hc.2
  have hb := State.ticks_blk_waited (n * s.params.delayUnit) (s := s.noteDelay n) hs.reset hs.inv (hm.2 hs.reset) hm.1 hc.1 hc.2
  have e : hostDelay n s = .done () t := h1
  rw [hostWait_eq_ticks (s := s.noteDelay n) _ hc.1 hc.2] at h1
  cases h1
  have ht : State.ticks (n * s.params.delayUnit) (s.noteDelay n) = s.afterDelay n := by
    rw [h2.same, hb]; rfl
  exact ⟨by rw [e, ht], by rw [← ht]; exact h2.ready (s := s.noteDelay n) (hs.congr rfl rfl rfl rfl)⟩

/-! ### Cut by a reset (70_reset_and_hazards R222) -/

theorem State.rst_of_mem {s : State} (h : s.cycle ∈ s.env.rstAt) : s.rst = true := by simpa [State.rst] using h

theorem State.mem_rst_tick {s : State} {j : Nat} (h : s.cycle + (j + 1) ∈ s.env.rstAt) : s.tick.cycle + j ∈ s.tick.env.rstAt := by
  rw [State.tick_cycle, State.tick_env]
  have : s.cycle + 1 + j = s.cycle + (j + 1) := by omega
  rwa [this]

theorem hostWait_cut (g : Bool) (n j : Nat) {s : State} (hj : j < n) (hn : s.noRstFor j) (hv : s.noRivalFor j)
    (hr : s.cycle + j ∈ s.env.rstAt) : hostWait g n s = .abandoned (State.ticks j s).abandon := by
  induction n generalizing s j with
  | zero => omega
  | succ n ih =>
    cases j with
    | zero => rw [hostWait, if_pos (State.rst_of_mem hr)]; rfl
    | succ j =>
      have h0 := State.rst_false_of s hn (by omega)
      have h1 := State.rival_none_of s hv (by omega)
      rw [hostWait]
      simp only [h0, h1, Bool.false_eq_true, if_false, Option.isSome_none, Bool.and_false]
      exact ih j (by omega) (State.noRstFor_tick hn) (State.noRivalFor_tick hv) (State.mem_rst_tick hr)

theorem offer_cut (g : Bool) (n j : Nat) {s : State} (hw : s.wasReset = true) (hi : s.blk.Inv s.params)
    (ho : s.blk.fsm ≠ .active) (hn : s.noRstFor j) (hv : s.noRivalFor j)
    (hr : s.cycle + j ∈ s.env.rstAt) (hj : j ≤ s.gapLeft) (hfuel : j < n) :
    offer g n s = .abandoned (State.ticks j s).abandon ∧ s.Waited (State.ticks j s) j := by
  induction n generalizing s j with
  | zero => omega
  | succ n ih =>
    cases j with
    | zero =>
      refine ⟨?_, .refl hi ho⟩
      rw [offer]
      simp [hw, State.rst_of_mem hr]
    | succ j =>
      have h0 := State.rst_false_of s hn (by omega)
      have h1 := State.rival_none_of s hv (by omega)
      have hf : s.blk.fsm = .gap := by
        cases hf : s.blk.fsm
        · simp [State.gapLeft, hf] at hj
        · exact absurd hf ho
        · rfl
      have ht := State.Waited.tick hw h0 hi ho (fun h => by simp [hf] at h)
      have hl : s.tick.gapLeft = s.gapLeft - 1 := ht.left
      obtain ⟨e1, e2⟩ := ih j (s := s.tick) (by simp [hw]) (by simpa using ht.inv) ht.out (State.noRstFor_tick hn)
        (State.noRivalFor_tick hv) (State.mem_rst_tick hr) (by omega) (by omega)
      refine ⟨?_, ?_⟩
      · rw [offer]
        simp [hw, h0, h1, Block.reqReady, hf, e1, State.ticks_succ]
      · have := ht.trans e2
        rwa [Nat.add_comm] at this

theorem awaitRsp_cut (n j : Nat) {s : State} (hj : j < n) (hn : s.noRstFor j)
    (hbusy : ∀ i, i < j → (State.ticks (i + 1) s).blk.rspValidQ = false) (hr : s.cycle + j ∈ s.env.rstAt) :
    awaitRsp n s = .abandoned (State.ticks j s).abandon := by
  induction n generalizing s j with
  | zero => omega
  | succ n ih =>
    cases j with
    | zero => rw [awaitRsp, if_pos (State.rst_of_mem hr)]; rfl
    | succ j =>
      have h0 := State.rst_false_of s hn (by omega)
      have h1 : s.tick.blk.rspValidQ = false := hbusy 0 (by omega)
      rw [awaitRsp]
      simp only [h0, h1, Bool.false_eq_true, if_false]
      exact ih j (by omega) (State.noRstFor_tick hn) (fun i hi => hbusy (i + 1) (by omega)) (State.mem_rst_tick hr)

/-- The edge at which an operation is abandoned. -/
theorem State.abandon_of_rst {s : State} (hr : s.cycle ∈ s.env.rstAt) (hw : s.wasReset = true) :
    s.abandon =
      { s with
        blk := .resetValue s.params
        ports := { s.ports with reqValid := false }
        dev := .unknown s.log s.cycle
        host := { s.host with devReady := false }
        log := .reset s.cycle (decide (s.blk.fsm = .active)) :: s.log
        cycle := s.cycle + 1 } := by
  rw [State.abandon, State.tick_rst s (State.rst_of_mem hr)]
  simp [State.dropRequest, hw]

/-- The first reset comes in cycle `k` of a wait: the block is reset, the operation is abandoned, and no frame was cut. -/
theorem hostDelay_cut (n : Nat) {s : State} (hs : s.Ready) {k : Nat} (hk : s.cycle ≤ k) (hk' : k < s.cycle + n * s.params.delayUnit)
    (hr : k ∈ s.env.rstAt) (hn : s.noRstFor (k - s.cycle)) (hv : s.noRivalFor (k - s.cycle)) :
    hostDelay n s =
      .abandoned { s with
        blk := .resetValue s.params
        ports := { s.ports with reqValid := false }
        dev := .unknown (.delay s.cycle n :: s.log) k
        host := { s.host with devReady := false }
        log := .reset k false :: .delay s.cycle n :: s.log
        cycle := k + 1 } := by
  obtain ⟨hi, hw, hst⟩ := hs
  rw [State.startFault_eq_none] at hst
  obtain ⟨hp, ho⟩ := hst
  have ek : s.cycle + (k - s.cycle) = k := by omega
  have hu := State.ticks_waited (k - s.cycle) (s := s.noteDelay n) hw hi (ho hw) hp hn hv
  have hcut := hostWait_cut false (n * s.params.delayUnit) (k - s.cycle) (s := s.noteDelay n) (by omega) hn hv
    (by show s.cycle + (k - s.cycle) ∈ s.env.rstAt; rw [ek]; exact hr)
  obtain ⟨f1, f2, f3, f4, f5, f6, f7, f8⟩ := hu.fields
  have hcy : (State.ticks (k - s.cycle) (s.noteDelay n)).cycle = k := by rw [f8]; exact ek
  have hab := State.abandon_of_rst (s := State.ticks (k - s.cycle) (s.noteDelay n)) (by rw [hcy, f5]; exact hr) (by rw [f6]; exact hw)
  rw [show hostDelay n s = hostWait false (n * s.params.delayUnit) (s.noteDelay n) from rfl, hcut, hab, hcy, f7]
  simp only [hu.out, decide_false]
  rw [hu.same]
  rfl

/-- The first reset comes in cycle `k` of an `Xfer` (from its first cycle to the one that would end in its completion): the
block is reset, the response is lost, the operation is abandoned, and `dev_ready` is cleared (70_reset_and_hazards R222). -/
theorem xfer_cut (g : Bool) (r : Request) {s : State} (hs : s.Ready) {k : Nat} (hk : s.cycle ≤ k) (hk' : k ≤ s.frameEnd)
    (hr : k ∈ s.env.rstAt) (hn : s.noRstFor (k - s.cycle)) (hv : s.noRivalFor (k - s.cycle)) :
    ∃ t, xfer g r s = .abandoned t ∧ t.ports.reqValid = false ∧ t.dev = .unknown t.log.tail k ∧
      t = { s with
            blk := .resetValue s.params
            ports := t.ports
            dev := t.dev
            host := { s.host with devReady := false, pauses := s.host.pauses.tail }
            log := .reset k (decide (s.acceptEdge < k)) :: (if s.acceptEdge < k then s.acceptLog r else s.log)
            cycle := k + 1 } := by
  obtain ⟨hi, hw, hst⟩ := hs
  rw [State.startFault_eq_none] at hst
  obtain ⟨hp, ho⟩ := hst
  have ho := ho hw
  have hlt := hi.div_lt
  have hgl : s.gapLeft ≤ s.params.div := by unfold State.gapLeft; split <;> omega
  by_cases c1 : k < s.cycle + s.nextPause
  · -- in the idle cycles before the request
    have hu := State.ticks_waited (k - s.cycle) (s := s.popPause) hw hi ho hp hn hv
    have hcut := hostWait_cut g s.nextPause (k - s.cycle) (s := s.popPause) (by omega) hn hv
      (by have : s.cycle + (k - s.cycle) = k := by omega
          simpa [this] using hr)
    obtain ⟨f1, f2, f3, f4, f5, f6, f7, f8⟩ := hu.fields
    have hcy : (State.ticks (k - s.cycle) s.popPause).cycle = k := by rw [f8]; simp only [State.popPause_cycle]; omega
    have hab := State.abandon_of_rst (s := State.ticks (k - s.cycle) s.popPause) (by rw [hcy, f5]; exact hr) (by rw [f6]; exact hw)
    have hna : ¬ s.acceptEdge < k := by simp only [State.acceptEdge]; omega
    refine ⟨_, by rw [xfer, hcut, HostRun.bind_abandoned], ?_, ?_, ?_⟩
    · rw [hab]
    · rw [hab]; simp only [hcy, List.tail_cons]
    · rw [hab]
      simp only [hcy]
      simp [f3, f6, f7, hna, hu.out]
  · obtain ⟨t, ht, hwt⟩ := hostWait_undisturbed g s.nextPause (s := s.popPause) hw hi ho hp
      (State.noRstFor_mono (s := s) hn (by omega)) (State.noRivalFor_mono (s := s) hv (by omega))
    obtain ⟨f1, f2, f3, f4, f5, f6, f7, f8⟩ := hwt.fields
    have hleft : (t.drive r).gapLeft = s.gapLeft - s.nextPause := hwt.left
    have hcy0 : (t.drive r).cycle = s.cycle + s.nextPause := f8
    by_cases c2 : k ≤ s.acceptEdge
    · -- while the request is offered
      have hj : k - (s.cycle + s.nextPause) ≤ (t.drive r).gapLeft := by
        rw [hleft]; simp only [State.acceptEdge] at c2; omega
      have hmem : (t.drive r).cycle + (k - (s.cycle + s.nextPause)) ∈ (t.drive r).env.rstAt := by
        have : (t.drive r).cycle + (k - (s.cycle + s.nextPause)) = k := by rw [hcy0]; omega
        rw [this, State.drive_env, f5]; exact hr
      obtain ⟨e1, e2⟩ := offer_cut g (34 * s.params.div + 1) (k - (s.cycle + s.nextPause)) (s := t.drive r)
        (by simpa [f6] using hw) (by simpa [f1] using hwt.inv) hwt.out
        (by
          intro q hq
          have := hn q (by simpa [f5] using hq)
          rw [hcy0]; omega)
        (by
          intro q hq
          have := hv q (by simpa [f5] using hq)
          rw [hcy0]; omega)
        hmem hj (by omega)
      obtain ⟨g1, g2, g3, g4, g5, g6, g7, g8⟩ := e2.fields
      have hcy : (State.ticks (k - (s.cycle + s.nextPause)) (t.drive r)).cycle = k := by rw [g8, hcy0]; omega
      have hab := State.abandon_of_rst (s := State.ticks (k - (s.cycle + s.nextPause)) (t.drive r))
        (by rw [hcy, g5, State.drive_env, f5]; exact hr) (by rw [g6, State.drive_wasReset, f6]; exact hw)
      have hna : ¬ s.acceptEdge < k := by omega
      refine ⟨_, by rw [xfer, ht, HostRun.bind_done, e1, HostRun.bind_abandoned], ?_, ?_, ?_⟩
      · rw [hab]
      · rw [hab]; simp only [hcy, List.tail_cons]
      · rw [hab]
        simp only [hcy]
        simp [f1, f3, f5, f6, f7, g3, g6, g7, hna, e2.out]
    · -- in the frame
      obtain ⟨u, hu, ha, he⟩ := offer_undisturbed g (34 * s.params.div + 1) (s := t.drive r)
        (by simpa [f6] using hw) (by simpa [f1] using hwt.inv) hwt.out (by simp)
        (by
          intro q hq
          have := hn q (by simpa [f5] using hq)
          rw [hcy0, hleft]; simp only [State.acceptEdge] at c2; omega)
        (by
          intro q hq
          have := hv q (by simpa [f5] using hq)
          rw [hcy0, hleft]; simp only [State.acceptEdge] at c2; omega)
        (by rw [hleft]; omega)
      have hk0 : (t.drive r).cycle + (t.drive r).gapLeft = s.acceptEdge := by
        rw [hcy0, hleft]; simp only [State.acceptEdge]; omega
      rw [hk0] at ha he
      rw [State.drive_ports, Ports.offering_frameWord] at ha
      have hup : u.params = s.params := by rw [he]; simp [f1]
      have huc : u.cycle = s.acceptEdge + 1 := by rw [he]
      have hue : u.env = s.env := by rw [he]; simp [f5]
      have hul : u.log = s.acceptLog r := by rw [he]; simp [f7, State.acceptLog]
      have huh : u.host = { s.host with pauses := s.host.pauses.tail } := by rw [he]; simp [f3]
      have hend : k - (s.acceptEdge + 1) < 33 * u.params.div := by
        rw [hup]; simp only [State.frameEnd, completeEdgeAt] at hk'; omega
      have hn2 : ∀ m, m ≤ k - (s.acceptEdge + 1) → u.noRstFor m := by
        intro m hm q hq
        have := hn q (by simpa [hue] using hq)
        rw [huc]
        simp only [State.acceptEdge] at hm c2 ⊢
        omega
      have hin := fun m hm => ha.ticks m (Nat.lt_of_le_of_lt hm hend) (hn2 m hm)
      have hcut := awaitRsp_cut (33 * u.params.div) (k - (s.acceptEdge + 1)) (s := u) hend (hn2 _ (Nat.le_refl _))
        (fun i hi => by rw [hin (i + 1) (by omega)]; rfl)
        (by have : u.cycle + (k - (s.acceptEdge + 1)) = k := by rw [huc]; omega
            rw [this, hue]; exact hr)
      have hfin := hin _ (Nat.le_refl _)
      have hcy : s.acceptEdge + 1 + (k - (s.acceptEdge + 1)) = k := by omega
      rw [hcy] at hfin
      have hab := State.abandon_of_rst (s := State.ticks (k - (s.acceptEdge + 1)) u) (by rw [hfin, hue]; exact hr)
        (by rw [hfin]; exact ha.reset)
      have hx : xfer g r s = awaitRsp (33 * u.params.div) u := by
        rw [xfer, ht, HostRun.bind_done, hu, HostRun.bind_done, hup]
      have hya : s.acceptEdge < k := by omega
      refine ⟨_, by rw [hx, hcut], ?_, ?_, ?_⟩
      · rw [hab]
      · rw [hab]; simp only [hfin, List.tail_cons]
      · rw [hab]
        simp only [hfin, hup, hue, hul, huh, hya, decide_true, if_true, ha.reset, hw, Block.inFrame]

/-! ### What the pieces keep -/

/-- The states a piece of a host operation can end in have the property. -/
def HostRun.Keeps {α : Type} (P : State → Prop) : HostRun α → Prop
  | .done _ s => P s
  | .abandoned s => P s
  | .stopped _ => True

/-- A property that one clk edge and the host's moves on the ports keep. -/
structure Moves (P : State → Prop) : Prop where
  tick : ∀ s, P s → P s.tick
  drive : ∀ s r, P s → P (s.drive r)
  drop : ∀ s, P s → P s.dropRequest
  pop : ∀ s, P s → P s.popPause
  note : ∀ s n, P s → P (s.noteDelay n)

theorem HostRun.Keeps.bind {α β : Type} {P : State → Prop} {m : HostRun α} {f : α → State → HostRun β} (hm : m.Keeps P)
    (hf : ∀ a s, P s → (f a s).Keeps P) : (m.bind f).Keeps P := by
  cases m with
  | done a s => exact hf a s hm
  | abandoned s => exact hm
  | stopped e => trivial

theorem Moves.abandon {P : State → Prop} (h : Moves P) {s : State} (hs : P s) : P s.abandon := h.drop _ (h.tick _ hs)

theorem Moves.hostWait {P : State → Prop} (h : Moves P) (g : Bool) (n : Nat) {s : State} (hs : P s) :
    (hostWait g n s).Keeps P := by
  induction n generalizing s with
  | zero => exact hs
  | succ n ih =>
    rw [Machine.hostWait]
    split
    · exact h.abandon hs
    · split
      · trivial
      · exact ih (h.tick _ hs)

theorem Moves.offer {P : State → Prop} (h : Moves P) (g : Bool) (n : Nat) {s : State} (hs : P s) : (offer g n s).Keeps P := by
  induction n generalizing s with
  | zero => trivial
  | succ n ih =>
    rw [Machine.offer]
    split
    · trivial
    · split
      · exact h.abandon hs
      · split
        · trivial
        · split
          · exact h.drop _ (h.tick _ hs)
          · exact ih (h.tick _ hs)

theorem Moves.awaitRsp {P : State → Prop} (h : Moves P) (n : Nat) {s : State} (hs : P s) : (awaitRsp n s).Keeps P := by
  induction n generalizing s with
  | zero => trivial
  | succ n ih =>
    rw [Machine.awaitRsp]
    split
    · exact h.abandon hs
    · split
      · exact h.tick _ hs
      · exact ih (h.tick _ hs)

theorem Moves.xfer {P : State → Prop} (h : Moves P) (g : Bool) (r : Request) {s : State} (hs : P s) : (xfer g r s).Keeps P :=
  (h.hostWait g _ (h.pop _ hs)).bind fun _ _ h1 =>
    (h.offer g _ (h.drive _ r h1)).bind fun _ _ h2 => h.awaitRsp _ h2

theorem Moves.hostDelay {P : State → Prop} (h : Moves P) (n : Nat) {s : State} (hs : P s) : (hostDelay n s).Keeps P :=
  h.hostWait false _ (h.note _ n hs)

end Sys2Proof.Machine
end

