-- ==== Sys2Proof/Laws/Inv.lean ====
section
/-! SUPPORT. One clk edge, and every move of the host, keeps the invariant of Safety.lean. -/

namespace Sys2Proof.Machine

theorem Block.resetValue_inv (p : Params) : (Block.resetValue p).Inv p := by
  have := div_pos p
  constructor <;> simp [Block.resetValue, this]

/-- The step function of the block keeps the block's invariant, for any inputs. -/
theorem Block.Inv.edge {p : Params} {b : Block} (h : b.Inv p) (i : Inputs) : (b.edge p i).Inv p := by
  have hd := div_pos p
  obtain ⟨i1, i2, i3, i4, i5, i6, i7, i8⟩ := h
  unfold Block.edge
  split
  · exact Block.resetValue_inv p
  · cases hf : b.fsm
    · -- IDLE
      have hph := i3 (by simp [hf])
      have hdv := i4 hf
      simp only [Block.idleEdge]
      by_cases hv : i.ports.reqValid = true
      · constructor <;> simp_all
      · constructor <;> simp_all
    · -- ACTIVE
      simp only [Block.activeEdge]
      split
      · constructor <;> simp_all
        omega
      · split
        · unfold Block.sclkEdge
          split
          all_goals constructor <;> simp_all
          all_goals first
            | omega
            | (rcases Nat.mod_two_eq_zero_or_one b.ph with hp | hp <;> simp [hp, Nat.add_mod])
        · have hph : b.ph = 32 := by omega
          simp only [Block.completeEdge]
          constructor <;> simp_all
    · -- GAP
      have hph := i3 (by simp [hf])
      simp only [Block.gapEdge]
      split
      · constructor <;> simp_all
        omega
      · constructor <;> simp_all

/-- The invariant depends on these fields alone. -/
theorem State.Inv.congr {s t : State} (h : s.Inv) (hp : t.params = s.params) (hb : t.blk = s.blk) (hw : t.wasReset = s.wasReset)
    (hl : t.log = s.log) (hr : t.host.devReady = true → s.host.devReady = true) (hd : t.dev = s.dev) : t.Inv := by
  obtain ⟨h1, h2, h3, h4, h5⟩ := h
  refine ⟨?_, ?_, ?_, ?_, ?_⟩
  · rw [hw, hb, hp]; exact h1
  · rw [hl, hw, hb]; exact h2
  · rw [hl]; exact h3
  · intro h; rw [hw]; exact h4 (hr h)
  · rw [hd]; exact h5

theorem Device.afterFrame_convCh (d : Device) (w : Word16) (log : List Event) (k : Nat) :
    (d.afterFrame w log k).convCh.isSome = true → (d.afterFrame w log k).settled = true := by
  unfold Device.afterFrame
  split
  · simp [Device.unknown]
  · split <;> simp [Device.unknown]

/-- One clk edge keeps the invariant, whatever the inputs. -/
theorem State.Inv.tick {s : State} (h : s.Inv) : s.tick.Inv := by
  obtain ⟨h1, h2, h3, h4, h5⟩ := h
  cases hr : s.rst
  · cases hw : s.wasReset
    · have he : s.tick = { s with cycle := s.cycle + 1 } := by simp [State.tick, hr, hw]
      rw [he]
      exact ⟨h1, h2, h3, h4, h5⟩
    · have hri : s.inputs.rst = false := hr
      have hb := h1 hw
      rw [State.tick_run s hw hr]
      refine ⟨fun _ => hb.edge _, ?_, ?_, fun _ => hw, ?_⟩
      · simp only [recordEvents, hri, Bool.false_eq_true, if_false, hw, Bool.true_and]
        rw [hw, Bool.true_and] at h2
        cases hf : s.blk.fsm
        · by_cases hv : s.inputs.ports.reqValid = true
          · simp [Block.accepts, Block.reqReady, hri, hf, hv, openWord, Block.edge, Block.idleEdge]
          · simp [Block.accepts, Block.completes, Block.reqReady, hri, hf, hv, Block.edge, Block.idleEdge, h2]
        · by_cases hc : s.blk.divCnt = s.params.div - 1
          · by_cases hp : 31 < s.blk.ph
            · simp [Block.accepts, Block.completes, Block.reqReady, hri, hf, hc, hp, openWord, Block.edge, Block.activeEdge,
                Block.completeEdge, show ¬ s.blk.ph ≤ 31 by omega]
            · have hsc : (s.blk.sclkEdge s.params s.inputs).fsm = .active := by unfold Block.sclkEdge; split <;> exact hf
              simp [Block.accepts, Block.completes, Block.reqReady, hri, hf, hc, hp, Block.edge, Block.activeEdge, h2,
                show s.blk.ph ≤ 31 by omega, hsc]
          · simp [Block.accepts, Block.completes, Block.reqReady, hri, hf, hc, Block.edge, Block.activeEdge, h2]
        · by_cases hc : s.blk.divCnt = s.params.div - 1 <;>
            simp [Block.accepts, Block.completes, Block.reqReady, hri, hf, hc, Block.edge, Block.gapEdge, h2]
      · simp only [recordEvents, hri, Bool.false_eq_true, if_false]
        rw [hw, Bool.true_and] at h2
        split
        · rename_i ha
          have hf : s.blk.fsm = .idle := by
            simp only [Block.accepts, Block.reqReady, Bool.and_eq_true, decide_eq_true_eq] at ha
            exact ha.2.1
          have hn : (openWord s.log).isNone = true := by
            rw [hf] at h2
            cases ho : openWord s.log <;> simp_all
          simp [serialLog, hn, h3]
        · split
          · rename_i hc
            have hf : s.blk.fsm = .active := by
              simp only [Block.completes, Bool.and_eq_true, decide_eq_true_eq] at hc
              exact hc.2.1
            rw [hf] at h2
            simp only [serialLog, h2, h3, decide_true, Bool.and_self]
          · exact h3
      · simp only [Device.edge, hri, Bool.false_eq_true, if_false]
        split
        · split
          · exact Device.afterFrame_convCh _ _ _ _
          · simp [Device.unknown]
        · exact h5
  · rw [State.tick_rst s hr]
    refine ⟨fun _ => Block.resetValue_inv _, ?_, ?_, ?_, ?_⟩
    · simp [openWord, Block.resetValue]
    · simp [serialLog, h2, h3]
    · simp
    · simp [Device.unknown]

theorem State.Inv.ticks {s : State} (h : s.Inv) (n : Nat) : (State.ticks n s).Inv := by
  induction n generalizing s with
  | zero => exact h
  | succ n ih => exact ih h.tick

theorem State.Inv.drive {s : State} (h : s.Inv) (r : Request) : (s.drive r).Inv := h.congr rfl rfl rfl rfl id rfl
theorem State.Inv.dropRequest {s : State} (h : s.Inv) : s.dropRequest.Inv := h.congr rfl rfl rfl rfl id rfl
theorem State.Inv.popPause {s : State} (h : s.Inv) : s.popPause.Inv := h.congr rfl rfl rfl rfl id rfl
theorem State.Inv.setResult {s : State} (h : s.Inv) (r : Result) : (s.setResult r).Inv := h.congr rfl rfl rfl rfl id rfl
theorem State.Inv.takeRecord {s : State} (h : s.Inv) : s.takeRecord.Inv := h.congr rfl rfl rfl rfl id rfl
theorem State.Inv.markPrimed {s : State} (h : s.Inv) : s.markPrimed.Inv := h.congr rfl rfl rfl rfl id rfl
theorem State.Inv.clearReady {s : State} (h : s.Inv) : s.clearReady.Inv :=
  h.congr rfl rfl rfl rfl (fun h => by simp at h) rfl
theorem State.Inv.setCfgField {s : State} (h : s.Inv) (f : Field) (v : Int) : (s.setCfgField f v).Inv :=
  h.congr rfl rfl rfl rfl id rfl
theorem State.Inv.abandon {s : State} (h : s.Inv) : s.abandon.Inv := h.tick.dropRequest

/-- A step without an operation is one clk edge wherever it answers a next state. -/
theorem State.idleStep_next {s t : State} (h : s.idleStep = .next t) : s.requestHeld = false ∧ t = s.tick := by
  unfold State.idleStep at h
  split at h
  · cases h
  · rename_i hh
    cases h
    exact ⟨by simpa using hh, rfl⟩

@[simp] theorem State.idleStep_held {s : State} (h : s.requestHeld = true) : s.idleStep = .fault .duplicateRequest := if_pos h
@[simp] theorem State.idleStep_not_held {s : State} (h : s.requestHeld = false) : s.idleStep = .next s.tick := by
  simp [State.idleStep, h]

/-- A request kept up after an acceptance is kept up at every later edge until a reset. -/
theorem State.requestHeld_tick {s : State} (h : s.requestHeld = true) (hr : s.rst = false) : s.tick.requestHeld = true := by
  simp only [State.requestHeld, Bool.and_eq_true] at h ⊢
  refine ⟨by simpa using h.1, ?_⟩
  unfold State.tick
  split
  · have hri : s.inputs.rst = false := hr
    simp only [recordEvents, hri, Bool.false_eq_true, if_false]
    split
    · rfl
    · split
      · rfl
      · exact h.2
  · exact h.2

/-- A wait may only be noted outside a frame. -/
theorem State.Inv.noteDelay {s : State} (h : s.Inv) (n : Nat) (ho : s.wasReset = true → s.blk.fsm ≠ .active) :
    (s.noteDelay n).Inv := by
  obtain ⟨h1, h2, h3, h4, h5⟩ := h
  have hn : (openWord s.log).isSome = false := by
    rw [h2]
    cases hw : s.wasReset
    · rfl
    · simp [ho hw]
  have hn' : (openWord s.log).isNone = true := by cases ho : openWord s.log <;> simp_all
  refine ⟨h1, ?_, ?_, h4, h5⟩
  · show (openWord (.delay s.cycle n :: s.log)).isSome = (s.wasReset && decide (s.blk.fsm = .active))
    rw [← h2, hn]; rfl
  · show serialLog (.delay s.cycle n :: s.log) = true
    simp [serialLog, hn', h3]

end Sys2Proof.Machine
end

