-- ==== Sys2Proof/Laws/Text.lean ====
section
/-! SUPPORT. Reading back what the encoder writes: numbers, words, fields and tokens of a line of text. -/

namespace Sys2Proof

/-! ### Numbers -/

theorem digitByte_toNat {d : Nat} (h : d < 10) : (digitByte d).toNat = 0x30 + d := by
  simp only [digitByte, BitVec.toNat_ofNat]; omega

theorem parseDigits_digit (acc d : Nat) (h : d < 10) (rest : List Byte) :
    parseDigits acc (digitByte d :: rest) = parseDigits (acc * 10 + d) rest := by
  rw [parseDigits, digitByte_toNat h, if_pos (by omega)]
  congr 1
  omega

theorem parseDigits_natDigits (fuel n : Nat) (h : n ≤ fuel) (rest : List Byte) :
    parseDigits 0 (natDigits fuel n ++ rest) = parseDigits n rest := by
  induction fuel generalizing n rest with
  | zero =>
    obtain rfl : n = 0 := by omega
    rw [natDigits, List.singleton_append, parseDigits_digit _ _ (by omega)]
  | succ fuel ih =>
    rw [natDigits]
    split
    · rw [List.singleton_append, parseDigits_digit _ _ (by omega)]
      congr 1; omega
    · rw [List.append_assoc, ih _ (by omega), List.singleton_append, parseDigits_digit _ _ (by omega)]
      congr 1; omega

theorem natDigits_ne_nil (fuel n : Nat) : natDigits fuel n ≠ [] := by
  cases fuel <;> simp [natDigits]
  split <;> simp

theorem mem_natDigits {fuel n : Nat} {b : Byte} (h : b ∈ natDigits fuel n) : ∃ d, d < 10 ∧ b = digitByte d := by
  induction fuel generalizing n with
  | zero => exact ⟨n % 10, by omega, by simpa [natDigits] using h⟩
  | succ fuel ih =>
    rw [natDigits] at h
    split at h
    · exact ⟨n, by omega, by simpa using h⟩
    · rcases List.mem_append.1 h with h | h
      · exact ih h
      · exact ⟨n % 10, by omega, by simpa using h⟩

theorem parseNat_of_ne_nil {bs : List Byte} (h : bs ≠ []) : parseNat bs = parseDigits 0 bs := by
  cases bs with
  | nil => exact absurd rfl h
  | cons b bs => rfl

theorem parseNat_printNat (n : Nat) : parseNat (printNat n) = some n := by
  have h := parseDigits_natDigits n n (Nat.le_refl n) []
  rw [List.append_nil] at h
  rw [printNat, parseNat_of_ne_nil (natDigits_ne_nil n n)]
  exact h

theorem digitByte_ne_minus {d : Nat} (h : d < 10) : digitByte d ≠ 0x2D := by
  intro he
  have := congrArg BitVec.toNat he
  rw [digitByte_toNat h] at this
  simp at this
  omega

theorem parseInt_printInt (v : Int) : parseInt (printInt v) = some v := by
  cases v with
  | ofNat n =>
    have h := parseNat_printNat n
    change parseInt (printNat n) = _
    cases hd : printNat n with
    | nil => exact absurd hd (natDigits_ne_nil n n)
    | cons b bs =>
      obtain ⟨d, hd1, hd2⟩ := mem_natDigits (b := b) (fuel := n) (n := n) (by
        have : b ∈ printNat n := by rw [hd]; exact List.mem_cons_self
        exact this)
      rw [hd] at h
      rw [parseInt, if_neg (by rw [hd2]; exact digitByte_ne_minus hd1), h]
      rfl
  | negSucc n =>
    show parseInt (0x2D :: printNat (n + 1)) = _
    rw [parseInt, if_pos rfl, parseNat_printNat]
    rfl

theorem parseHexDigit_hexByte (d : BitVec 4) : parseHexDigit (hexByte d) = some d := by
  revert d; decide

theorem hexByte_ne_space (d : BitVec 4) : hexByte d ≠ spaceByte := by
  revert d; decide

theorem word_nibbles (w : Word16) :
    w.extractLsb' 12 4 ++ w.extractLsb' 8 4 ++ w.extractLsb' 4 4 ++ w.extractLsb' 0 4 = w := by
  apply BitVec.eq_of_getLsbD_eq
  intro i hi
  simp only [BitVec.getLsbD_append, BitVec.getLsbD_extractLsb']
  by_cases h1 : i < 4
  · simp [h1]
  · by_cases h2 : i - 4 < 4
    · simp [h1, h2, show 4 + (i - 4) = i by omega]
    · by_cases h3 : i - 4 - 4 < 4
      · simp [h1, h2, h3, show 8 + (i - 4 - 4) = i by omega]
      · simp [h1, h2, h3, show 12 + (i - 4 - 4 - 4) = i by omega, show i - 4 - 4 - 4 < 4 by omega]

theorem parseHexWord_printHexWord (w : Word16) : parseHexWord (printHexWord w) = some w := by
  simp only [parseHexWord, printHexWord, parseHexDigit_hexByte]
  rw [if_pos (by decide), word_nibbles]

/-! ### Tokens -/

/-- A token without a space in it. -/
def spaceFree (t : List Byte) : Prop := ∀ b ∈ t, b ≠ spaceByte

theorem splitSpaces_spaceFree {t : List Byte} (h : spaceFree t) (u : List Byte) (us : List (List Byte)) (rest : List Byte)
    (hr : splitSpaces rest = u :: us) : splitSpaces (t ++ rest) = (t ++ u) :: us := by
  induction t with
  | nil => simpa using hr
  | cons b t ih =>
    have hb := h b List.mem_cons_self
    have := ih (fun c hc => h c (List.mem_cons_of_mem _ hc))
    rw [List.cons_append, splitSpaces, if_neg hb, this]
    rfl

theorem splitSpaces_joinSpaces (t : List Byte) (ts : List (List Byte)) (h : ∀ u ∈ t :: ts, spaceFree u) :
    splitSpaces (joinSpaces (t :: ts)) = t :: ts := by
  induction ts generalizing t with
  | nil =>
    have := splitSpaces_spaceFree (h t List.mem_cons_self) [] [] [] rfl
    simpa [joinSpaces] using this
  | cons u ts ih =>
    have hu := ih u (fun x hx => h x (List.mem_cons_of_mem _ hx))
    have hs : splitSpaces (spaceByte :: joinSpaces (u :: ts)) = [] :: u :: ts := by
      rw [splitSpaces, if_pos rfl, hu]
    have := splitSpaces_spaceFree (h t List.mem_cons_self) [] (u :: ts) _ hs
    simpa [joinSpaces] using this

theorem spaceFree_printNat (n : Nat) : spaceFree (printNat n) := by
  intro b hb he
  obtain ⟨d, hd, rfl⟩ := mem_natDigits hb
  have := congrArg BitVec.toNat he
  rw [digitByte_toNat hd] at this
  simp [spaceByte] at this
  omega

theorem spaceFree_printInt (v : Int) : spaceFree (printInt v) := by
  cases v with
  | ofNat n => exact spaceFree_printNat n
  | negSucc n =>
    intro b hb
    rcases List.mem_cons.1 hb with rfl | hb
    · decide
    · exact spaceFree_printNat _ b hb

theorem spaceFree_printHexWord (w : Word16) : spaceFree (printHexWord w) := by
  intro b hb
  simp only [printHexWord, List.mem_cons, List.not_mem_nil, or_false] at hb
  rcases hb with rfl | rfl | rfl | rfl | rfl | rfl
  · decide
  · decide
  all_goals exact hexByte_ne_space _

theorem spaceFree_mnemonic (m : Mnemonic) : spaceFree m.text := by
  unfold spaceFree; cases m <;> decide

theorem spaceFree_key (k : Key) : spaceFree k.text := by
  unfold spaceFree; cases k <;> decide

theorem spaceFree_fieldToken {width : Nat} (k : Key) (v : BitVec width) : spaceFree (fieldToken k v) := by
  intro b hb
  rcases List.mem_append.1 hb with h | h
  · exact spaceFree_key k b h
  · exact spaceFree_printNat _ b h

theorem mem_optToken {width : Nat} {k : Key} {o : Option (BitVec width)} {t : List Byte} (h : t ∈ optToken k o) :
    ∃ v : BitVec width, t = fieldToken k v := by
  cases o with
  | none => simp [optToken] at h
  | some v => exact ⟨v, by simpa [optToken] using h⟩

theorem mem_overrideTokens {o : CfgOverride} {t : List Byte} (h : t ∈ overrideTokens o) :
    ∃ (k : Key) (width : Nat) (v : BitVec width), t = fieldToken k v := by
  simp only [overrideTokens, List.mem_append] at h
  rcases h with h | h | h | h | h | h
  all_goals obtain ⟨v, rfl⟩ := mem_optToken h; exact ⟨_, _, v, rfl⟩

theorem spaceFree_overrideTokens (o : CfgOverride) : ∀ t ∈ overrideTokens o, spaceFree t := by
  intro t h
  obtain ⟨k, width, v, rfl⟩ := mem_overrideTokens h
  exact spaceFree_fieldToken k v

theorem spaceFree_operandTokens (i : Instr) : ∀ t ∈ operandTokens i, spaceFree t := by
  intro t h
  cases i with
  | encode f =>
    rcases List.mem_cons.1 h with rfl | h
    · exact spaceFree_fieldToken _ _
    · exact spaceFree_overrideTokens _ t h
  | xferEnc ch o =>
    rcases List.mem_cons.1 h with rfl | h
    · exact spaceFree_fieldToken _ _
    · exact spaceFree_overrideTokens _ t h
  | writeFrame f =>
    rcases List.mem_cons.1 h with rfl | h
    · exact spaceFree_fieldToken _ _
    · exact spaceFree_overrideTokens _ t h
  | xferRaw w => obtain rfl := List.mem_singleton.1 h; exact spaceFree_printHexWord w
  | extract src =>
    cases src with
    | port => simp [operandTokens] at h
    | word r => obtain rfl := List.mem_singleton.1 h; exact spaceFree_printHexWord r
  | nopFrame => simp [operandTokens] at h
  | onesFrame => simp [operandTokens] at h
  | resetSeq => simp [operandTokens] at h
  | delay n => obtain rfl := List.mem_singleton.1 h; exact spaceFree_printNat n
  | read v => obtain rfl := List.mem_singleton.1 h; exact spaceFree_printInt v
  | setSeq v => obtain rfl := List.mem_singleton.1 h; exact spaceFree_printInt v
  | setPm v => obtain rfl := List.mem_singleton.1 h; exact spaceFree_printInt v
  | setShadow v => obtain rfl := List.mem_singleton.1 h; exact spaceFree_printInt v
  | setWeak v => obtain rfl := List.mem_singleton.1 h; exact spaceFree_printInt v
  | setRange v => obtain rfl := List.mem_singleton.1 h; exact spaceFree_printInt v
  | setCoding v => obtain rfl := List.mem_singleton.1 h; exact spaceFree_printInt v

theorem mnemonicOf_text (m : Mnemonic) : mnemonicOf m.text = some m := by cases m <;> decide

/-- A line is read back token by token. -/
theorem decodeLine_encodeLine (i : Instr) : decodeLine (encodeLine i) = decodeOperands i.mnemonic (operandTokens i) := by
  have h : splitSpaces (encodeLine i) = i.mnemonic.text :: operandTokens i := by
    apply splitSpaces_joinSpaces
    intro u hu
    rcases List.mem_cons.1 hu with rfl | hu
    · exact spaceFree_mnemonic _
    · exact spaceFree_operandTokens i u hu
  rw [decodeLine, h]
  simp only [mnemonicOf_text]

/-! ### Fields -/

theorem dropStart_append (start rest : List Byte) : dropStart start (start ++ rest) = some rest := by
  induction start with
  | nil => rfl
  | cons a start ih => simp [dropStart, ih]

theorem dropStart_other {width : Nat} {k k' : Key} (h : k ≠ k') (v : BitVec width) :
    dropStart k.text (fieldToken k' v) = none := by
  cases k <;> cases k' <;> first | exact absurd rfl h | rfl

theorem takeField_some {width : Nat} (k : Key) (v : BitVec width) (rest : List (List Byte)) :
    takeField k width (fieldToken k v :: rest) = .ok (some v, rest) := by
  simp only [takeField, fieldToken, dropStart_append, parseNat_printNat, v.isLt, if_true, BitVec.ofNat_toNat,
    BitVec.setWidth_eq]

theorem takeField_opt {width : Nat} (k : Key) (o : Option (BitVec width)) (rest : List (List Byte))
    (h : ∀ t ∈ rest, dropStart k.text t = none) : takeField k width (optToken k o ++ rest) = .ok (o, rest) := by
  cases o with
  | some v => exact takeField_some k v rest
  | none =>
    cases rest with
    | nil => rfl
    | cons t ts =>
      have := h t List.mem_cons_self
      simp [optToken, takeField, this]

theorem takeFields_tokens (ch : Channel) (o : CfgOverride) :
    takeFields (fieldToken .ch ch :: overrideTokens o) = .ok ((some ch, o), []) := by
  have hopt : ∀ {k k' : Key} {width : Nat} {o' : Option (BitVec width)} {t : List Byte}, k ≠ k' → t ∈ optToken k' o' →
      dropStart k.text t = none := by
    intro k k' width o' t hk ht
    obtain ⟨v, rfl⟩ := mem_optToken ht
    exact dropStart_other hk v
  have h6 : takeField .coding 1 (optToken .coding o.coding) = .ok (o.coding, []) := by
    have := takeField_opt .coding o.coding [] (by simp)
    rwa [List.append_nil] at this
  have step : ∀ {k : Key} {width : Nat} {o' : Option (BitVec width)} {rest : List (List Byte)},
      (∀ t ∈ rest, dropStart k.text t = none) → takeField k width (optToken k o' ++ rest) = .ok (o', rest) :=
    fun h => takeField_opt _ _ _ h
  have h5 := step (k := .range) (o' := o.range) (rest := optToken .coding o.coding) fun t ht => hopt (by decide) ht
  have h4 := step (k := .weak) (o' := o.weak) (rest := optToken .range o.range ++ optToken .coding o.coding) fun t ht => by
    rcases List.mem_append.1 ht with ht | ht <;> exact hopt (by decide) ht
  have h3 := step (k := .shadow) (o' := o.shadow)
    (rest := optToken .weak o.weak ++ (optToken .range o.range ++ optToken .coding o.coding)) fun t ht => by
    rcases List.mem_append.1 ht with ht | ht
    · exact hopt (by decide) ht
    · rcases List.mem_append.1 ht with ht | ht <;> exact hopt (by decide) ht
  have h2 := step (k := .pm) (o' := o.pm)
    (rest := optToken .shadow o.shadow ++ (optToken .weak o.weak ++ (optToken .range o.range ++ optToken .coding o.coding)))
    fun t ht => by
      simp only [List.mem_append] at ht
      rcases ht with ht | ht | ht | ht <;> exact hopt (by decide) ht
  have h1 := step (k := .seq) (o' := o.seq)
    (rest := optToken .pm o.pm ++ (optToken .shadow o.shadow ++ (optToken .weak o.weak
      ++ (optToken .range o.range ++ optToken .coding o.coding))))
    fun t ht => by
      simp only [List.mem_append] at ht
      rcases ht with ht | ht | ht | ht | ht <;> exact hopt (by decide) ht
  simp only [takeFields, overrideTokens, takeField_some, h1, h2, h3, h4, h5, h6, bind, Except.bind, pure, Except.pure]

end Sys2Proof
end

