-- ==== Sys2Proof/Laws/PerInstr.lean ====
section
/-! SUPPORT. Statements about every operation, one lemma per constructor. RoundTrip: the line of an operation
(30_encoding R91) is read back as that operation, with every operand. -/

namespace Sys2Proof.Laws.RoundTrip

/-- The line the encoder writes is read back as the operation. -/
def Statement (i : Instr) : Prop := decodeLine (encodeLine i) = .ok i

theorem allFields_asOverride (f : CmdFields) : allFields (some f.ch) f.cfg.asOverride = .ok f := rfl

theorem one {α : Type} {parse : List Byte → Option α} {mk : α → Instr} {t : List Byte} {a : α} (h : parse t = some a) :
    oneOperand parse mk [t] = .ok (mk a) := by
  simp [oneOperand, h, noMore]

theorem encode (f : CmdFields) : Statement (.encode f) := by
  unfold Statement
  rw [decodeLine_encodeLine]
  simp only [Instr.mnemonic, operandTokens, cmdTokens, decodeOperands, takeFields_tokens, bind, Except.bind]
  rfl

theorem xferEnc (ch : Channel) (o : CfgOverride) : Statement (.xferEnc ch o) := by
  unfold Statement
  rw [decodeLine_encodeLine]
  simp only [Instr.mnemonic, operandTokens, decodeOperands, takeFields_tokens, bind, Except.bind]
  rfl

theorem xferRaw (w : Word16) : Statement (.xferRaw w) := by
  unfold Statement
  rw [decodeLine_encodeLine]
  exact one (parseHexWord_printHexWord w)

theorem extract (src : RspSource) : Statement (.extract src) := by
  unfold Statement
  rw [decodeLine_encodeLine]
  cases src with
  | port => rfl
  | word r => exact one (mk := fun r => .extract (.word r)) (parseHexWord_printHexWord r)

theorem writeFrame (f : CmdFields) : Statement (.writeFrame f) := by
  unfold Statement
  rw [decodeLine_encodeLine]
  simp only [Instr.mnemonic, operandTokens, cmdTokens, decodeOperands, takeFields_tokens, bind, Except.bind]
  rfl

theorem nopFrame : Statement .nopFrame := by unfold Statement; rw [decodeLine_encodeLine]; rfl

theorem onesFrame : Statement .onesFrame := by unfold Statement; rw [decodeLine_encodeLine]; rfl

theorem read (c : Int) : Statement (.read c) := by
  unfold Statement
  rw [decodeLine_encodeLine]
  exact one (parseInt_printInt c)

theorem resetSeq : Statement .resetSeq := by unfold Statement; rw [decodeLine_encodeLine]; rfl

theorem delay (n : Nat) : Statement (.delay n) := by
  unfold Statement
  rw [decodeLine_encodeLine]
  exact one (parseNat_printNat n)

theorem setSeq (v : Int) : Statement (.setSeq v) := by
  unfold Statement
  rw [decodeLine_encodeLine]
  exact one (parseInt_printInt v)

theorem setPm (v : Int) : Statement (.setPm v) := by
  unfold Statement
  rw [decodeLine_encodeLine]
  exact one (parseInt_printInt v)

theorem setShadow (v : Int) : Statement (.setShadow v) := by
  unfold Statement
  rw [decodeLine_encodeLine]
  exact one (parseInt_printInt v)

theorem setWeak (v : Int) : Statement (.setWeak v) := by
  unfold Statement
  rw [decodeLine_encodeLine]
  exact one (parseInt_printInt v)

theorem setRange (v : Int) : Statement (.setRange v) := by
  unfold Statement
  rw [decodeLine_encodeLine]
  exact one (parseInt_printInt v)

theorem setCoding (v : Int) : Statement (.setCoding v) := by
  unfold Statement
  rw [decodeLine_encodeLine]
  exact one (parseInt_printInt v)

end Sys2Proof.Laws.RoundTrip
end

