-- ==== Sys2Proof/Tests/Slice0.lean ====
section
/-! SUPPORT. Tests whose expected values are the spec's own words, vectors and traces (95_test_vectors), and for each statement
with hypotheses a witness that meets them. -/

namespace Sys2Proof.Tests

open Sys2Proof.Machine Sys2Proof.Claims

/-! ### Helpers -/

/-- `C1` of 95_test_vectors section 2.4. -/
def c1 : Cfg := { seq := 0, pm := 3, shadow := 0, weak := 1, range := 1, coding := 1 }

/-- `C1` as `CFG_INIT`, `DIV` = 1, mode (0,0); one time unit for each wait, so that frames come every 35 cycles. -/
def testParams : Params :=
  { divPred := 0, cpol := false, cpha := false, settle := 1, delayUnit := 1, dummyCh := 0, cfgInit := c1 }

/-- The levels of MISO for one frame of `DIV` = 1, `CPHA` = 0: bit `15-i` in cycle `2i + 1`, 35 cycles in all. -/
def frameLevels (r : Word16) : List Bool := (List.range 35).map fun k => decide (k % 2 = 1) && r.getMsbD (k / 2)

/-- A machine right after reset whose device answers the frames with the words given. -/
def answering (rs : List Word16) : State :=
  { State.resetWith testParams with env := { rstAt := [], miso := rs.flatMap frameLevels, rivals := [] } }

/-- A machine right after reset with nothing given from outside. -/
def start : State := answering []

/-- What a check says of the state after an operation. -/
def after (o : Out) (f : State → Bool) : Bool :=
  match o with
  | .next t => f t
  | .fault _ => false
  | .refused _ => false

/-- The operation ends in this fault. -/
def faults (o : Out) (e : Fault) : Bool :=
  match o with
  | .next _ => false
  | .fault f => f == e
  | .refused _ => false

/-- The operation is refused for this reason. -/
def refuses (o : Out) (e : Refusal) : Bool :=
  match o with
  | .next _ => false
  | .fault _ => false
  | .refused f => f == e

/-- The words sent, in order, and the waits between them. -/
def story (s : State) : List (Word16 ⊕ Nat) :=
  s.log.reverse.filterMap fun e =>
    match e with
    | .accept _ w => some (.inl w)
    | .complete _ _ => none
    | .reset _ _ => none
    | .delay _ n => some (.inr n)

theorem exists_next {o : Out} (h : after o (fun _ => true) = true) : ∃ t, o = .next t := by
  cases o with
  | next t => exact ⟨t, rfl⟩
  | fault f => cases h
  | refused r => cases h

/-! ### Well-formedness and decoding -/

theorem test_read_sixteen_is_ill_formed : Instr.wellFormed (.read 16) = false := by decide
theorem test_read_negative_is_ill_formed : Instr.wellFormed (.read (-1)) = false := by decide
theorem test_read_bounds_are_well_formed : Instr.wellFormed (.read 0) = true ∧ Instr.wellFormed (.read 15) = true := by decide

/-- A line of text as a record. -/
def line (cs : List Char) : Record := .line (asciiBytes cs)

/-- Vector E-3's fields, as 30_encoding R80 places them: `1 0 0101 11 0 1 1 1 0000`. -/
theorem test_decode_write_frame :
    decode (.cmd 0b1001011101110000) = .ok (.writeFrame { ch := 5, cfg := c1 }) := by rfl
/-- Vector E-18: `1 1 1010 10 0 0 1 0 0000`. -/
theorem test_decode_write_frame_other_fields :
    decode (.cmd 0b1110101000100000) =
      .ok (.writeFrame { ch := 10, cfg := { seq := 1, pm := 2, shadow := 0, weak := 0, range := 1, coding := 0 } }) := by rfl
theorem test_decode_nop_frame : decode (.cmd 0b0000000000000000) = .ok .nopFrame := by rfl
theorem test_decode_ones_frame : decode (.cmd 0b1111111111111111) = .ok .onesFrame := by rfl
/-- Vector E-22, a non-write word: only XFER_RAW sends it. -/
theorem test_decode_non_write_word : decode (.cmd 0b0001001000110100) = .ok (.xferRaw 0x1234) := by rfl
/-- A write word with padding is no encoder output (30_encoding R83). -/
theorem test_decode_other_write_word : decode (.cmd 0b1000000000000001) = .ok (.xferRaw 0x8001) := by rfl
/-- `req_op` = 1, then the word 0x1234, then fields that do not matter (30_encoding R85). -/
theorem test_decode_request_raw :
    decode (.req 0b10101011111_0001001000110100_1) = .ok (.xferRaw 0x1234) := by rfl
/-- `req_op` = 0, `ch` = 5 and `C1`. -/
theorem test_decode_request_enc :
    decode (.req 0b1_1_1_0_11_0_0101_0000000000000000_0) =
      .ok (.xferEnc 5 { seq := some 0, pm := some 3, shadow := some 0, weak := some 1, range := some 1, coding := some 1 }) := by
  rfl
theorem test_decode_response : decode (.rsp 0b0011101010111100) = .ok (.extract (.word 0x3ABC)) := by rfl
theorem test_decode_line_xfer_enc :
    decode (line ['X', 'F', 'E', 'R', '_', 'E', 'N', 'C', ' ', 'c', 'h', '=', '5', ' ', 'p', 'm', '=', '2']) =
      .ok (.xferEnc 5 { seq := none, pm := some 2, shadow := none, weak := none, range := none, coding := none }) := by rfl
theorem test_decode_line_xfer_raw :
    decode (line ['X', 'F', 'E', 'R', '_', 'R', 'A', 'W', ' ', '0', 'x', 'F', 'F', 'F', '0']) = .ok (.xferRaw 0xFFF0) := by rfl
theorem test_decode_line_encode :
    decode (line ['E', 'N', 'C', 'O', 'D', 'E', ' ', 'c', 'h', '=', '1', '5', ' ', 's', 'e', 'q', '=', '1', ' ', 'p', 'm', '=', '3',
      ' ', 's', 'h', 'a', 'd', 'o', 'w', '=', '0', ' ', 'w', 'e', 'a', 'k', '=', '1', ' ', 'r', 'a', 'n', 'g', 'e', '=', '0',
      ' ', 'c', 'o', 'd', 'i', 'n', 'g', '=', '1']) =
      .ok (.encode { ch := 15, cfg := { seq := 1, pm := 3, shadow := 0, weak := 1, range := 0, coding := 1 } }) := by rfl
theorem test_decode_line_extract : decode (line ['E', 'X', 'T', 'R', 'A', 'C', 'T']) = .ok (.extract .port) := by rfl
theorem test_decode_line_read : decode (line ['R', 'E', 'A', 'D', ' ', '1', '5']) = .ok (.read 15) := by rfl
theorem test_decode_line_reset_seq : decode (line ['R', 'E', 'S', 'E', 'T', '_', 'S', 'E', 'Q']) = .ok .resetSeq := by rfl
theorem test_decode_line_delay : decode (line ['D', 'E', 'L', 'A', 'Y', ' ', '1', '0']) = .ok (.delay 10) := by rfl
theorem test_decode_line_set_seq : decode (line ['S', 'E', 'T', '_', 'S', 'E', 'Q', ' ', '-', '1']) = .ok (.setSeq (-1)) := by rfl
theorem test_decode_line_set_pm : decode (line ['S', 'E', 'T', '_', 'P', 'M', ' ', '4']) = .ok (.setPm 4) := by rfl
theorem test_decode_line_set_shadow :
    decode (line ['S', 'E', 'T', '_', 'S', 'H', 'A', 'D', 'O', 'W', ' ', '2']) = .ok (.setShadow 2) := by rfl
theorem test_decode_line_set_weak : decode (line ['S', 'E', 'T', '_', 'W', 'E', 'A', 'K', ' ', '5']) = .ok (.setWeak 5) := by rfl
theorem test_decode_line_set_range :
    decode (line ['S', 'E', 'T', '_', 'R', 'A', 'N', 'G', 'E', ' ', '-', '1']) = .ok (.setRange (-1)) := by rfl
theorem test_decode_line_set_coding :
    decode (line ['S', 'E', 'T', '_', 'C', 'O', 'D', 'I', 'N', 'G', ' ', '0']) = .ok (.setCoding 0) := by rfl
theorem test_decode_refuses_unknown_name : decode (line ['H', 'A', 'L', 'T']) = .error .unknownMnemonic := by rfl
theorem test_decode_refuses_missing_operand : decode (line ['R', 'E', 'A', 'D']) = .error .missingOperand := by rfl
theorem test_decode_refuses_trailing_text :
    decode (line ['R', 'E', 'S', 'E', 'T', '_', 'S', 'E', 'Q', ' ', '1']) = .error .trailingText := by rfl
theorem test_decode_refuses_wide_field :
    decode (line ['X', 'F', 'E', 'R', '_', 'E', 'N', 'C', ' ', 'c', 'h', '=', '1', '6']) = .error .operandOutOfRange := by rfl
theorem test_table_words :
    decodeTableWord 16 0x0000 = some .nopFrame ∧ decodeTableWord 16 0xFFFF = some .onesFrame ∧
      decodeTableWord 16 0x8000 = some (.writeFrame { ch := 0, cfg := { seq := 0, pm := 0, shadow := 0, weak := 0, range := 0, coding := 0 } }) ∧
      decodeTableWord 0 0 = some (.delay 0) ∧ decodeTableWord 8 1 = some (.xferRaw 0x0000) := by
  refine ⟨?_, ?_, ?_, ?_, ?_⟩ <;> rfl

/-! ### Encoder and extractor (95_test_vectors 2.1, 2.2) -/

/-- A row of the encoder's vectors. -/
def enc (ch : Channel) (seq : BitVec 1) (pm : BitVec 2) (shadow weak range coding : BitVec 1) : Word16 :=
  encodeWord { ch, cfg := { seq, pm, shadow, weak, range, coding } }

theorem test_encoder_vectors_one :
    [enc 0 0 0 0 0 0 0, enc 15 1 3 1 1 1 1, enc 5 0 3 0 1 1 1, enc 13 0 1 1 1 1 1, enc 1 0 0 0 0 0 0, enc 8 0 0 0 0 0 0,
      enc 15 0 0 0 0 0 0, enc 0 1 0 0 0 0 0, enc 0 0 1 0 0 0 0] =
    [0x8000, 0xFFF0, 0x9770, 0xB5F0, 0x8400, 0xA000, 0xBC00, 0xC000, 0x8100] := by decide
theorem test_encoder_vectors_two :
    [enc 0 0 2 0 0 0 0, enc 0 0 3 0 0 0 0, enc 0 0 0 1 0 0 0, enc 0 0 0 0 1 0 0, enc 0 0 0 0 0 1 0, enc 0 0 0 0 0 0 1,
      enc 0 0 3 0 1 1 1, enc 3 0 0 0 1 1 1, enc 10 1 2 0 0 1 0, enc 7 0 0 0 0 0 0] =
    [0x8200, 0x8300, 0x8080, 0x8040, 0x8020, 0x8010, 0x8370, 0x8C70, 0xEA20, 0x9C00] := by decide
theorem test_extractor_vectors :
    ([0x0000, 0xFFFF, 0x5ABC, 0x0FFF, 0xF000, 0x1234, 0x9770, 0x3ABC, 0x5123, 0x5A5A] : List Word16).map extractSample =
      [0x000, 0xFFF, 0xABC, 0xFFF, 0x000, 0x234, 0x770, 0xABC, 0x123, 0xA5A] := by decide
theorem test_extractor_wide_vectors :
    ([0xFFFF, 0xF000, 0x1234, 0x3ABC] : List Word16).map sample16 = [0x0FFF, 0x0000, 0x0234, 0x0ABC] := by decide
theorem test_encode_returns_word :
    after (exec (.encode { ch := 5, cfg := c1 }) start) (fun t => decide (t.host.result = .word 0x9770 ∧ t.encWord = 0x9770)) = true := by
  decide
theorem test_extract_reset_value :
    after (exec (.extract .port) start) (fun t => decide (t.host.result = .extracted 0x000)) = true := by decide
theorem test_extract_before_reset_faults :
    faults (exec (.extract .port) (State.powerOn testParams)) .unwrittenRegister = true := by decide

/-! ### Frames (95_test_vectors T-1, T-2, T-3, T-5) -/

theorem test_xfer_enc :
    after (exec (.xferEnc 5 { seq := none, pm := none, shadow := none, weak := none, range := none, coding := none })
        (answering [0x3ABC]))
      (fun t => decide (t.host.result = .response 0x3ABC ∧ story t = [.inl 0x9770] ∧ t.rspSample16.toOption = some 0x0ABC)) = true := by
  decide +kernel
theorem test_xfer_raw :
    after (exec (.xferRaw 0xFFFF) (answering [0x0000]))
      (fun t => decide (t.host.result = .response 0x0000 ∧ story t = [.inl 0xFFFF])) = true := by decide +kernel
theorem test_nop_frame :
    after (exec .nopFrame (answering [0x5123]))
      (fun t => decide (t.host.result = .response 0x5123 ∧ story t = [.inl 0x0000])) = true := by decide +kernel
theorem test_ones_frame :
    after (exec .onesFrame (answering [0x0000])) (fun t => decide (story t = [.inl 0xFFFF] ∧ t.csN = true)) = true := by
  decide +kernel
theorem test_write_frame :
    after (exec (.writeFrame { ch := 0, cfg := { seq := 0, pm := 0, shadow := 0, weak := 0, range := 0, coding := 0 } })
        (answering [0xFFFF]))
      (fun t => decide (t.host.result = .response 0xFFFF ∧ story t = [.inl 0x8000])) = true := by decide +kernel

/-- The inputs of a frame of 0x9770, MISO carrying `r` for the phase given. -/
def frameInputs (phase : Nat) (r : Word16) (k : Nat) : Inputs where
  rst := false
  ports :=
    { reqValid := decide (k = 0), reqOp := true, reqRaw := 0x9770, ch := 0
      cfg := { seq := 0, pm := 0, shadow := 0, weak := 0, range := 0, coding := 0 } }
  miso := decide (k % 2 = (phase + 1) % 2) && r.getMsbD ((k - 1) / 2)

/-- What a row of a trace shows, in the order of 95_test_vectors' columns. -/
structure Row where
  fsm : Fsm
  ph : Nat
  sclk : Bool
  csN : Bool
  mosi : Bool
  rxSr : Word16
  rspValid : Bool
  rspWord : Word16
deriving DecidableEq, Repr

/-- The row that a block shows. -/
def row (b : Block) : Row := ⟨b.fsm, b.ph, b.sclkQ, b.csNQ, b.mosiQ, b.rxSr, b.rspValidQ, b.rspWordQ⟩

/-- T-2, mode (0,0): rows 0, 6, 15, 32, 33, 34. -/
theorem test_trace_mode_zero :
    [1, 7, 16, 33, 34, 35].map (fun n => row (blockAt testParams (frameInputs 0 0x3ABC) (.resetValue testParams) n)) =
      [⟨.active, 0, false, false, true, 0x0000, false, 0x0000⟩, ⟨.active, 6, false, false, true, 0x0001, false, 0x0000⟩,
        ⟨.active, 15, true, false, true, 0x003A, false, 0x0000⟩, ⟨.active, 32, false, false, false, 0x3ABC, false, 0x0000⟩,
        ⟨.gap, 0, false, true, false, 0x3ABC, true, 0x3ABC⟩, ⟨.idle, 0, false, true, false, 0x3ABC, false, 0x3ABC⟩] := by
  decide +kernel
/-- Mode (1,1). -/
def modeThree : Params := { testParams with cpol := true, cpha := true }
/-- T-3, mode (1,1): rows 0, 1, 3, 31, 32, 33, 34. -/
theorem test_trace_mode_three :
    [1, 2, 4, 32, 33, 34, 35].map (fun n => row (blockAt modeThree (frameInputs 1 0x3ABC) (.resetValue modeThree) n)) =
      [⟨.active, 0, true, false, false, 0x0000, false, 0x0000⟩, ⟨.active, 1, false, false, true, 0x0000, false, 0x0000⟩,
        ⟨.active, 3, false, false, false, 0x0000, false, 0x0000⟩, ⟨.active, 31, false, false, false, 0x1D5E, false, 0x0000⟩,
        ⟨.active, 32, true, false, false, 0x3ABC, false, 0x0000⟩, ⟨.gap, 0, true, true, false, 0x3ABC, true, 0x3ABC⟩,
        ⟨.idle, 0, true, true, false, 0x3ABC, false, 0x3ABC⟩] := by
  decide +kernel

/-- `rst` in one cycle of a machine right after reset. -/
def startWithRst (k : Nat) : State := { start with env := { rstAt := [k], miso := [], rivals := [] } }

/-- T-5: a frame accepted at edge 0 and cut at edge 10. -/
theorem test_reset_mid_frame :
    after (exec (.xferRaw 0x9770) (startWithRst 10))
      (fun t => decide (t.host.result = .abandoned ∧ t.blk = .resetValue testParams ∧ t.cycle = 11 ∧
        t.log = [.reset 10 true, .accept 0 0x9770])) = true := by decide +kernel
theorem test_use_of_abandoned_result_faults :
    after (exec (.xferRaw 0x9770) (startWithRst 10))
      (fun t => match t.useResult with | .ok _ => false | .error e => e == .abandonedResult) = true := by decide +kernel

/-! ### Host sequences (95_test_vectors H-1 to H-9, P1, P4) -/

theorem test_read :
    after (exec (.read 5) (answering [0x1111, 0x5ABC]))
      (fun t => decide (t.host.result = .sample 0xABC false ∧ story t = [.inl 0x9770, .inl 0x0000] ∧ t.host.cfg = c1)) = true := by
  decide +kernel
theorem test_read_channel_fifteen :
    after (exec (.read 15) (answering [0x1111, 0x0FFF])) (fun t => decide (story t = [.inl 0xBF70, .inl 0x0000])) = true := by
  decide +kernel
theorem test_read_sixteen_refused : refuses (exec (.read 16) start) (.readChannelOutOfRange 16) = true := by decide
theorem test_reset_seq :
    after (exec .resetSeq (answering [0x0000, 0x0000, 0x0123]))
      (fun t => decide (story t = [.inl 0xFFFF, .inr 1, .inl 0xFFFF, .inr 1, .inl 0x8370] ∧ t.host.devReady = true ∧
        t.host.primed = false ∧ t.rspWord.toOption = some 0x0123)) = true := by decide +kernel
theorem test_delay : after (exec (.delay 10) start) (fun t => decide (t.cycle = 10 ∧ t.blk = .resetValue testParams)) = true := by
  decide +kernel
theorem test_set_pm_accepted :
    after (exec (.setPm 0) (answering [0x5111, 0x0222]))
      (fun t => decide (t.host.result = .accepted ∧ story t = [.inl 0x8070, .inl 0x0000] ∧ t.host.cfg = { c1 with pm := 0 })) = true := by
  decide +kernel
theorem test_set_pm_rejected :
    after (exec (.setPm 4) start) (fun t => decide (t.host.result = .rejected ∧ t.log = [] ∧ t.host.cfg = c1)) = true := by decide
theorem test_set_seq_rejected :
    after (exec (.setSeq (-1)) start) (fun t => decide (t.host.result = .rejected ∧ t.cycle = 0)) = true := by decide
theorem test_set_seq_accepted :
    after (exec (.setSeq 1) (answering [0x0000, 0x0000])) (fun t => decide (story t = [.inl 0xC370, .inl 0x0000])) = true := by
  decide +kernel
theorem test_set_weak_same_value :
    after (exec (.setWeak 1) (answering [0x0000, 0x0000]))
      (fun t => decide (t.host.result = .accepted ∧ story t = [.inl 0x8370, .inl 0x0000])) = true := by decide +kernel
theorem test_set_shadow :
    after (exec (.setShadow 1) (answering [0x0000, 0x0000])) (fun t => decide (story t = [.inl 0x83F0, .inl 0x0000])) = true ∧
      after (exec (.setShadow 2) start) (fun t => decide (t.host.result = .rejected)) = true := by
  refine ⟨by decide +kernel, by decide⟩
theorem test_set_range :
    after (exec (.setRange 0) (answering [0x0000, 0x0000])) (fun t => decide (story t = [.inl 0x8350, .inl 0x0000])) = true ∧
      after (exec (.setRange (-1)) start) (fun t => decide (t.host.result = .rejected)) = true := by
  refine ⟨by decide +kernel, by decide⟩
/-- H-9: `C1` with pm 0. -/
theorem test_set_coding :
    after (exec (.setCoding 0)
        { answering [0x0AAA, 0x0BBB] with host := { start.host with cfg := { c1 with pm := 0 } } })
      (fun t => decide (t.host.result = .accepted ∧ story t = [.inl 0x8060, .inl 0x0000] ∧ t.rspWord.toOption = some 0x0BBB)) = true := by
  decide +kernel
/-- P4: a reset during the second frame of a READ. -/
theorem test_reset_mid_read :
    after (exec (.read 5) (startWithRst 40))
      (fun t => decide (t.host.result = .abandoned ∧ t.cycle = 41 ∧ story t = [.inl 0x9770, .inl 0x0000] ∧
        t.blk = .resetValue testParams ∧ t.host.devReady = false ∧ t.host.cfg = c1)) = true := by decide +kernel
/-- P1's last READ: ready and primed, so its channel may be claimed. -/
theorem test_primed_read :
    after (exec (.read 5)
        { answering [0x5ABC, 0x5ABD] with host := { start.host with devReady := true, primed := true } })
      (fun t => decide (t.host.result = .sample 0xABD true)) = true := by decide +kernel

/-- P5: XFER_RAW 0xFFFF with `req_valid` left at 1. The block accepts it again at edge 35; the host is at fault from the cycle
after the first acceptance on. -/
theorem test_held_request_duplicates_the_frame :
    (State.ticks 69 (start.drive (.raw 0xFFFF))).log.filterMap (fun e => match e with | .accept k w => some (k, w) | _ => none) =
      [(35, 0xFFFF), (0, 0xFFFF)] := by decide +kernel
theorem test_held_request_faults :
    after (step (start.drive (.raw 0xFFFF))) (fun t => faults (step t) .duplicateRequest) = true := by decide +kernel

/-! ### Witnesses: states and operands that meet each statement's hypotheses -/

theorem inv_resetWith (p : Params) : (State.resetWith p).Inv := by
  refine ⟨fun _ => Block.resetValue_inv p, rfl, rfl, fun h => ?_, fun h => ?_⟩ <;> cases h

theorem start_ready : start.Ready := ⟨Block.resetValue_inv testParams, rfl, rfl⟩

theorem start_calm (n : Nat) : start.calmFor n := by
  refine ⟨?_, ?_⟩ <;> intro k hk <;> cases hk

/-- A block of `testParams` about to complete a frame. -/
def lastTick : Block :=
  { fsm := .active, divCnt := 0, ph := 32, txSr := 0, rxSr := 0x3ABC, rspWordQ := 0, rspValidQ := false, csNQ := false
    sclkQ := false, mosiQ := false }

theorem lastTick_inv : lastTick.Inv testParams := by constructor <;> decide

theorem starts (p : Params) (r : Word16) (h : Nat) : StartsFrame p (.resetValue p) (frameInputs h r 0) :=
  ⟨Block.resetValue_inv p, rfl, rfl⟩

/-- The bits on both sides of each field. -/
theorem witness_eachInputChangesOnlyItsBits :
    (13 ≠ 14 ∧ 15 ≠ 14) ∧ (9 < 10 ∧ 13 < 14) ∧ (7 < 8 ∧ 9 < 10) ∧ (6 ≠ 7 ∧ 8 ≠ 7) ∧ (5 ≠ 6 ∧ 7 ≠ 6) ∧ (4 ≠ 5 ∧ 6 ≠ 5) ∧ (3 ≠ 4 ∧ 5 ≠ 4) := by
  decide
theorem witness_sampleViewsAgree : 0 < 12 ∧ 11 < 12 := by decide
theorem witness_encWordDependsOnFieldPortsOnly :
    start.livePorts.ch = start.tick.livePorts.ch ∧ start.livePorts.cfg = start.tick.livePorts.cfg ∧ start.cycle ≠ start.tick.cycle := by decide
theorem witness_encodeCompletesWithItsWord :
    (∃ t, exec (.encode { ch := 5, cfg := c1 }) start = .next t) ∧ start.rival = none ∧
      (start.drive (.raw 0x1234)).ports.reqValid = true := ⟨exists_next (by decide), rfl, rfl⟩
theorem witness_extractCompletesWithLowBits : start.wasReset = true ∧ (State.powerOn testParams).wasReset = false := ⟨rfl, rfl⟩
theorem witness_commandWordsFallInTheirClasses :
    ((0x9770 : Word16).getLsbD 15 = true ∧ (0x9770 : Word16).extractLsb' 0 4 = 0) ∧
      ((0x8001 : Word16) ≠ 0x0000 ∧ (0x8001 : Word16) ≠ 0xFFFF ∧ ∀ f, encodeWord f ≠ 0x8001) := by
  refine ⟨by decide, by decide, by decide, fun f h => ?_⟩
  have h0 := congrArg (fun w : Word16 => w.getLsbD 0) h
  rw [encodeWord, BitVec.getLsbD_append] at h0
  exact absurd h0 (by simp)
theorem witness_fieldDecodingInvertsEncode :
    encodeWord { ch := 5, cfg := c1 } = encodeWord { ch := 5, cfg := c1 } := rfl
theorem witness_requestRecordsReadBack :
    (let b := packReq (.raw 0x1234); let c : BitVec 28 := b ||| 0x8000000
      b ≠ c ∧ b.extractLsb' 0 17 = c.extractLsb' 0 17 ∧ b.getLsbD 0 = true) ∧
    (let b := packReq (.enc { ch := 5, cfg := c1 }); let c : BitVec 28 := b ||| 0x10
      b ≠ c ∧ b.getLsbD 0 = false ∧ c.getLsbD 0 = false ∧ b.extractLsb' 17 11 = c.extractLsb' 17 11) := by decide
theorem witness_stepRunsTheDecodedOperation :
    (start.withRecord (.cmd 0x0000)).host.prog = .cmd 0x0000 :: [] ∧ decode (.cmd 0x0000) = .ok .nopFrame ∧
      decode (line []) = .error .unknownMnemonic ∧ start.host.prog = [] ∧ decodeTableWord 16 0x8000 ≠ none ∧
      ¬ (start.ports.reqValid = true ∧ acceptedSinceReset start.log = true) ∧
      (let s := (start.drive (.raw 0xFFFF)).tick;
        s.host.prog = [] ∧ s.ports.reqValid = true ∧ acceptedSinceReset s.log = true) := by
  refine ⟨rfl, rfl, rfl, rfl, by decide, by decide, by decide⟩
theorem witness_machineEdgeRunsTheBlock : start.wasReset = true ∧ (startWithRst 0).rst = true := ⟨rfl, by decide⟩
theorem witness_resetOverridesEveryArm : ({ frameInputs 0 0 0 with rst := true } : Inputs).rst = true := rfl
theorem witness_outputsAfterReset :
    let s := (startWithRst 0).drive (.raw 0x1234)
    s.rst = true ∧ s.tick.rst = false ∧ s.ports.reqValid = true := by decide
theorem witness_acceptanceLoadsTheFrameWord :
    StartsFrame modeThree (.resetValue modeThree) (frameInputs 1 0x3ABC 0) ∧
      (∀ k, k < modeThree.div → (frameInputs 1 0x3ABC k).rst = false) ∧ 1 ≤ modeThree.div := ⟨starts _ _ _, fun _ _ => rfl, by decide⟩
theorem witness_idleWithoutRequestKeepsEveryRegister :
    (Block.resetValue testParams).fsm = .idle ∧ (frameInputs 0 0 1).rst = false ∧ (frameInputs 0 0 1).ports.reqValid = false ∧
      (Block.resetValue testParams).Inv testParams := ⟨rfl, rfl, by decide, Block.resetValue_inv _⟩
theorem witness_onlyCompletionDeliversAResponse :
    lastTick.Inv testParams ∧ (frameInputs 0 0 1).rst = false ∧ lastTick.fsm = .active ∧ lastTick.divCnt = testParams.div - 1 ∧
      lastTick.ph = 32 ∧ (Block.resetValue testParams).Inv testParams ∧ (Block.resetValue testParams).ph ≠ 32 :=
  ⟨lastTick_inv, rfl, rfl, rfl, rfl, Block.resetValue_inv _, by decide⟩
theorem witness_requestInputsIgnoredOutsideAcceptance :
    let i := frameInputs 0 0 0
    let j : Inputs := { i with ports := { i.ports with reqValid := false, reqRaw := 0x1234 } }
    i.rst = j.rst ∧ i.miso = j.miso ∧ lastTick.accepts i = false ∧ lastTick.accepts j = false ∧ i ≠ j := by decide
theorem witness_misoIgnoredOutsideSampling :
    let i := frameInputs 0 0 0
    let j : Inputs := { i with miso := true }
    i.rst = j.rst ∧ i.ports = j.ports ∧ i ≠ j ∧ ¬ samplingEdge testParams lastTick := by
  refine ⟨rfl, rfl, by decide, ?_⟩
  rintro ⟨_, _, h, _⟩
  exact absurd h (by decide)
theorem witness_pinsDoNotDependOnReceivedBits :
    (∀ k, (frameInputs 0 0x0000 k).rst = (frameInputs 0 0xFFFF k).rst ∧
      (frameInputs 0 0x0000 k).ports = (frameInputs 0 0xFFFF k).ports) ∧
      (frameInputs 0 0x0000 1).miso ≠ (frameInputs 0 0xFFFF 1).miso := ⟨fun _ => ⟨rfl, rfl⟩, by decide⟩
theorem witness_pinsAreIdleOutsideAFrame :
    lastTick.Inv testParams ∧ lastTick.fsm = .active ∧ (Block.resetValue testParams).Inv testParams ∧
      (Block.resetValue testParams).fsm ≠ .active ∧ ((Block.resetValue testParams).edge testParams (frameInputs 0 0 0)).csNQ = false :=
  ⟨lastTick_inv, rfl, Block.resetValue_inv _, by decide, by decide⟩
/-- Also the windows are not empty at the first and the last bit. -/
theorem witness_framePresentsTheWordAndLatchesTheResponse :
    StartsFrame modeThree (.resetValue modeThree) (frameInputs 1 0x3ABC 0) ∧
      (∀ k, k ≤ 33 * modeThree.div → (frameInputs 1 0x3ABC k).rst = false) ∧
      (2 * 0 + modeThree.phase) * modeThree.div < 2 ∧ 33 ≤ (2 * 15 + modeThree.phase + 2) * modeThree.div :=
  ⟨starts _ _ _, fun _ _ => rfl, by decide, by decide⟩
theorem witness_frameEdgesFallAtTheirClkEdges :
    StartsFrame testParams (.resetValue testParams) (frameInputs 0 0x3ABC 0) ∧
      (∀ k, k ≤ 34 * testParams.div + 1 → (frameInputs 0 0x3ABC k).rst = false) ∧
      ((31 + 1) * testParams.div < 33 ∧ 33 ≤ (31 + 2) * testParams.div) ∧
      ((frameInputs 0 0 0).ports.reqValid = true) := ⟨starts _ _ _, fun _ _ => rfl, by decide, rfl⟩
theorem witness_heldRequestIsAcceptedAgainAndAgain :
    (Block.resetValue testParams).Inv testParams ∧ (Block.resetValue testParams).fsm = .idle ∧
      ∀ _k : Nat, (frameInputs 0 0 0).rst = false ∧ (frameInputs 0 0 0).ports.reqValid = true :=
  ⟨Block.resetValue_inv _, rfl, fun _ => ⟨rfl, rfl⟩⟩
theorem witness_rawFramesRunAsOneFrame : start.Ready ∧ start.calmFor start.frameCycles := ⟨start_ready, start_calm _⟩
theorem witness_encodedFramesRunAsOneFrame :
    start.Ready ∧ start.calmFor start.frameCycles ∧
      requestOf start.host.cfg (.xferEnc 5 { seq := none, pm := none, shadow := none, weak := none, range := none, coding := none }) =
        some (.enc { ch := 5, cfg := c1 }) := ⟨start_ready, start_calm _, rfl⟩
/-- A machine whose device is settled. -/
def settledStart : State := { start with dev := { start.dev with settled := true } }
theorem witness_writeFrameLoadsTheControlRegister :
    settledStart.Ready ∧ settledStart.calmFor settledStart.frameCycles ∧ settledStart.dev.settled = true ∧
      (∃ t, exec (.xferRaw 0x9770) settledStart = .next t) ∧ (∃ t, exec (.xferRaw 0x0000) settledStart = .next t) ∧
      (∃ t, exec (.xferRaw 0xFFFF) settledStart = .next t) ∧ (0x9770 : Word16).getLsbD 15 = true ∧ (0x0000 : Word16).getLsbD 15 = false :=
  ⟨start_ready.congr rfl rfl rfl rfl, start_calm _, rfl, exists_next (by decide +kernel), exists_next (by decide +kernel),
    exists_next (by decide +kernel), by decide, by decide⟩
theorem witness_everyResponseWordIsPossible : start.Ready ∧ start.calmFor start.frameCycles := ⟨start_ready, start_calm _⟩
theorem witness_responseIndependentOfItsOwnWord :
    let s := answering [0x3ABC]
    DevConfigLag s ∧ s.Ready ∧ s.calmFor s.frameCycles ∧ (∃ t, exec (.xferRaw 0x9770) s = .next t) ∧
      ∃ u, exec (.xferRaw 0x0000) s = .next u := by
  refine ⟨?_, start_ready.congr rfl rfl rfl rfl, start_calm _, exists_next (by decide +kernel), exists_next (by decide +kernel)⟩
  intro w v k hk
  have hk' : k < (answering [0x3ABC]).env.miso.length := Nat.lt_of_le_of_lt hk (by decide +kernel)
  simp only [misoLevel, List.getElem?_eq_getElem hk', Option.getD_some]
theorem witness_readReturnsTheSecondResponse :
    ((0 : Int) ≤ 15 ∧ (15 : Int) ≤ 15) ∧ start.Ready ∧ start.calmFor (start.readCycles (BitVec.ofInt 4 15)) ∧
      ¬ ((0 : Int) ≤ 16 ∧ (16 : Int) ≤ 15) := ⟨by decide, start_ready, start_calm _, by decide⟩
theorem witness_readRunsAsTwoFrames :
    ((0 : Int) ≤ 0 ∧ (0 : Int) ≤ 15) ∧ start.Ready ∧ start.calmFor (start.readCycles (BitVec.ofInt 4 0)) :=
  ⟨by decide, start_ready, start_calm _⟩
theorem witness_readOutOfRangeIsRefused : ((-1 : Int) < 0 ∨ (15 : Int) < -1) ∧ ((16 : Int) < 0 ∨ (15 : Int) < 16) := by decide
/-- A machine whose device is ready and primed (70_reset_and_hazards R225 step 6). -/
def primedStart : State := { answering [0x5ABC, 0x5ABD] with host := { start.host with devReady := true, primed := true } }
theorem witness_primedReadSamplesItsChannel :
    primedStart.Ready ∧ primedStart.calmFor (primedStart.readCycles (BitVec.ofInt 4 5)) ∧
      ∃ t, exec (.read 5) primedStart = .next t ∧ t.host.result = .sample 0xABD true ∧ DevPipeline (fun c _ _ => c = 5) t.log := by
  refine ⟨start_ready.congr rfl rfl rfl rfl, start_calm _, ?_⟩
  have h : after (exec (.read 5) primedStart)
      (fun t => decide (t.host.result = .sample 0xABD true ∧
        t.log = [.complete 68 0x5ABD, .accept 35 0x0000, .complete 33 0x5ABC, .accept 0 0x9770])) = true := by decide +kernel
  obtain ⟨t, ht⟩ := exists_next (o := exec (.read 5) primedStart) (by decide +kernel)
  rw [ht] at h
  obtain ⟨h1, h2⟩ := of_decide_eq_true h
  refine ⟨t, ht, h1, ?_⟩
  rw [h2]
  refine ⟨fun w1 hw _ => ?_, fun w1 hw _ => ?_, trivial⟩
  · cases hw; decide
  · cases hw
/-- Another requester in cycle `k`. -/
def startWithRival (k : Nat) : State := { start with env := { rstAt := [], miso := [], rivals := [(k, .raw 0x0000)] } }
/-- In the first and in the last cycle in which the statement speaks. -/
theorem witness_interleavedReadFaults :
    ∀ k ∈ [34, 35],
      let s := startWithRival k
      let s1 := s.afterFrame (.enc { ch := BitVec.ofInt 4 5, cfg := s.host.cfg })
      s.Ready ∧ s1.cycle ≤ k ∧ k ≤ s1.acceptEdge ∧ (k, .raw 0x0000) ∈ s.env.rivals ∧ s.noRstFor (k + 1 - s.cycle) ∧
        s.noRivalFor (k - s.cycle) := by
  intro k hk
  simp only [List.mem_cons, List.not_mem_nil, or_false] at hk
  rcases hk with rfl | rfl <;>
    exact ⟨start_ready.congr rfl rfl rfl rfl, by decide +kernel, by decide +kernel, by decide, by decide, by decide⟩
theorem test_interleaved_read_faults : faults (exec (.read 5) (startWithRival 35)) .interleavedRead = true := by decide +kernel
theorem witness_resetSeqSendsItsFixedSequence : start.Ready ∧ start.calmFor start.resetSeqCycles := ⟨start_ready, start_calm _⟩
theorem witness_resetSeqRunsItsFramesAndWaits : start.Ready ∧ start.calmFor start.resetSeqCycles := ⟨start_ready, start_calm _⟩
theorem witness_delayLetsTimePass :
    start.Ready ∧ start.calmFor (10 * start.params.delayUnit) ∧ start.blk.fsm = .idle ∧ 0 < 10 * start.params.delayUnit :=
  ⟨start_ready, start_calm _, rfl, by decide⟩
theorem witness_mutatorsTakeLegalValuesOnly :
    start.Ready ∧ ((0 : Int) ≤ 1 ∧ (1 : Int) ≤ 1) ∧ ¬ ((0 : Int) ≤ 2 ∧ (2 : Int) ≤ 1) ∧ ((0 : Int) ≤ 3 ∧ (3 : Int) ≤ 3) ∧
      ¬ ((0 : Int) ≤ 4 ∧ (4 : Int) ≤ 3) ∧ ¬ ((0 : Int) ≤ -1 ∧ (-1 : Int) ≤ 3) ∧
      ∀ new, (withCfg start new).calmFor ((withCfg start new).readCycles start.params.dummyCh) :=
  ⟨start_ready, by decide, by decide, by decide, by decide, by decide, fun _ => start_calm _⟩
theorem witness_acceptedMutatorsRunOneRead :
    start.Ready ∧ ((0 : Int) ≤ 0 ∧ (0 : Int) ≤ 1) ∧
      ∀ new, (withCfg start new).calmFor ((withCfg start new).readCycles start.params.dummyCh) :=
  ⟨start_ready, by decide, fun _ => start_calm _⟩
theorem witness_hostOperationsSendFixedFrameCounts : start.Ready ∧ ∀ m, start.calmFor m := ⟨start_ready, start_calm⟩
/-- In the first and in the last cycle in which the statement speaks, and in the middle. -/
theorem witness_resetAbandonsAFrame :
    ∀ k ∈ [0, 10, 33],
      let s := startWithRst k
      requestOf s.host.cfg .nopFrame = some (.raw 0x0000) ∧ s.Ready ∧ s.cycle ≤ k ∧ k ≤ s.frameEnd ∧ k ∈ s.env.rstAt ∧
        s.noRstFor (k - s.cycle) ∧ s.noRivalFor (k - s.cycle) := by
  intro k hk
  simp only [List.mem_cons, List.not_mem_nil, or_false] at hk
  rcases hk with rfl | rfl | rfl <;>
    exact ⟨rfl, start_ready.congr rfl rfl rfl rfl, by decide, by decide +kernel, by decide, by decide, by decide⟩
theorem witness_resetAbandonsARead :
    ∀ k ∈ [0, 40, 68],
      let s := startWithRst k
      s.Ready ∧ s.cycle ≤ k ∧ k < s.cycle + s.readCycles (BitVec.ofInt 4 5) ∧ k ∈ s.env.rstAt ∧ s.noRstFor (k - s.cycle) ∧
        s.noRivalFor (k - s.cycle) := by
  intro k hk
  simp only [List.mem_cons, List.not_mem_nil, or_false] at hk
  rcases hk with rfl | rfl | rfl <;>
    exact ⟨start_ready.congr rfl rfl rfl rfl, by decide, by decide +kernel, by decide, by decide, by decide⟩
/-- In the first cycle, in the first wait, in the second frame, in the second wait, and in the last cycle. -/
theorem witness_resetAbandonsAResetSeq :
    ∀ k ∈ [0, 34, 50, 69, 103], (startWithRst k).Ready ∧ FirstRst (startWithRst k) k (startWithRst k).resetSeqCycles := by
  intro k hk
  simp only [List.mem_cons, List.not_mem_nil, or_false] at hk
  rcases hk with rfl | rfl | rfl | rfl | rfl <;>
    exact ⟨start_ready.congr rfl rfl rfl rfl, by decide, by decide +kernel, by decide, by decide, by decide⟩
theorem witness_resetAbandonsADelay :
    ∀ k ∈ [0, 9], (startWithRst k).Ready ∧ FirstRst (startWithRst k) k (10 * (startWithRst k).params.delayUnit) := by
  intro k hk
  simp only [List.mem_cons, List.not_mem_nil, or_false] at hk
  rcases hk with rfl | rfl <;> exact ⟨start_ready.congr rfl rfl rfl rfl, by decide, by decide, by decide, by decide, by decide⟩
/-- For the legal values at both ends, and any configuration the mutator leaves. -/
theorem witness_resetAbandonsAMutator :
    ((0 : Int) ≤ 0 ∧ (1 : Int) ≤ 1 ∧ (0 : Int) ≤ 3 ∧ (3 : Int) ≤ 3) ∧
      ∀ k ∈ [0, 40, 68], (startWithRst k).Ready ∧
        FirstRst (startWithRst k) k ((withCfg (startWithRst k) c1).readCycles (startWithRst k).params.dummyCh) := by
  refine ⟨by decide, fun k hk => ?_⟩
  simp only [List.mem_cons, List.not_mem_nil, or_false] at hk
  rcases hk with rfl | rfl | rfl <;>
    exact ⟨start_ready.congr rfl rfl rfl rfl, by decide, by decide +kernel, by decide, by decide, by decide⟩
theorem witness_requestKeptUpFaults :
    let s := start.drive (.raw 0xFFFF)
    s.host.prog = [] ∧ s.ports.reqValid = true ∧ s.wasReset = true ∧ s.blk.fsm = .idle ∧ s.noRstFor (68 + 1) := by
  refine ⟨rfl, rfl, rfl, rfl, by decide⟩
theorem witness_hostOperationsDoNotOverlap :
    needsHost (.read 5) = true ∧ Instr.wellFormed (.read 5) = true ∧ (start.drive (.raw 0)).wasReset = true ∧
      (start.drive (.raw 0)).ports.reqValid = true ∧ ({ start with blk := lastTick } : State).ports.reqValid = false ∧
      ({ start with blk := lastTick } : State).blk.fsm = .active := ⟨rfl, rfl, rfl, rfl, rfl, rfl⟩
theorem witness_nothingIsReadableBeforeTheFirstReset :
    let s := State.powerOn testParams
    s.wasReset = false ∧ s.rst = false ∧ requestOf s.host.cfg .onesFrame = some (.raw 0xFFFF) ∧ s.ports.reqValid = false ∧
      s.noRstFor s.nextPause := by
  refine ⟨rfl, by decide, rfl, rfl, by decide⟩
theorem witness_noOperationStalls : start.Inv := (inv_resetWith testParams).congr rfl rfl rfl rfl id rfl
theorem witness_everyStepKeepsTheMachineInvariant :
    State.reset.Inv ∧ ∃ t, step (State.reset.withFetchWord 16 0x8000) = .next t :=
  ⟨inv_resetWith resetParams, exists_next (by decide +kernel)⟩
theorem witness_noStepChangesTheParameters : ∃ t, step (State.reset.withRecord (encode .resetSeq)) = .next t :=
  exists_next (by decide +kernel)
theorem witness_onlyMutatorsChangeTheConfiguration : ∃ t, exec (.setPm 0) start = .next t := exists_next (by decide +kernel)
theorem witness_readinessComesOnlyFromItsOperations :
    (∃ t, exec .resetSeq start = .next t ∧ t.host.devReady = true) ∧
      (∃ t, exec (.read 5) { start with host := { start.host with devReady := true } } = .next t ∧ t.host.primed = true) ∧
      (startWithRst 0).rst = true := by
  have h1 : after (exec .resetSeq start) (fun t => t.host.devReady) = true := by decide +kernel
  have h2 : after (exec (.read 5) { start with host := { start.host with devReady := true } }) (fun t => t.host.primed) = true := by
    decide +kernel
  obtain ⟨t, ht⟩ := exists_next (o := exec .resetSeq start) (by decide +kernel)
  obtain ⟨u, hu⟩ := exists_next (o := exec (.read 5) { start with host := { start.host with devReady := true } }) (by decide +kernel)
  rw [ht] at h1
  rw [hu] at h2
  exact ⟨⟨t, ht, h1⟩, ⟨u, hu, h2⟩, by decide⟩

end Sys2Proof.Tests
end

section
/-! The state's obligations (10_state): what every step keeps. One case analysis of `exec` serves them all: a property
that the pieces of a host operation keep is kept by every operation. -/

namespace Sys2Proof.Machine

open Sys2Proof.Claims

/-! ### How a step comes to a next state -/

theorem hostOp_eq_next {α : Type} {s t : State} {run : State → HostRun α} {finish : α → State → State}
    (h : hostOp s run finish = .next t) :
    s.startFault = none ∧
      ((∃ a u, run s = .done a u ∧ t = finish a u) ∨ ∃ u, run s = .abandoned u ∧ t = u.setResult .abandoned) := by
  cases hf : s.startFault with
  | some f => rw [hostOp_of_startFault_some hf] at h; cases h
  | none =>
    rw [hostOp_of_startFault_none hf] at h
    refine ⟨rfl, ?_⟩
    cases hr : run s with
    | done a u => rw [hr] at h; cases h; exact .inl ⟨a, u, rfl, rfl⟩
    | abandoned u => rw [hr] at h; cases h; exact .inr ⟨u, rfl, rfl⟩
    | stopped e => rw [hr] at h; cases h

theorem execExtract_eq_next {src : RspSource} {s t : State} (h : execExtract src s = .next t) :
    ∃ v, t = s.setResult (.extracted v) := by
  unfold execExtract at h
  split at h
  · cases h; exact ⟨_, rfl⟩
  · split at h
    · cases h; exact ⟨_, rfl⟩
    · cases h

theorem step_eq_next {s t : State} (h : step s = .next t) : t = s.tick ∨ ∃ i, exec i s.takeRecord = .next t := by
  unfold step at h
  split at h
  · exact .inl (State.idleStep_next h).2
  · split at h
    · exact .inr ⟨_, h⟩
    · cases h

/-! ### The mutators as one operation -/

/-- The mutator of a field (43_host_sequences R182 to R187). -/
def fieldMutator : Field → Int → Instr
  | .seq => .setSeq
  | .pm => .setPm
  | .shadow => .setShadow
  | .weak => .setWeak
  | .range => .setRange
  | .coding => .setCoding

theorem exec_fieldMutator (f : Field) (v : Int) (s : State) : exec (fieldMutator f v) s = mutate f v s := by cases f <;> rfl

theorem legalValue_iff (f : Field) (v : Int) : legalValue f v = true ↔ 0 ≤ v ∧ v ≤ Field.top f := by
  simp [legalValue]

theorem cfgAfter_fieldMutator (f : Field) (v : Int) (c : Cfg) :
    cfgAfter c (fieldMutator f v) = if legalValue f v then setField f v c else c := by
  cases f <;> simp [fieldMutator, cfgAfter, legalValue_iff, Field.top, setField]

/-! ### From the pieces of an operation to every operation -/

/-- The pieces of the host operations, and the moves that pass no clk edge, keep `P`. A wait starts only where an operation
may (43_host_sequences R175). -/
structure PiecesKeep (P : State → Prop) : Prop where
  result : ∀ s r, P s → P (s.setResult r)
  fieldPorts : ∀ (s : State) (f : CmdFields), P s → P { s with ports := { s.ports with ch := f.ch, cfg := f.cfg } }
  xfer : ∀ s r, P s → (xfer false r s).Keeps P
  read : ∀ s c, P s → (readSeq c s).Keeps P
  resetSeq : ∀ s, P s → (resetSeq s).Keeps P
  delay : ∀ s n, P s → s.startFault = none → (hostDelay n s).Keeps P

theorem PiecesKeep.hostOp {P : State → Prop} (h : PiecesKeep P) {α : Type} {s t : State} {run : State → HostRun α}
    {res : α → Result} (hrun : s.startFault = none → (run s).Keeps P)
    (he : hostOp s run (fun a u => u.setResult (res a)) = .next t) : P t := by
  obtain ⟨hf, ⟨a, u, hr, rfl⟩ | ⟨u, hr, rfl⟩⟩ := hostOp_eq_next he
  all_goals
    have hu := hrun hf
    rw [hr] at hu
    exact h.result u _ hu

theorem PiecesKeep.mutator {P : State → Prop} (h : PiecesKeep P) {f : Field} {v : Int} {s t : State}
    (hs : P (withCfg s (cfgAfter s.host.cfg (fieldMutator f v)))) (he : exec (fieldMutator f v) s = .next t) : P t := by
  rw [exec_fieldMutator, mutate] at he
  rw [cfgAfter_fieldMutator] at hs
  by_cases hv : legalValue f v = true
  · rw [if_pos hv] at he hs
    exact h.hostOp (fun _ => h.read _ _ hs) he
  · rw [if_neg hv] at he hs
    exact h.hostOp (run := .done ()) (fun _ => hs) he

/-- Every operation keeps `P`, if the change of the configuration it makes at its start does. -/
theorem PiecesKeep.exec {P : State → Prop} (h : PiecesKeep P) {i : Instr} {s t : State}
    (hs : P (withCfg s (cfgAfter s.host.cfg i))) (he : exec i s = .next t) : P t := by
  cases i with
  | encode f => cases he; exact h.result _ _ (h.fieldPorts s f hs)
  | extract src => obtain ⟨v, rfl⟩ := execExtract_eq_next he; exact h.result s _ hs
  | xferEnc ch o => exact h.hostOp (fun _ => h.xfer s _ hs) he
  | xferRaw w => exact h.hostOp (fun _ => h.xfer s _ hs) he
  | writeFrame f => exact h.hostOp (fun _ => h.xfer s _ hs) he
  | nopFrame => exact h.hostOp (fun _ => h.xfer s _ hs) he
  | onesFrame => exact h.hostOp (fun _ => h.xfer s _ hs) he
  | read c =>
    by_cases hc : channelInRange c = true
    · exact h.hostOp (fun _ => h.read s _ hs) ((if_pos hc).symm.trans he)
    · cases (if_neg hc).symm.trans he
  | resetSeq => exact h.hostOp (fun _ => h.resetSeq s hs) he
  | delay n => exact h.hostOp (fun hf => h.delay s n hs hf) he
  | setSeq v => exact h.mutator (f := .seq) hs he
  | setPm v => exact h.mutator (f := .pm) hs he
  | setShadow v => exact h.mutator (f := .shadow) hs he
  | setWeak v => exact h.mutator (f := .weak) hs he
  | setRange v => exact h.mutator (f := .range) hs he
  | setCoding v => exact h.mutator (f := .coding) hs he

/-! ### The invariant along the pieces of an operation -/

/-- Where a piece of an operation may end: in `Q` when it is done, in `P` when `rst` cuts it short. -/
def HostRun.Ends {α : Type} (P Q : State → Prop) : HostRun α → Prop
  | .done _ s => Q s
  | .abandoned s => P s
  | .stopped _ => True

theorem HostRun.Ends.bind {α β : Type} {P Q R : State → Prop} {m : HostRun α} {f : α → State → HostRun β} (hm : m.Ends P Q)
    (hf : ∀ a s, Q s → (f a s).Ends P R) : (m.bind f).Ends P R := by
  cases m with
  | done a s => exact hf a s hm
  | abandoned s => exact hm
  | stopped e => trivial

theorem HostRun.Ends.keeps {α : Type} {P Q : State → Prop} {m : HostRun α} (hm : m.Ends P Q) (hq : ∀ s, Q s → P s) :
    m.Keeps P := by
  cases m with
  | done a s => exact hq s hm
  | abandoned s => exact hm
  | stopped e => trivial

/-- The invariant of a machine whose block has been reset. -/
structure State.Running (s : State) : Prop where
  inv : s.Inv
  reset : s.wasReset = true

/-- A running machine outside a frame: there a wait may be put on the record, and RESET_SEQ may set `dev_ready`. -/
structure State.FrameOver (s : State) : Prop extends s.Running where
  out : s.blk.fsm ≠ .active

theorem State.Inv.setReady {s : State} (h : s.Inv) (hw : s.wasReset = true) : s.setReady.Inv :=
  ⟨h.block, h.frame, h.serial, fun _ => hw, fun _ => rfl⟩

theorem State.Inv.hostWait_ends (g : Bool) (n : Nat) {s : State} (h : s.Inv) : (hostWait g n s).Ends State.Inv State.Inv := by
  induction n generalizing s with
  | zero => exact h
  | succ n ih =>
    rw [Machine.hostWait]
    split
    · exact h.abandon
    · split
      · trivial
      · exact ih h.tick

/-- A request is accepted only by a block that has been reset. -/
theorem State.Inv.offer_ends (g : Bool) (n : Nat) {s : State} (h : s.Inv) : (offer g n s).Ends State.Inv State.Running := by
  induction n generalizing s with
  | zero => trivial
  | succ n ih =>
    rw [Machine.offer]
    split
    · trivial
    next hreset =>
      have hw : s.wasReset = true := by simpa using hreset
      split
      · exact h.abandon
      · split
        · trivial
        · split
          · exact ⟨h.tick.dropRequest, by simp [hw]⟩
          · exact ih h.tick

/-- The wait for a response ends with `rsp_valid`, so outside a frame (41_transactor R143). -/
theorem State.Running.awaitRsp_ends (n : Nat) {s : State} (h : s.Running) :
    (awaitRsp n s).Ends State.Inv State.FrameOver := by
  induction n generalizing s with
  | zero => trivial
  | succ n ih =>
    have ht : s.tick.Running := ⟨h.inv.tick, by simp [h.reset]⟩
    rw [Machine.awaitRsp]
    split
    · exact h.inv.abandon
    · split
      next hv =>
        have hgap := ((ht.inv.block ht.reset).valid hv).1
        exact ⟨ht, by simp [hgap]⟩
      · exact ih ht

theorem State.Inv.xfer_ends (g : Bool) (r : Request) {s : State} (h : s.Inv) :
    (xfer g r s).Ends State.Inv State.FrameOver :=
  (h.popPause.hostWait_ends g _).bind fun _ _ h1 =>
    ((h1.drive r).offer_ends g _).bind fun _ _ h2 => h2.awaitRsp_ends _

theorem State.Inv.hostDelay_ends (n : Nat) {s : State} (h : s.Inv) (ho : s.wasReset = true → s.blk.fsm ≠ .active) :
    (hostDelay n s).Ends State.Inv State.Inv :=
  (h.noteDelay n ho).hostWait_ends false _

theorem State.Inv.readSeq_ends (c : Channel) {s : State} (h : s.Inv) : (readSeq c s).Ends State.Inv State.Inv :=
  (h.xfer_ends false _).bind fun _ _ h1 => (h1.inv.xfer_ends true _).bind fun _ _ h2 => h2.inv.markPrimed

/-- RESET_SEQ waits only after a frame of its own, and sets `dev_ready` only after its last one (43_host_sequences R173). -/
theorem State.Inv.resetSeq_ends {s : State} (h : s.Inv) : (resetSeq s).Ends State.Inv State.Inv :=
  (h.clearReady.xfer_ends false _).bind fun _ _ h1 =>
    (h1.inv.hostDelay_ends _ fun _ => h1.out).bind fun _ _ h2 =>
      (h2.xfer_ends false _).bind fun _ _ h3 =>
        (h3.inv.hostDelay_ends _ fun _ => h3.out).bind fun _ _ h4 =>
          (h4.xfer_ends false _).bind fun _ _ h5 => h5.inv.setReady h5.reset

theorem inv_piecesKeep : PiecesKeep State.Inv where
  result _ r h := h.setResult r
  fieldPorts _ _ h := h.congr rfl rfl rfl rfl id rfl
  xfer _ r h := (h.xfer_ends false r).keeps fun _ h' => h'.inv
  read _ c h := (h.readSeq_ends c).keeps fun _ => id
  resetSeq _ h := h.resetSeq_ends.keeps fun _ => id
  delay s n h hf := (h.hostDelay_ends n ((State.startFault_eq_none s).1 hf).2).keeps fun _ => id

theorem State.Inv.exec {i : Instr} {s t : State} (h : s.Inv) (he : exec i s = .next t) : t.Inv :=
  inv_piecesKeep.exec (h.congr rfl rfl rfl rfl id rfl) he

/-! ### Properties that every edge and every move of the host keep -/

/-- A property kept by every clk edge and by every move of the host, but a mutator's on the configuration. -/
structure HostMoves (P : State → Prop) : Prop extends Moves P where
  result : ∀ s r, P s → P (s.setResult r)
  fieldPorts : ∀ (s : State) (f : CmdFields), P s → P { s with ports := { s.ports with ch := f.ch, cfg := f.cfg } }
  markPrimed : ∀ s, P s → P s.markPrimed
  clearReady : ∀ s, P s → P s.clearReady
  setReady : ∀ s, P s → P s.setReady

theorem HostMoves.readSeq {P : State → Prop} (h : HostMoves P) (c : Channel) {s : State} (hs : P s) : (readSeq c s).Keeps P :=
  (h.xfer false _ hs).bind fun _ _ h1 => (h.xfer true _ h1).bind fun _ _ h2 => h.markPrimed _ h2

theorem HostMoves.resetSeq {P : State → Prop} (h : HostMoves P) {s : State} (hs : P s) : (resetSeq s).Keeps P :=
  (h.xfer false _ (h.clearReady _ hs)).bind fun _ _ h1 =>
    (h.hostDelay _ h1).bind fun _ _ h2 =>
      (h.xfer false _ h2).bind fun _ _ h3 =>
        (h.hostDelay _ h3).bind fun _ _ h4 => (h.xfer false _ h4).bind fun _ _ h5 => h.setReady _ h5

theorem HostMoves.piecesKeep {P : State → Prop} (h : HostMoves P) : PiecesKeep P where
  result := h.result
  fieldPorts := h.fieldPorts
  xfer _ r hs := h.xfer false r hs
  read _ c hs := h.readSeq c hs
  resetSeq _ hs := h.resetSeq hs
  delay _ n hs _ := h.hostDelay n hs

/-- Parameters and inputs from outside (10_state R27; entries 2, 3, 4 and 19). -/
def State.SameConstants (s t : State) : Prop := t.params = s.params ∧ t.env = s.env

theorem State.sameConstants_hostMoves (s : State) : HostMoves s.SameConstants where
  tick _ h := ⟨(State.tick_params _).trans h.1, (State.tick_env _).trans h.2⟩
  drive _ _ h := h
  drop _ h := h
  pop _ h := h
  note _ _ h := h
  result _ _ h := h
  fieldPorts _ _ h := h
  markPrimed _ h := h
  clearReady _ h := h
  setReady _ h := h

/-- Only a mutator writes the configuration (10_state R37). -/
theorem cfg_hostMoves (c : Cfg) : HostMoves (fun s => s.host.cfg = c) where
  tick s h := by rw [State.tick_host]; exact h
  drive _ _ h := h
  drop _ h := h
  pop _ h := h
  note _ _ h := h
  result _ _ h := h
  fieldPorts _ _ h := h
  markPrimed _ h := h
  clearReady _ h := h
  setReady _ h := h

/-- At the start of the host, whether or not the block has been reset. -/
theorem State.inv_atStart (p : Params) (w : Bool) : State.Inv { State.resetWith p with wasReset := w } where
  block _ := Block.resetValue_inv p
  frame := by cases w <;> rfl
  serial := rfl
  ready h := by cases h
  convCh h := by cases h

/-! ### The obligations -/

/-- Settles O50: an edge without an operation keeps the invariant, and so does every operation, since each of its pieces does. -/
theorem everyStepKeepsTheMachineInvariant : Obligations.EveryStepKeepsTheMachineInvariant := by
  intro s t h hstep
  obtain rfl | ⟨i, he⟩ := step_eq_next hstep
  · exact h.tick
  · exact h.takeRecord.exec he

/-- Settles O51: no edge and no move of the host writes the parameters or the inputs from outside; `DIV` is a successor. -/
theorem noStepChangesTheParameters : Obligations.NoStepChangesTheParameters := by
  intro s t hstep
  have hsame : s.SameConstants t := by
    obtain rfl | ⟨i, he⟩ := step_eq_next hstep
    · exact s.sameConstants_hostMoves.tick s ⟨rfl, rfl⟩
    · exact s.sameConstants_hostMoves.piecesKeep.exec (s := s.takeRecord) ⟨rfl, rfl⟩ he
  exact ⟨hsame.1, div_pos t.params, hsame.2⟩

/-- Settles O52: past the change a mutator makes at its start, no edge and no move of the host writes the configuration. -/
theorem onlyMutatorsChangeTheConfiguration : Obligations.OnlyMutatorsChangeTheConfiguration := by
  intro i s t he
  exact (cfg_hostMoves _).piecesKeep.exec rfl he

/-- Settles O48: the values of 10_state R39 and 43_host_sequences R190, as `State.resetWith` writes them. -/
theorem resetStateHoldsTheSpecsValues : Obligations.ResetStateHoldsTheSpecsValues := by
  intro p
  exact ⟨rfl, rfl, rfl, rfl, rfl, rfl, rfl, rfl⟩

/-- Settles O49: both states are the start of the host, with and without a reset block. -/
theorem resetStateKeepsTheMachineInvariant : Obligations.ResetStateKeepsTheMachineInvariant := by
  intro p
  exact ⟨State.inv_atStart p true, State.inv_atStart p false⟩

end Sys2Proof.Machine
end

section
/-! The device's memory (20_memory sections 2 and 5): what a frame leaves in the device, which responses are possible, and
what the premises about the device say of a response. -/

namespace Sys2Proof.Machine

/-! ### One undisturbed operation -/

/-- A frame that nothing disturbs runs to its end and returns its response (41_transactor R120, R121). -/
theorem execXfer_undisturbed (r : Request) {s : State} (hs : s.Ready) (hc : s.calmFor s.frameCycles) :
    execXfer r s = .next ((s.afterFrame r).setResult (.response (s.frameResponse r))) := by
  rw [execXfer, hostOp_of_startFault_none hs.may, xfer_undisturbed false r hs hc.1 hc.2, HostRun.outcome_done]

theorem exec_xferRaw (w : Word16) (s : State) : exec (.xferRaw w) s = execXfer (.raw w) s := rfl

theorem eq_of_exec_xferRaw {w : Word16} {s t : State} (hs : s.Ready) (hc : s.calmFor s.frameCycles)
    (he : exec (.xferRaw w) s = .next t) : t = (s.afterFrame (.raw w)).setResult (.response (s.frameResponse (.raw w))) := by
  rw [exec_xferRaw, execXfer_undisturbed _ hs hc] at he
  cases he
  rfl

/-- A READ in range that nothing disturbs is its two frames (43_host_sequences R170). -/
theorem execRead_undisturbed {c : Int} (h0 : 0 ≤ c) (h15 : c ≤ 15) {s : State} (hs : s.Ready)
    (hc : s.calmFor (s.readCycles (channelOf c))) :
    execRead c s =
      .next ((s.afterReadFrames (channelOf c)).markPrimed.setResult
        (.sample (extractSample ((s.afterFrame (readRequest (channelOf c) s)).frameResponse (.raw zeroWord)))
          s.readAccurate)) := by
  have hrange : channelInRange c = true := by simp [channelInRange, h0, h15]
  rw [execRead, if_pos hrange, hostOp_of_startFault_none hs.may, readSeq_undisturbed _ hs hc, HostRun.outcome_done]

theorem exec_read (c : Int) (s : State) : exec (.read c) s = execRead c s := rfl

/-! ### What a frame leaves -/

@[simp] theorem State.afterFrame_dev (s : State) (r : Request) :
    (s.afterFrame r).dev = s.dev.afterFrame (requestWord r) (s.acceptLog r) s.frameEnd := rfl

theorem State.afterReadFrames_log (s : State) (c : Channel) :
    (s.afterReadFrames c).log =
      let s1 := s.afterFrame (readRequest c s)
      .complete s1.frameEnd (s1.frameResponse (.raw zeroWord)) :: .accept s1.acceptEdge zeroWord ::
        .complete s.frameEnd (s.frameResponse (readRequest c s)) ::
          .accept s.acceptEdge (encodeWord { ch := c, cfg := s.host.cfg }) :: s.log := rfl

@[simp] theorem State.rspWord_setResult (s : State) (x : Result) : (s.setResult x).rspWord = s.rspWord := rfl

theorem State.Ready.rspWord_afterFrame {s : State} (hs : s.Ready) (r : Request) :
    (s.afterFrame r).rspWord = .ok (s.frameResponse r) := by
  rw [State.rspWord, State.registers, if_pos (hs.afterFrame r).reset]
  rfl

theorem Device.afterFrame_onesWord (d : Device) (log : List Event) (k : Nat) :
    d.afterFrame onesWord log k = .unknown log k := if_pos rfl

theorem Device.afterFrame_write {d : Device} {w : Word16} (hd : d.settled = true) (hw : cmdWrite w = true)
    (h1 : w ≠ onesWord) (log : List Event) (k : Nat) :
    d.afterFrame w log k =
      { ctrl := (unpackCmd w).cfg
        conv := Config.freeConv log k
        convCh := if Config.freeConverts d.ctrl log k then some (unpackCmd w).ch else none
        settled := true } := by
  rw [Device.afterFrame, if_neg h1, if_pos (by rw [hw, hd]; rfl)]

theorem Device.afterFrame_nonWrite {w : Word16} (hw : cmdWrite w = false) (d : Device) (log : List Event) (k : Nat) :
    d.afterFrame w log k = { Device.unknown log k with settled := d.settled } := by
  have h1 : w ≠ onesWord := by
    rintro rfl
    exact absurd hw (by decide)
  rw [Device.afterFrame, if_neg h1, if_neg (by simp [hw])]

/-! ### The received bits (20_memory R53, R60) -/

theorem getLsbD_bitsReceived (f : Nat → Bool) (n : Nat) {j : Nat} (hj : j < 16) :
    (bitsReceived f n).getLsbD j = (decide (j < n) && f (n - 1 - j)) := by
  induction n generalizing j with
  | zero => simp [bitsReceived]
  | succ n ih =>
    rw [bitsReceived, BitVec.getLsbD_shiftConcat]
    cases j with
    | zero => simp
    | succ j => simp [hj, ih (j := j) (by omega), show n - (j + 1) = n - 1 - j by omega]

/-- The word whose bits arrive, most significant first, is received. -/
theorem bitsReceived_getMsbD (r : Word16) : bitsReceived r.getMsbD 16 = r := by
  apply BitVec.eq_of_getLsbD_eq
  intro j hj
  rw [getLsbD_bitsReceived _ _ hj, BitVec.getMsbD_eq_getLsbD]
  simp [hj, show 15 - j < 16 by omega, show 15 - (15 - j) = j by omega]

theorem bitsReceived_congr {f g : Nat → Bool} {n : Nat} (h : ∀ i, i < n → f i = g i) :
    bitsReceived f n = bitsReceived g n := by
  induction n with
  | zero => rfl
  | succ n ih => rw [bitsReceived, bitsReceived, ih fun i hi => h i (by omega), h n (by omega)]

/-- Every bit of a response is sampled before the frame's completion (41_transactor R137, R140). -/
theorem sampleEdgeAt_le_completeEdgeAt (p : Params) (k0 : Nat) {i : Nat} (hi : i < 16) :
    sampleEdgeAt p k0 i ≤ completeEdgeAt p k0 := by
  have hphase : p.phase ≤ 1 := Bool.toNat_le p.cpha
  exact Nat.add_le_add_left (Nat.mul_le_mul_right p.div (by omega)) k0

/-- The response depends only on the levels of MISO up to the completion. -/
theorem responseAt_congr {p : Params} {k0 : Nat} {env env' : Env} {log log' : List Event}
    (h : ∀ k, k ≤ completeEdgeAt p k0 → misoLevel env log k = misoLevel env' log' k) :
    responseAt p env log k0 = responseAt p env' log' k0 :=
  bitsReceived_congr fun _ hi => h _ (sampleEdgeAt_le_completeEdgeAt p k0 hi)

/-- Levels of MISO that answer the frame accepted at `k0` with `r`: each SCLK edge finds the bit of its pair of edges. -/
def answerLevels (p : Params) (k0 : Nat) (r : Word16) : List Bool :=
  (List.range (completeEdgeAt p k0 + 1)).map fun k => r.getMsbD (((k - k0) / p.div - 1) / 2)

theorem misoLevel_answerLevels {p : Params} {env : Env} {k0 : Nat} {r : Word16} (hm : env.miso = answerLevels p k0 r)
    (log : List Event) {i : Nat} (hi : i < 16) : misoLevel env log (sampleEdgeAt p k0 i) = r.getMsbD i := by
  have hlisted : sampleEdgeAt p k0 i < completeEdgeAt p k0 + 1 :=
    Nat.lt_succ_of_le (sampleEdgeAt_le_completeEdgeAt p k0 hi)
  have hpair : ((sampleEdgeAt p k0 i - k0) / p.div - 1) / 2 = i := by
    have hphase : p.phase ≤ 1 := Bool.toNat_le p.cpha
    rw [sampleEdgeAt, sclkEdgeAt, Nat.add_sub_cancel_left, Nat.mul_div_cancel _ (div_pos p)]
    omega
  simp [misoLevel, hm, answerLevels, hlisted, hpair]

theorem responseAt_answerLevels {p : Params} {env : Env} {k0 : Nat} {r : Word16} (hm : env.miso = answerLevels p k0 r)
    (log : List Event) : responseAt p env log k0 = r :=
  (bitsReceived_congr fun _ hi => misoLevel_answerLevels hm log hi).trans (bitsReceived_getMsbD r)

/-- The state with the levels of MISO that answer its next frame with `r`. -/
def State.answeredBy (s : State) (r : Word16) : State :=
  { s with env := { s.env with miso := answerLevels s.params s.acceptEdge r } }

theorem State.Ready.answeredBy {s : State} (hs : s.Ready) (r : Word16) : (s.answeredBy r).Ready := hs.congr rfl rfl rfl rfl

@[simp] theorem State.frameResponse_answeredBy (s : State) (r : Word16) (q : Request) :
    (s.answeredBy r).frameResponse q = r := responseAt_answerLevels rfl _

/-! ### The encoder's word, read back (30_encoding R82, R83) -/

/-- The channel stands above the padding and six fields of ten bits in all (30_encoding R80). -/
theorem unpackCmd_encodeWord_ch (f : CmdFields) : (unpackCmd (encodeWord f)).ch = f.ch := by
  apply BitVec.eq_of_getLsbD_eq
  intro j hj
  have hplace : 10 + j - 4 - 1 - 1 - 1 - 1 - 2 = j := by omega
  simp only [unpackCmd, encodeWord, payload12, BitVec.getLsbD_extractLsb', BitVec.getLsbD_append, hplace, hj]
  iterate 6 rw [if_neg (by omega)]
  rfl

theorem cmdWrite_encodeWord (f : CmdFields) : cmdWrite (encodeWord f) = true := by
  simp only [cmdWrite, encodeWord, payload12, BitVec.getLsbD_append]
  iterate 8 rw [if_neg (by omega)]
  rfl

theorem cmdPad_encodeWord (f : CmdFields) : cmdPad (encodeWord f) = 0 := by
  apply BitVec.eq_of_getLsbD_eq
  intro j hj
  rw [cmdPad, encodeWord, BitVec.getLsbD_extractLsb', BitVec.getLsbD_append, if_pos (by omega)]
  simp

theorem isEncodedWrite_encodeWord (f : CmdFields) : isEncodedWrite (encodeWord f) = true := by
  rw [isEncodedWrite, cmdWrite_encodeWord, cmdPad_encodeWord]
  rfl
/-- `DEV_PIPELINE` of a frame that follows an encoded write word (20_memory R62). -/
theorem DevPipeline.sample_after_encodeWord {isSampleOf : Channel → Nat → Sample → Prop} {k k0 k' k0' : Nat}
    {r w r' : Word16} {f : CmdFields} {earlier : List Event}
    (h : DevPipeline isSampleOf
      (.complete k r :: .accept k0 w :: .complete k' r' :: .accept k0' (encodeWord f) :: earlier)) :
    isSampleOf f.ch k (extractSample r) := by
  have hsample := h.1 _ rfl (isEncodedWrite_encodeWord f)
  rwa [unpackCmd_encodeWord_ch] at hsample

/-! ### The obligations -/

/-- Settles O29: by the three cases of what a frame does to the device, a write word, a non-write word, the all-ones word. -/
theorem writeFrameLoadsTheControlRegister : Obligations.WriteFrameLoadsTheControlRegister := by
  intro s w t hs hc hd he
  obtain rfl := eq_of_exec_xferRaw hs hc he
  rw [State.setResult_dev, State.afterFrame_dev]
  refine ⟨fun hw h1 => ?_, fun hw => ?_, fun h1 => ?_⟩
  · rw [requestWord, Device.afterFrame_write hd hw h1]
    exact ⟨rfl, rfl, rfl⟩
  · rw [requestWord, Device.afterFrame_nonWrite hw]
    exact ⟨rfl, rfl⟩
  · obtain rfl : w = onesWord := h1
    rw [requestWord, Device.afterFrame_onesWord]
    exact ⟨rfl, rfl⟩

/-- Settles O30: MISO carries the bits of the wanted word at the frame's sampling edges. -/
theorem everyResponseWordIsPossible : Obligations.EveryResponseWordIsPossible := by
  intro s w r hs hc
  have hready := hs.answeredBy r
  have hrun := execXfer_undisturbed (.raw w) hready hc
  have hword := hready.rspWord_afterFrame (.raw w)
  rw [State.frameResponse_answeredBy] at hrun hword
  exact ⟨answerLevels s.params s.acceptEdge r, _, hrun, rfl, hword⟩

/-- Settles O31: the response is made of levels before the completion, which the premise equates. -/
theorem responseIndependentOfItsOwnWord : Obligations.ResponseIndependentOfItsOwnWord := by
  intro s w v t u hlag hs hc ht hu
  have hresponse : s.frameResponse (.raw w) = s.frameResponse (.raw v) := responseAt_congr (hlag w v)
  obtain rfl := eq_of_exec_xferRaw hs hc ht
  obtain rfl := eq_of_exec_xferRaw hs hc hu
  constructor
  · rw [State.setResult_result, State.setResult_result, hresponse]
  · rw [State.rspWord_setResult, State.rspWord_setResult, hs.rspWord_afterFrame, hs.rspWord_afterFrame, hresponse]

/-- Settles O35: READ's first frame carries an encoded write word of its channel, so the premise speaks of its second frame. -/
theorem primedReadSamplesItsChannel : Obligations.PrimedReadSamplesItsChannel := by
  intro isSampleOf s t c v h0 h15 hs hc he hv hpipe
  rw [exec_read, execRead_undisturbed h0 h15 hs hc] at he
  cases he
  injection hv with hv
  rw [← hv]
  rw [State.setResult_log, State.markPrimed_log, State.afterReadFrames_log] at hpipe
  exact hpipe.sample_after_encodeWord

end Sys2Proof.Machine
end

section
/-! The encodings' obligations (30_encoding): the bits of the encoder's word and of a request record, read by their places, and
the line of text of every operation. -/

namespace Sys2Proof.Machine

/-! ### Bit strings -/

/-- Putting `y` below `x` multiplies by the weight of `x`'s lowest bit. -/
theorem toNat_append_eq_add {m n : Nat} (x : BitVec m) (y : BitVec n) : (x ++ y).toNat = x.toNat * 2 ^ n + y.toNat := by
  rw [BitVec.toNat_append, ← Nat.shiftLeft_add_eq_or_of_lt y.isLt, Nat.shiftLeft_eq]

/-- A slice inside a slice on which two bit strings agree. -/
theorem extractLsb'_eq_of_extractLsb'_eq {m lo n : Nat} {b c : BitVec m} (h : b.extractLsb' lo n = c.extractLsb' lo n)
    {i len : Nat} (hi : lo ≤ i) (hlen : i + len ≤ lo + n) : b.extractLsb' i len = c.extractLsb' i len := by
  apply BitVec.eq_of_getLsbD_eq
  intro j hj
  have hbit := congrArg (fun x : BitVec n => x.getLsbD (i - lo + j)) h
  have hin : i - lo + j < n := by omega
  have hplace : lo + (i - lo + j) = i + j := by omega
  simpa [BitVec.getLsbD_extractLsb', hin, hplace, hj] using hbit

/-! ### The encoder's word (30_encoding R81 to R83) -/

theorem encodeWord_eq_shiftLeft (f : CmdFields) : encodeWord f = (payload12 f).setWidth 16 <<< 4 := by
  have h := BitVec.setWidth_append_eq_shiftLeft_setWidth_or (b := payload12 f) (b' := (0 : BitVec 4)) (w'' := 16)
  rw [BitVec.setWidth_eq] at h
  rw [encodeWord, h]
  simp

theorem toNat_encodeWord (f : CmdFields) :
    (encodeWord f).toNat =
      0x8000 + f.cfg.seq.toNat * 0x4000 + f.ch.toNat * 0x0400 + f.cfg.pm.toNat * 0x0100 + f.cfg.shadow.toNat * 0x0080
        + f.cfg.weak.toNat * 0x0040 + f.cfg.range.toNat * 0x0020 + f.cfg.coding.toNat * 0x0010 := by
  simp only [encodeWord, payload12, toNat_append_eq_add, BitVec.ofNat_eq_ofNat, BitVec.toNat_ofNat]
  omega

/-- Each field lies at its place of R82, so it is cut out by passing over what stands below it. -/
theorem unpackCmd_encodeWord (f : CmdFields) : unpackCmd (encodeWord f) = f := by
  simp (disch := omega) only [unpackCmd, encodeWord, payload12, BitVec.extractLsb'_append_eq_of_le, Nat.reduceSub,
    BitVec.extractLsb'_append_eq_right]

theorem encodeWord_injective : Function.Injective encodeWord := Function.LeftInverse.injective unpackCmd_encodeWord

theorem isEncodedWrite_iff (w : Word16) : isEncodedWrite w = true ↔ w.getLsbD 15 = true ∧ w.extractLsb' 0 4 = 0 := by
  rw [isEncodedWrite, Bool.and_eq_true, beq_iff_eq]
  rfl

/-- The fields of a word with a 1 above them and zeros below are put together to the word again: neighbouring slices join. -/
theorem encodeWord_unpackCmd {w : Word16} (h : isEncodedWrite w = true) : encodeWord (unpackCmd w) = w := by
  obtain ⟨hwrite, hpad⟩ := (isEncodedWrite_iff w).1 h
  have htop : w.extractLsb' 15 1 = 1 := by
    rwa [BitVec.getLsbD_eq_extractLsb', beq_iff_eq] at hwrite
  simp (disch := rfl) only [encodeWord, payload12, unpackCmd, ← htop, ← hpad,
    BitVec.extractLsb'_append_extractLsb'_eq_extractLsb']
  exact BitVec.extractLsb'_eq_self

/-- The encoded write words are the image of the encoder. -/
theorem isEncodedWrite_iff_exists_encodeWord (w : Word16) : isEncodedWrite w = true ↔ ∃ f, encodeWord f = w := by
  constructor
  · intro h
    exact ⟨unpackCmd w, encodeWord_unpackCmd h⟩
  · rintro ⟨f, rfl⟩
    exact isEncodedWrite_encodeWord f

/-! ### The frame decoder (30_encoding R83, R90) -/

theorem decodeCmd_encodeWord (f : CmdFields) : decodeCmd (encodeWord f) = .writeFrame f := by
  have hwrite := isEncodedWrite_encodeWord f
  have hzero : encodeWord f ≠ zeroWord := fun h => by rw [h] at hwrite; exact absurd hwrite (by decide)
  have hones : encodeWord f ≠ onesWord := fun h => by rw [h] at hwrite; exact absurd hwrite (by decide)
  rw [decodeCmd, if_neg hzero, if_neg hones, if_pos hwrite, unpackCmd_encodeWord]

theorem decodeCmd_of_not_encodedWrite {w : Word16} (hzero : w ≠ zeroWord) (hones : w ≠ onesWord)
    (hwrite : ¬ isEncodedWrite w = true) : decodeCmd w = .xferRaw w := by
  rw [decodeCmd, if_neg hzero, if_neg hones, if_neg hwrite]

/-! ### The request record (30_encoding R85) -/

theorem decodeReq_raw {b : BitVec 28} (h : b.getLsbD 0 = true) : decodeReq b = .xferRaw (b.extractLsb' 1 16) := by
  rw [decodeReq, if_pos h]

/-- The fields of an `XFER_ENC` record, all given. -/
theorem decodeReq_enc {b : BitVec 28} (h : b.getLsbD 0 = false) :
    decodeReq b =
      .xferEnc (b.extractLsb' 17 4)
        (Cfg.asOverride
          { seq := b.extractLsb' 21 1, pm := b.extractLsb' 22 2, shadow := b.extractLsb' 24 1, weak := b.extractLsb' 25 1
            range := b.extractLsb' 26 1, coding := b.extractLsb' 27 1 }) := by
  rw [decodeReq, if_neg (ne_true_of_eq_false h)]
  rfl

theorem getLsbD_zero_packReq_raw (w : Word16) : (packReq (.raw w)).getLsbD 0 = true := by
  rw [packReq, BitVec.getLsbD_append, if_pos Nat.one_pos]
  rfl

theorem getLsbD_zero_packReq_enc (f : CmdFields) : (packReq (.enc f)).getLsbD 0 = false := by
  rw [packReq, BitVec.getLsbD_append, if_pos Nat.one_pos]
  rfl

theorem decodeReq_packReq_raw (w : Word16) : decodeReq (packReq (.raw w)) = .xferRaw w := by
  have hword : (packReq (.raw w)).extractLsb' 1 16 = w := by
    rw [packReq, BitVec.extractLsb'_append_eq_of_le (Nat.le_refl 1)]
    exact BitVec.extractLsb'_append_eq_right
  rw [decodeReq_raw (getLsbD_zero_packReq_raw w), hword]

theorem decodeReq_packReq_enc (f : CmdFields) : decodeReq (packReq (.enc f)) = .xferEnc f.ch f.cfg.asOverride := by
  rw [decodeReq_enc (getLsbD_zero_packReq_enc f)]
  simp (disch := omega) only [packReq, BitVec.extractLsb'_append_eq_of_le, Nat.reduceSub, BitVec.extractLsb'_append_eq_right,
    BitVec.extractLsb'_eq_self]

/-- Bits 16:0 are all that an `XFER_RAW` record says. -/
theorem decodeReq_raw_congr {b c : BitVec 28} (h : b.extractLsb' 0 17 = c.extractLsb' 0 17) (hb : b.getLsbD 0 = true) :
    decodeReq b = decodeReq c := by
  have hop : c.getLsbD 0 = true := by
    rw [← hb, BitVec.getLsbD_eq_extractLsb', BitVec.getLsbD_eq_extractLsb',
      extractLsb'_eq_of_extractLsb'_eq h (i := 0) (len := 1) (by omega) (by omega)]
  rw [decodeReq_raw hb, decodeReq_raw hop, extractLsb'_eq_of_extractLsb'_eq h (by omega) (by omega)]

/-- Bit 0 and bits 27:17 are all that an `XFER_ENC` record says. -/
theorem decodeReq_enc_congr {b c : BitVec 28} (hb : b.getLsbD 0 = false) (hc : c.getLsbD 0 = false)
    (h : b.extractLsb' 17 11 = c.extractLsb' 17 11) : decodeReq b = decodeReq c := by
  have hslice {i len : Nat} (hi : 17 ≤ i) (hlen : i + len ≤ 28) : b.extractLsb' i len = c.extractLsb' i len :=
    extractLsb'_eq_of_extractLsb'_eq h hi hlen
  rw [decodeReq_enc hb, decodeReq_enc hc]
  simp (disch := omega) only [hslice]

/-! ### The line of text (30_encoding R91) -/

/-- The line of an operation is read back token by token: its mnemonic, then each operand as R91 writes it. -/
theorem decode_encode (i : Instr) : decode (encode i) = .ok i := by
  cases i with
  | encode f => exact Laws.RoundTrip.encode f
  | xferEnc ch o => exact Laws.RoundTrip.xferEnc ch o
  | xferRaw w => exact Laws.RoundTrip.xferRaw w
  | extract src => exact Laws.RoundTrip.extract src
  | writeFrame f => exact Laws.RoundTrip.writeFrame f
  | nopFrame => exact Laws.RoundTrip.nopFrame
  | onesFrame => exact Laws.RoundTrip.onesFrame
  | read c => exact Laws.RoundTrip.read c
  | resetSeq => exact Laws.RoundTrip.resetSeq
  | delay n => exact Laws.RoundTrip.delay n
  | setSeq v => exact Laws.RoundTrip.setSeq v
  | setPm v => exact Laws.RoundTrip.setPm v
  | setShadow v => exact Laws.RoundTrip.setShadow v
  | setWeak v => exact Laws.RoundTrip.setWeak v
  | setRange v => exact Laws.RoundTrip.setRange v
  | setCoding v => exact Laws.RoundTrip.setCoding v

/-! ### The obligations -/

/-- Settles O11: a line is split at its spaces, which no token holds, and each kind of operand is read back from its token. -/
theorem everyOperationReadsBackFromItsLine : Obligations.EveryOperationReadsBackFromItsLine := decode_encode

/-- Settles O3: the encoder's image is told by bit 15 and the padding, and neither named word is in it. -/
theorem commandWordsFallInTheirClasses : Obligations.CommandWordsFallInTheirClasses := by
  refine ⟨fun w => ?_, rfl, rfl, decodeCmd_encodeWord, fun w hzero hones himage => ?_⟩
  · rw [← isEncodedWrite_iff, isEncodedWrite_iff_exists_encodeWord]
  · apply decodeCmd_of_not_encodedWrite hzero hones
    rw [isEncodedWrite_iff_exists_encodeWord]
    rintro ⟨f, hf⟩
    exact himage f hf

/-- Settles O1: the layout is the encoder's definition, and each part of it weighs as much as the bits below it make it. -/
theorem encodeAssemblesPayloadAndPadding : Obligations.EncodeAssemblesPayloadAndPadding :=
  fun f => ⟨rfl, rfl, encodeWord_eq_shiftLeft f, toNat_encodeWord f⟩

/-- Settles O2: field decoding is a left inverse of the encoder, so the encoder is injective. -/
theorem fieldDecodingInvertsEncode : Obligations.FieldDecodingInvertsEncode := by
  refine ⟨fun w => ⟨rfl, rfl, rfl, rfl, rfl, rfl, rfl, rfl, rfl⟩, fun f => ?_, fun f g h => encodeWord_injective h⟩
  exact ⟨unpackCmd_encodeWord f, cmdWrite_encodeWord f, cmdPad_encodeWord f⟩

/-- Settles O10: a record is read at the places it was written to, and the decoder looks at no bits of the other operation. -/
theorem requestRecordsReadBack : Obligations.RequestRecordsReadBack :=
  ⟨decodeReq_packReq_raw, decodeReq_packReq_enc, fun _ _ => decodeReq_raw_congr, fun _ _ => decodeReq_enc_congr⟩

/-- Settles O12: each word and line is closed, and the decoder evaluates it. -/
theorem writtenOutWordsDecode : Obligations.WrittenOutWordsDecode :=
  ⟨rfl, rfl, rfl, rfl, rfl, rfl, rfl, rfl⟩

end Sys2Proof.Machine
end

section
/-! The encoder's obligations (40_encoder): what each input does to the word, and what the port `enc_word` shows. -/

namespace Sys2Proof.Machine

/-! ### The bits of the encoder's word (30_encoding R82) -/

/-- The places of R82, none of which two inputs share. -/
theorem getLsbD_encodeWord (f : CmdFields) (j : Nat) :
    (encodeWord f).getLsbD j =
      (decide (j = 15) || decide (j = 14) && f.cfg.seq.getLsbD 0 || decide (10 ≤ j ∧ j ≤ 13) && f.ch.getLsbD (j - 10)
        || decide (8 ≤ j ∧ j ≤ 9) && f.cfg.pm.getLsbD (j - 8) || decide (j = 7) && f.cfg.shadow.getLsbD 0
        || decide (j = 6) && f.cfg.weak.getLsbD 0 || decide (j = 5) && f.cfg.range.getLsbD 0
        || decide (j = 4) && f.cfg.coding.getLsbD 0) := by
  by_cases hj : j < 16
  · simp only [encodeWord, payload12, BitVec.getLsbD_append]
    interval_cases j <;> simp
  · rw [BitVec.getLsbD_of_ge _ _ (by omega)]
    simp (disch := omega) only [decide_eq_false, Bool.false_and, Bool.or_false]

/-! ### The operation and the port `enc_word` -/

theorem exec_encode (f : CmdFields) (s : State) :
    exec (.encode f) s =
      .next (State.setResult { s with ports := { s.ports with ch := f.ch, cfg := f.cfg } } (.word (encodeWord f))) := rfl

/-- The host's levels stand on the ports unless another requester drives them (20_memory R68; entry 19). -/
theorem State.livePorts_eq_ports {s : State} (h : s.ports.reqValid = true ∨ s.rival = none) : s.livePorts = s.ports := by
  rcases h with hvalid | hrival
  · rw [State.livePorts, if_pos hvalid]
  · rw [State.livePorts, hrival, ite_self]

theorem State.encWord_congr {s t : State} (hch : s.livePorts.ch = t.livePorts.ch) (hcfg : s.livePorts.cfg = t.livePorts.cfg) :
    s.encWord = t.encWord := by
  rw [State.encWord, hch, hcfg, State.encWord]

theorem State.encWord_eq_of_no_rival {s : State} (h : s.ports.reqValid = true ∨ s.rival = none) :
    s.encWord = encodeWord { ch := s.ports.ch, cfg := s.ports.cfg } := by
  rw [State.encWord, State.livePorts_eq_ports h]

/-! ### The obligations -/

/-- Settles O4: no bit outside the changed input's place reads that input, and the word is the sum of the inputs' weights. -/
theorem eachInputChangesOnlyItsBits : Obligations.EachInputChangesOnlyItsBits := by
  intro f j
  refine ⟨?seq, ?ch, ?pm, ?shadow, ?weak, ?range, ?coding⟩
  all_goals
    intro v g
    refine ⟨fun hj => ?bits, ?weight⟩
    case bits => simp (disch := omega) only [g, getLsbD_encodeWord, decide_eq_false, Bool.false_and]
    case weight =>
      simp only [g, toNat_encodeWord]
      omega

/-- Settles O5: `enc_word` is defined from the field ports of the cycle alone. -/
theorem encWordDependsOnFieldPortsOnly : Obligations.EncWordDependsOnFieldPortsOnly :=
  ⟨fun _ => rfl, fun _ _ => State.encWord_congr⟩

/-- Settles O7: ENCODE leaves `req_valid` and the other requesters as they were, so where they leave the ports to the host
`enc_word` reads the operands it has driven. -/
theorem encodeCompletesWithItsWord : Obligations.EncodeCompletesWithItsWord := by
  intro f s
  refine ⟨exec_encode f s, fun t ht hfree => ?_⟩
  rw [exec_encode] at ht
  cases ht
  exact State.encWord_eq_of_no_rival hfree

end Sys2Proof.Machine
end

section
/-! The transactor's obligations (41_transactor): the arms of the block's clk edge, which inputs reach which registers,
and a frame followed edge by edge from its acceptance to the end of its gap. -/

namespace Sys2Proof.Machine

open Sys2Proof.Claims

/-! ### The arms of one clk edge (41_transactor R130) -/

section
variable {p : Params} {b : Block} {i : Inputs}

theorem Block.edge_reset (hr : i.rst = true) : b.edge p i = .resetValue p := if_pos hr

theorem Block.idleEdge_of_no_request (hv : i.ports.reqValid = false) : b.idleEdge p i = { b with rspValidQ := false } := by
  simp [Block.idleEdge, hv]

theorem Block.edge_quiet (hr : i.rst = false) (hf : b.fsm = .idle) (hv : i.ports.reqValid = false) :
    b.edge p i = { b with rspValidQ := false } := by
  simp [Block.edge, hr, hf, Block.idleEdge_of_no_request hv]

theorem Block.edge_accept (hr : i.rst = false) (hf : b.fsm = .idle) (hv : i.ports.reqValid = true) :
    b.edge p i =
      { b with
        fsm := .active, divCnt := 0, ph := 0, rxSr := 0x0000, rspValidQ := false, csNQ := false
        mosiQ := if p.cpha then false else i.ports.frameWord.getLsbD 15
        txSr := if p.cpha then i.ports.frameWord else i.ports.frameWord <<< 1 } := by
  simp [Block.edge, hr, hf, Block.idleEdge, hv]

/-- Between ticks of the divider, in ACTIVE (R133) and in GAP (R144). -/
theorem Block.edge_count (hr : i.rst = false) (hf : b.fsm ≠ .idle) (hd : b.divCnt ≠ p.div - 1) :
    b.edge p i = { b with rspValidQ := false, divCnt := b.divCnt + 1 } := by
  cases hs : b.fsm
  case idle => exact absurd hs hf
  case active => simp [Block.edge, hr, hs, Block.activeEdge, hd]
  case gap => simp [Block.edge, hr, hs, Block.gapEdge, hd]

theorem Block.edge_sclk (hr : i.rst = false) (hf : b.fsm = .active) (hd : b.divCnt = p.div - 1) (hp : b.ph ≤ 31) :
    b.edge p i = b.sclkEdge p i := by
  simp [Block.edge, hr, hf, Block.activeEdge, hd, hp]

theorem Block.edge_complete (hr : i.rst = false) (hf : b.fsm = .active) (hd : b.divCnt = p.div - 1) (hp : 31 < b.ph) :
    b.edge p i = b.completeEdge := by
  simp [Block.edge, hr, hf, Block.activeEdge, hd, Nat.not_le.2 hp]

theorem Block.edge_gapEnd (hr : i.rst = false) (hf : b.fsm = .gap) (hd : b.divCnt = p.div - 1) :
    b.edge p i = { b with rspValidQ := false, divCnt := 0, fsm := .idle } := by
  simp [Block.edge, hr, hf, Block.gapEdge, hd]

end

/-- Which arm of the step function an edge takes; every edge takes one (`Block.edge_arm`). -/
inductive Block.EdgeArm (p : Params) (b : Block) (i : Inputs) : Prop
  | reset (hr : i.rst = true)
  | quiet (hr : i.rst = false) (hf : b.fsm = .idle) (hv : i.ports.reqValid = false)
  | accept (hr : i.rst = false) (hf : b.fsm = .idle) (hv : i.ports.reqValid = true)
  | count (hr : i.rst = false) (hf : b.fsm ≠ .idle) (hd : b.divCnt ≠ p.div - 1)
  | sclk (hr : i.rst = false) (hf : b.fsm = .active) (hd : b.divCnt = p.div - 1) (hp : b.ph ≤ 31)
  | complete (hr : i.rst = false) (hf : b.fsm = .active) (hd : b.divCnt = p.div - 1) (hp : 31 < b.ph)
  | gapEnd (hr : i.rst = false) (hf : b.fsm = .gap) (hd : b.divCnt = p.div - 1)

theorem Block.edge_arm (p : Params) (b : Block) (i : Inputs) : b.EdgeArm p i := by
  cases hr : i.rst with
  | true => exact .reset hr
  | false =>
    cases hf : b.fsm with
    | idle =>
      cases hv : i.ports.reqValid with
      | false => exact .quiet hr hf hv
      | true => exact .accept hr hf hv
    | active =>
      by_cases hd : b.divCnt = p.div - 1
      · rcases Nat.lt_or_ge 31 b.ph with hp | hp
        · exact .complete hr hf hd hp
        · exact .sclk hr hf hd hp
      · exact .count hr (by simp [hf]) hd
    | gap =>
      by_cases hd : b.divCnt = p.div - 1
      · exact .gapEnd hr hf hd
      · exact .count hr (by simp [hf]) hd

/-! ### An SCLK edge, and what accepts a request -/

@[simp] theorem Block.sclkEdge_rspValidQ (p : Params) (b : Block) (i : Inputs) : (b.sclkEdge p i).rspValidQ = false := by
  unfold Block.sclkEdge; split <;> rfl
@[simp] theorem Block.sclkEdge_rspWordQ (p : Params) (b : Block) (i : Inputs) : (b.sclkEdge p i).rspWordQ = b.rspWordQ := by
  unfold Block.sclkEdge; split <;> rfl

/-- The parity that samples is that of `CPHA` (41_transactor R137). -/
theorem Block.samples_iff (p : Params) (b : Block) :
    (decide (b.ph % 2 = 0) == !p.cpha) = true ↔ b.ph % 2 = p.phase := by
  cases hc : p.cpha <;> simp [Params.phase, hc]

/-- An SCLK edge that does not sample shifts, and looks at no input. -/
theorem Block.sclkEdge_shift {p : Params} {b : Block} (hs : b.ph % 2 ≠ p.phase) (i : Inputs) :
    b.sclkEdge p i =
      { b with
        rspValidQ := false, divCnt := 0, sclkQ := !b.sclkQ, ph := b.ph + 1
        mosiQ := b.txSr.getLsbD 15
        txSr := b.txSr <<< 1 } :=
  if_neg ((Block.samples_iff p b).not.2 hs)

theorem Block.sclkEdge_sample {p : Params} {b : Block} (hs : b.ph % 2 = p.phase) (i : Inputs) :
    b.sclkEdge p i =
      { b with
        rspValidQ := false, divCnt := 0, sclkQ := !b.sclkQ, ph := b.ph + 1
        rxSr := b.rxSr.shiftConcat i.miso } :=
  if_pos ((Block.samples_iff p b).2 hs)

theorem Block.accepts_iff (b : Block) (i : Inputs) :
    b.accepts i = true ↔ i.rst = false ∧ b.fsm = .idle ∧ i.ports.reqValid = true := by
  simp [Block.accepts, Block.reqReady]

theorem Block.accepts_of_not_idle {b : Block} (hf : b.fsm ≠ .idle) (i : Inputs) : b.accepts i = false := by
  simp [Block.accepts, Block.reqReady, hf]

/-! ### Which inputs reach the registers -/

/-- Two inputs with the same `rst` lead to the same block if they do in IDLE and at an SCLK edge: no other arm looks at an input. -/
theorem Block.edge_congr {p : Params} {b : Block} {i j : Inputs} (hrst : i.rst = j.rst)
    (hidle : i.rst = false → b.fsm = .idle → b.idleEdge p i = b.idleEdge p j)
    (hsclk : b.fsm = .active → b.divCnt = p.div - 1 → b.ph ≤ 31 → b.sclkEdge p i = b.sclkEdge p j) :
    b.edge p i = b.edge p j := by
  rw [Block.edge, Block.edge, ← hrst]
  split
  · rfl
  next hr =>
    cases hf : b.fsm with
    | idle => exact hidle (Bool.eq_false_of_not_eq_true hr) hf
    | active =>
      by_cases hd : b.divCnt = p.div - 1
      · by_cases hp : b.ph ≤ 31
        · simp only [Block.activeEdge, hsclk hf hd hp]
        · simp only [Block.activeEdge, hp, if_false]
      · simp only [Block.activeEdge, if_pos hd]
    | gap => rfl

theorem Block.idleEdge_congr {p : Params} {b : Block} {i j : Inputs} (h : i.ports = j.ports) :
    b.idleEdge p i = b.idleEdge p j := by
  rw [Block.idleEdge, Block.idleEdge, h]

/-- The request and field inputs reach no register at an edge that is no acceptance (41_transactor R147). -/
theorem Block.edge_congr_of_not_accepts {b : Block} {i j : Inputs} (p : Params) (hrst : i.rst = j.rst)
    (hmiso : i.miso = j.miso) (hi : b.accepts i = false) (hj : b.accepts j = false) : b.edge p i = b.edge p j := by
  refine Block.edge_congr hrst (fun hr hf => ?idle) fun _ _ _ => ?sclk
  case idle =>
    have hvi : i.ports.reqValid = false := by simpa [Block.accepts, Block.reqReady, hr, hf] using hi
    have hvj : j.ports.reqValid = false := by simpa [Block.accepts, Block.reqReady, ← hrst, hr, hf] using hj
    rw [Block.idleEdge_of_no_request hvi, Block.idleEdge_of_no_request hvj]
  case sclk => rw [Block.sclkEdge, Block.sclkEdge, hmiso]

/-- `miso` reaches no register at an edge that does not sample (41_transactor R148). -/
theorem Block.edge_congr_of_not_sampling {p : Params} {b : Block} {i j : Inputs} (hrst : i.rst = j.rst)
    (hports : i.ports = j.ports) (hs : ¬ samplingEdge p b) : b.edge p i = b.edge p j := by
  refine Block.edge_congr hrst (fun _ _ => Block.idleEdge_congr hports) fun hf hd hp => ?_
  have hshift : b.ph % 2 ≠ p.phase := fun h => hs ⟨hf, hd, hp, h⟩
  rw [Block.sclkEdge_shift hshift, Block.sclkEdge_shift hshift]

/-- The block without the two registers that hold received bits, `rx_sr` and `rsp_word`. -/
def Block.withoutReceived (b : Block) : Block := { b with rxSr := 0x0000, rspWordQ := 0x0000 }

/-- `miso` and the two registers of received bits reach no other register (41_transactor R127). -/
theorem Block.edge_withoutReceived {i j : Inputs} (p : Params) (b : Block) (hrst : i.rst = j.rst) (hports : i.ports = j.ports) :
    (b.edge p i).withoutReceived = (b.withoutReceived.edge p j).withoutReceived := by
  cases b.edge_arm p i with
  | reset hr => rw [Block.edge_reset hr, Block.edge_reset (hrst ▸ hr)]
  | quiet hr hf hv =>
    rw [Block.edge_quiet hr hf hv, Block.edge_quiet (b := b.withoutReceived) (hrst ▸ hr) hf (hports ▸ hv)]; rfl
  | accept hr hf hv =>
    rw [Block.edge_accept hr hf hv, Block.edge_accept (b := b.withoutReceived) (hrst ▸ hr) hf (hports ▸ hv), hports]; rfl
  | count hr hf hd =>
    rw [Block.edge_count hr hf hd, Block.edge_count (b := b.withoutReceived) (hrst ▸ hr) hf hd]; rfl
  | sclk hr hf hd hp =>
    rw [Block.edge_sclk hr hf hd hp, Block.edge_sclk (b := b.withoutReceived) (hrst ▸ hr) hf hd hp]
    by_cases hs : b.ph % 2 = p.phase
    · rw [Block.sclkEdge_sample hs, Block.sclkEdge_sample (b := b.withoutReceived) hs]; rfl
    · rw [Block.sclkEdge_shift hs, Block.sclkEdge_shift (b := b.withoutReceived) hs]; rfl
  | complete hr hf hd hp =>
    rw [Block.edge_complete hr hf hd hp, Block.edge_complete (b := b.withoutReceived) (hrst ▸ hr) hf hd hp]; rfl
  | gapEnd hr hf hd =>
    rw [Block.edge_gapEnd hr hf hd, Block.edge_gapEnd (b := b.withoutReceived) (hrst ▸ hr) hf hd]; rfl

theorem blockAt_withoutReceived_congr {f g : Nat → Inputs} (p : Params) (b : Block)
    (h : ∀ k, (f k).rst = (g k).rst ∧ (f k).ports = (g k).ports) (n : Nat) :
    (blockAt p f b n).withoutReceived = (blockAt p g b n).withoutReceived := by
  induction n with
  | zero => rfl
  | succ n ih =>
    calc (blockAt p f b (n + 1)).withoutReceived
        = ((blockAt p f b n).withoutReceived.edge p (g n)).withoutReceived :=
          Block.edge_withoutReceived p _ (h n).1 (h n).2
      _ = ((blockAt p g b n).withoutReceived.edge p (g n)).withoutReceived := by rw [ih]
      _ = (blockAt p g b (n + 1)).withoutReceived := (Block.edge_withoutReceived p _ rfl rfl).symm

/-! ### The pins and the response -/

/-- Chip-select, SCLK and MOSI outside a frame (41_transactor R124). -/
theorem Block.Inv.idlePins {p : Params} {b : Block} (h : b.Inv p) (hf : b.fsm ≠ .active) :
    b.csNQ = true ∧ b.sclkQ = p.cpol ∧ b.mosiQ = false :=
  ⟨by simp [h.cs, hf], by simp [h.sclk, h.ph_zero hf], h.mosi hf⟩

/-- A frame is in progress only if it was, or starts at this edge. -/
theorem Block.active_of_edge_active {p : Params} {b : Block} {i : Inputs} (h : (b.edge p i).fsm = .active) :
    b.fsm = .active ∨ b.accepts i = true := by
  cases b.edge_arm p i with
  | reset hr => rw [Block.edge_reset hr] at h; cases h
  | quiet hr hf hv => rw [Block.edge_quiet hr hf hv] at h; exact .inl h
  | accept hr hf hv => exact .inr ((b.accepts_iff i).2 ⟨hr, hf, hv⟩)
  | count hr hf hd => rw [Block.edge_count hr hf hd] at h; exact .inl h
  | sclk hr hf hd hp => exact .inl hf
  | complete hr hf hd hp => exact .inl hf
  | gapEnd hr hf hd => rw [Block.edge_gapEnd hr hf hd] at h; cases h

/-- No edge but the completion tick sets `rsp_valid`, and none but that and a reset writes `rsp_word` (41_transactor R143). -/
theorem Block.edge_response_of_not_complete {p : Params} {b : Block} {i : Inputs} (hle : b.ph ≤ 32)
    (hn : ¬ (i.rst = false ∧ b.fsm = .active ∧ b.divCnt = p.div - 1 ∧ b.ph = 32)) :
    (b.edge p i).rspValidQ = false ∧ (i.rst = false → (b.edge p i).rspWordQ = b.rspWordQ) := by
  cases b.edge_arm p i with
  | reset hr => rw [Block.edge_reset hr]; exact ⟨rfl, fun h => by simp [hr] at h⟩
  | quiet hr hf hv => rw [Block.edge_quiet hr hf hv]; exact ⟨rfl, fun _ => rfl⟩
  | accept hr hf hv => rw [Block.edge_accept hr hf hv]; exact ⟨rfl, fun _ => rfl⟩
  | count hr hf hd => rw [Block.edge_count hr hf hd]; exact ⟨rfl, fun _ => rfl⟩
  | sclk hr hf hd hp => rw [Block.edge_sclk hr hf hd hp]; exact ⟨b.sclkEdge_rspValidQ p i, fun _ => b.sclkEdge_rspWordQ p i⟩
  | complete hr hf hd hp => exact absurd ⟨hr, hf, hd, by omega⟩ hn
  | gapEnd hr hf hd => rw [Block.edge_gapEnd hr hf hd]; exact ⟨rfl, fun _ => rfl⟩

/-! ### A frame, edge by edge -/

theorem mosiBefore_zero (p : Params) (w : Word16) : mosiBefore p w 0 = if p.cpha then false else w.getLsbD 15 := by
  simp [mosiBefore, BitVec.getMsbD_eq_getLsbD]

/-- At its acceptance a frame has divided nothing, sampled nothing and shifted nothing (41_transactor R131). -/
theorem Block.inFrame_zero (p : Params) (w : Word16) (f : Nat → Bool) (old : Word16) :
    Block.inFrame p w f old 0 =
      { fsm := .active, divCnt := 0, ph := 0, rxSr := 0x0000, rspWordQ := old, rspValidQ := false, csNQ := false
        sclkQ := p.cpol
        txSr := if p.cpha then w else w <<< 1
        mosiQ := if p.cpha then false else w.getLsbD 15 } := by
  simp [Block.inFrame, mosiBefore_zero, txBefore, shiftsBefore, samplesBefore, bitsReceived]

/-- The block `m` clk edges after its acceptance of a frame, up to the end of the gap: in the frame, and then waiting. -/
def Block.afterAccept (p : Params) (w : Word16) (f : Nat → Bool) (old : Word16) (m : Nat) : Block :=
  if m < 33 * p.div then .inFrame p w f old m else (Block.completed p (bitsReceived f 16)).waited p (m - 33 * p.div)

section
variable {p : Params} {w old : Word16} {f : Nat → Bool} {m : Nat}

theorem Block.afterAccept_inFrame (hm : m < 33 * p.div) : Block.afterAccept p w f old m = .inFrame p w f old m := if_pos hm

theorem Block.afterAccept_waited (j : Nat) :
    Block.afterAccept p w f old (33 * p.div + j) = (Block.completed p (bitsReceived f 16)).waited p j := by
  rw [Block.afterAccept, if_neg (by omega), Nat.add_sub_cancel_left]

theorem Block.afterAccept_completed : Block.afterAccept p w f old (33 * p.div) = .completed p (bitsReceived f 16) :=
  Block.afterAccept_waited 0

/-- In the gap `rsp_valid` is 1 in the first cycle only (41_transactor R143, R144). -/
theorem Block.waited_completed_of_lt (r : Word16) {j : Nat} (hj : j < p.div) :
    (Block.completed p r).waited p j = { Block.completed p r with divCnt := j, rspValidQ := decide (j = 0) } := by
  cases j with
  | zero => rfl
  | succ j => simp [Block.waited, Block.completed, hj]

theorem Block.waited_completed_div (r : Word16) :
    (Block.completed p r).waited p p.div = { Block.completed p r with fsm := .idle, rspValidQ := false } := by
  simp [Params.div, Block.waited, Block.completed]

/-- The gap passes whatever the request inputs do (41_transactor R144, R147). -/
theorem Block.edge_waited_completed (r : Word16) {i : Inputs} {j : Nat} (hr : i.rst = false) (hj : j < p.div) :
    ((Block.completed p r).waited p j).edge p i = (Block.completed p r).waited p (j + 1) := by
  have hgap : ((Block.completed p r).waited p j).fsm ≠ .idle := by
    rw [Block.waited_completed_of_lt r hj]
    simp [Block.completed]
  rw [Block.edge_congr_of_not_accepts (i := i) (j := { i with ports := .quiet }) p rfl rfl (Block.accepts_of_not_idle hgap _)
    (Block.accepts_of_not_idle hgap _)]
  exact Block.edge_waited j hr (Block.completed_inv p r) (by simp [Block.completed]) rfl

/-- One clk edge of a frame or its gap. -/
theorem Block.edge_afterAccept {i : Inputs} (hr : i.rst = false) (hm : m < 34 * p.div)
    (hs : ∀ n, m % p.div = p.div - 1 → m / p.div = 2 * n + p.phase → i.miso = f n) :
    (Block.afterAccept p w f old m).edge p i = Block.afterAccept p w f old (m + 1) := by
  rcases Nat.lt_trichotomy (m + 1) (33 * p.div) with hlt | heq | hgt
  · rw [Block.afterAccept_inFrame (by omega), Block.afterAccept_inFrame hlt, Block.edge_inFrame p w f old m i hr hlt hs]
  · rw [Block.afterAccept_inFrame (by omega), heq, Block.afterAccept_completed, show m = 33 * p.div - 1 by omega,
      Block.edge_inFrame_last p w f old i hr]
  · obtain ⟨j, rfl⟩ := Nat.exists_eq_add_of_le (Nat.le_of_lt_succ hgt)
    rw [Nat.add_assoc, Block.afterAccept_waited, Block.afterAccept_waited, Block.edge_waited_completed _ hr (by omega)]

/-! ### The flags and pins of a frame and its gap -/

/-- SCLK edges in the first `m` clk edges after an acceptance (41_transactor R140). -/
def sclkEdgesIn (p : Params) (m : Nat) : Nat := min (m / p.div) 32

/-- Where a frame and its gap stand: in the frame, in the gap, at its end. -/
theorem frame_gap_or_end (hm : m ≤ 34 * p.div) :
    m < 33 * p.div ∨ (∃ j, j < p.div ∧ m = 33 * p.div + j) ∨ m = 33 * p.div + p.div := by
  by_cases hf : m < 33 * p.div
  · exact .inl hf
  · by_cases hg : m < 34 * p.div
    · exact .inr (.inl ⟨m - 33 * p.div, by omega, by omega⟩)
    · exact .inr (.inr (by omega))

theorem Block.afterAccept_idle_iff (hm : m ≤ 34 * p.div) :
    (Block.afterAccept p w f old m).fsm = .idle ↔ m = 34 * p.div := by
  have hd := div_pos p
  rcases frame_gap_or_end hm with hf | ⟨j, hj, rfl⟩ | rfl
  · rw [Block.afterAccept_inFrame hf]
    simp only [Block.inFrame, reduceCtorEq, false_iff]
    omega
  · rw [Block.afterAccept_waited, Block.waited_completed_of_lt _ hj]
    simp only [Block.completed, reduceCtorEq, false_iff]
    omega
  · rw [Block.afterAccept_waited, Block.waited_completed_div]
    simp only [true_iff]
    omega

theorem Block.afterAccept_rspValidQ_iff (hm : m ≤ 34 * p.div) :
    (Block.afterAccept p w f old m).rspValidQ = true ↔ m = 33 * p.div := by
  have hd := div_pos p
  rcases frame_gap_or_end hm with hf | ⟨j, hj, rfl⟩ | rfl
  · rw [Block.afterAccept_inFrame hf]
    simp only [Block.inFrame, Bool.false_eq_true, false_iff]
    omega
  · rw [Block.afterAccept_waited, Block.waited_completed_of_lt _ hj]
    simp
  · rw [Block.afterAccept_waited, Block.waited_completed_div]
    simp only [Bool.false_eq_true, false_iff]
    omega

theorem sclkEdgesIn_of_le (hm : 33 * p.div ≤ m) : sclkEdgesIn p m = 32 := by
  have hd := div_pos p
  have h33 : 33 ≤ m / p.div := (Nat.le_div_iff_mul_le hd).2 hm
  rw [sclkEdgesIn]
  omega

theorem sclkEdgesIn_of_lt (hm : m < 33 * p.div) : sclkEdgesIn p m = m / p.div := by
  have h33 : m / p.div < 33 := (Nat.div_lt_iff_lt_mul (div_pos p)).2 hm
  rw [sclkEdgesIn]
  omega

theorem Block.afterAccept_sclkQ (hm : m ≤ 34 * p.div) :
    (Block.afterAccept p w f old m).sclkQ = (p.cpol ^^ decide (sclkEdgesIn p m % 2 = 1)) := by
  rcases frame_gap_or_end hm with hf | ⟨j, hj, rfl⟩ | rfl
  · rw [Block.afterAccept_inFrame hf, sclkEdgesIn_of_lt hf]
    rfl
  · rw [Block.afterAccept_waited, Block.waited_completed_of_lt _ hj, sclkEdgesIn_of_le (Nat.le_add_right _ _)]
    simp [Block.completed]
  · rw [Block.afterAccept_waited, Block.waited_completed_div, sclkEdgesIn_of_le (Nat.le_add_right _ _)]
    simp [Block.completed]

/-- In the half-period before SCLK edge `e`. -/
theorem sclkEdgesIn_of_window {e : Nat} (he : e ≤ 32) (hlo : e * p.div ≤ m) (hhi : m < (e + 1) * p.div) :
    sclkEdgesIn p m = e := by
  rw [sclkEdgesIn, Nat.div_eq_of_lt_le hlo hhi, Nat.min_eq_left he]

theorem sclkEdgesIn_succ_of_edge {e : Nat} (he : e ≤ 31) (hm : m + 1 = (e + 1) * p.div) :
    sclkEdgesIn p (m + 1) = sclkEdgesIn p m + 1 := by
  have hd := div_pos p
  have hmul : (e + 1) * p.div = e * p.div + p.div := Nat.succ_mul e p.div
  rw [sclkEdgesIn_of_window (m := m) (e := e) (by omega) (by omega) (by omega), hm, sclkEdgesIn, Nat.mul_div_cancel _ hd]
  omega

theorem sclkEdgesIn_succ_of_no_edge (hm : ∀ e, e ≤ 31 → m + 1 ≠ (e + 1) * p.div) :
    sclkEdgesIn p (m + 1) = sclkEdgesIn p m := by
  have hd := div_pos p
  by_cases ht : m % p.div = p.div - 1
  · have h32 : ¬ m / p.div ≤ 31 := fun he => hm _ he (by
      have := Nat.div_add_mod' m p.div
      rw [Nat.succ_mul]
      omega)
    rw [sclkEdgesIn, sclkEdgesIn, (div_mod_succ_tick hd ht).1]
    omega
  · rw [sclkEdgesIn, sclkEdgesIn, (div_mod_succ_within hd ht).1]

/-- SCLK changes at an SCLK edge and nowhere else (41_transactor R138, R140). -/
theorem Block.afterAccept_sclkQ_ne_iff (hm : m < 34 * p.div) :
    (Block.afterAccept p w f old (m + 1)).sclkQ ≠ (Block.afterAccept p w f old m).sclkQ ↔
      ∃ e, e ≤ 31 ∧ m + 1 = (e + 1) * p.div := by
  rw [Block.afterAccept_sclkQ hm, Block.afterAccept_sclkQ (Nat.le_of_lt hm)]
  by_cases hedge : ∃ e, e ≤ 31 ∧ m + 1 = (e + 1) * p.div
  · obtain ⟨e, he, heq⟩ := hedge
    rw [sclkEdgesIn_succ_of_edge he heq]
    refine iff_of_true ?_ ⟨e, he, heq⟩
    rcases Nat.mod_two_eq_zero_or_one (sclkEdgesIn p m) with hpar | hpar <;> simp [Nat.add_mod, hpar]
  · rw [sclkEdgesIn_succ_of_no_edge fun e he heq => hedge ⟨e, he, heq⟩]
    exact iff_of_false (fun hne => hne rfl) hedge

/-- `mosi` shows bit `15−i` from the shift before its sampling edge to the next shift (41_transactor R139). -/
theorem mosiBefore_of_window {e i : Nat} (hi : i < 16) (hlo : 2 * i + p.phase ≤ e) (hhi : e < 2 * i + p.phase + 2) :
    mosiBefore p w e = w.getLsbD (15 - i) := by
  rw [mosiBefore]
  cases hc : p.cpha with
  | false =>
    simp only [Params.phase, hc, Bool.toNat_false] at hlo hhi
    simp [BitVec.getMsbD_eq_getLsbD, show e / 2 = i by omega, hi]
  | true =>
    simp only [Params.phase, hc, Bool.toNat_true] at hlo hhi
    simp [BitVec.getMsbD_eq_getLsbD, show (e - 1) / 2 = i by omega, show e ≠ 0 by omega, hi]

end

/-! ### The block of a frame that starts at edge 0 -/

/-- The level of MISO at the sampling edge of bit `15−i` of a frame accepted at edge 0. -/
def sampledLevel (p : Params) (inp : Nat → Inputs) (i : Nat) : Bool := (inp (sampleEdgeAt p 0 i)).miso

/-- Where the divider ticks for SCLK edge `2i + CPHA`, bit `15−i` is sampled (41_transactor R137). -/
theorem sampleEdgeAt_zero_of_tick {p : Params} {m i : Nat} (ht : m % p.div = p.div - 1) (hq : m / p.div = 2 * i + p.phase) :
    sampleEdgeAt p 0 i = m + 1 := by
  have hd := div_pos p
  have := Nat.div_add_mod' m p.div
  rw [sampleEdgeAt, sclkEdgeAt, ← hq, Nat.zero_add, Nat.succ_mul]
  omega

section
variable {p : Params} {b : Block} {inp : Nat → Inputs} (h : StartsFrame p b (inp 0))

include h

theorem blockAt_accepted (hr : (inp 0).rst = false) :
    blockAt p inp b 1 = Block.inFrame p (inp 0).ports.frameWord (sampledLevel p inp) b.rspWordQ 0 := by
  have hsclk : b.sclkQ = p.cpol := (h.inv.idlePins (by simp [h.idle])).2.1
  rw [blockAt, blockAt, Block.edge_accept hr h.idle h.valid, Block.inFrame_zero, hsclk]

/-- The block of a frame, whatever the request inputs do after the acceptance. -/
theorem blockAt_afterAccept {m : Nat} (hr : ∀ k, k ≤ m → (inp k).rst = false) (hm : m ≤ 34 * p.div) :
    blockAt p inp b (m + 1) =
      Block.afterAccept p (inp 0).ports.frameWord (sampledLevel p inp) b.rspWordQ m := by
  induction m with
  | zero => rw [blockAt_accepted h (hr 0 le_rfl), Block.afterAccept_inFrame (by have := div_pos p; omega)]
  | succ m ih =>
    rw [blockAt, ih (fun k hk => hr k (by omega)) (by omega)]
    refine Block.edge_afterAccept (hr (m + 1) le_rfl) hm fun i ht hq => ?_
    rw [sampledLevel, sampleEdgeAt_zero_of_tick ht hq]

theorem blockAt_inFrame {m : Nat} (hr : ∀ k, k ≤ m → (inp k).rst = false) (hm : m < 33 * p.div) :
    blockAt p inp b (m + 1) = Block.inFrame p (inp 0).ports.frameWord (sampledLevel p inp) b.rspWordQ m := by
  rw [blockAt_afterAccept h hr (by omega), Block.afterAccept_inFrame hm]

theorem blockAt_completed (hr : ∀ k, k ≤ 33 * p.div → (inp k).rst = false) :
    blockAt p inp b (33 * p.div + 1) = Block.completed p (bitsReceived (sampledLevel p inp) 16) := by
  rw [blockAt_afterAccept h hr (by omega), Block.afterAccept_completed]

end

/-! ### The obligations -/

/-- Settles O24: the frame is `Block.inFrame` until its completion, whose `mosi` keeps the windows of R139. -/
theorem framePresentsTheWordAndLatchesTheResponse : Obligations.FramePresentsTheWordAndLatchesTheResponse := by
  intro p b inp h hr w
  have hin : ∀ m, m < 33 * p.div →
      blockAt p inp b (m + 1) = Block.inFrame p w (sampledLevel p inp) b.rspWordQ m := fun m hm =>
    blockAt_inFrame h (fun k hk => hr k (by omega)) hm
  have hdone := blockAt_completed h hr
  refine ⟨fun i n hi hlo hhi => ?mosi, ?valid, fun i hi => ?response, ?before, fun n h1 hn => ?during, ?after⟩
  case mosi =>
    obtain ⟨m, rfl⟩ := Nat.exists_eq_add_of_lt (Nat.zero_lt_of_lt hlo)
    rw [Nat.zero_add] at hlo hhi ⊢
    have hphase : p.phase ≤ 1 := Bool.toNat_le p.cpha
    have hcells : (2 * i + p.phase + 2) * p.div ≤ 33 * p.div := Nat.mul_le_mul_right _ (by omega)
    rw [hin m (by omega)]
    exact mosiBefore_of_window hi ((Nat.le_div_iff_mul_le (div_pos p)).2 (by omega))
      ((Nat.div_lt_iff_lt_mul (div_pos p)).2 (by omega))
  case valid => rw [hdone]; rfl
  case response =>
    rw [hdone, Block.completed, getLsbD_bitsReceived _ _ (by omega), show 16 - 1 - (15 - i) = i by omega]
    simp [show 15 - i < 16 by omega, sampledLevel, sampleEdgeAt, sclkEdgeAt]
  case before => exact (h.inv.idlePins (by simp [h.idle])).1
  case during =>
    obtain ⟨m, rfl⟩ := Nat.exists_eq_add_of_le' h1
    rw [hin m (by omega)]
    rfl
  case after => rw [hdone]; rfl

/-- Settles O25: SCLK's level counts the SCLK edges so far; the block leaves `Block.afterAccept` only at the end of the gap. -/
theorem frameEdgesFallAtTheirClkEdges : Obligations.FrameEdgesFallAtTheirClkEdges := by
  intro p b inp h hr
  have hat : ∀ m, m ≤ 34 * p.div →
      blockAt p inp b (m + 1) = Block.afterAccept p (inp 0).ports.frameWord (sampledLevel p inp) b.rspWordQ m :=
    fun m hm => blockAt_afterAccept h (fun k hk => hr k (by omega)) hm
  have hd := div_pos p
  have hidle : ∀ n, 1 ≤ n → n ≤ 34 * p.div + 1 → ((blockAt p inp b n).fsm = .idle ↔ n = 34 * p.div + 1) := by
    intro n h1 hn
    obtain ⟨m, rfl⟩ := Nat.exists_eq_add_of_le' h1
    rw [hat m (by omega), Block.afterAccept_idle_iff (by omega), Nat.add_right_cancel_iff]
  refine ⟨fun n h1 hn => ?change, fun n h1 hn => ?first, fun e n he hlo hhi => ?level, fun n h1 hn => ?valid, hidle,
    fun n hlo hhi => ?gap, fun n h1 hn => ?busy, fun hv => ?next⟩
  case change =>
    obtain ⟨m, rfl⟩ := Nat.exists_eq_add_of_le' h1
    rw [hat (m + 1) (by omega), hat m (by omega), Block.afterAccept_sclkQ_ne_iff (by omega)]
  case first =>
    obtain ⟨m, rfl⟩ := Nat.exists_eq_add_of_le' h1
    rw [hat m (by omega), Block.afterAccept_sclkQ (by omega), sclkEdgesIn_of_window (e := 0) (by omega) (by omega) (by omega)]
    simp
  case level =>
    obtain ⟨m, rfl⟩ := Nat.exists_eq_add_of_lt (Nat.zero_lt_of_lt hlo)
    rw [Nat.zero_add] at hlo hhi ⊢
    have hcells : (e + 2) * p.div ≤ 33 * p.div := Nat.mul_le_mul_right _ (by omega)
    rw [hat m (by omega), Block.afterAccept_sclkQ (by omega), sclkEdgesIn_of_window (Nat.succ_le_succ he)
      (Nat.le_of_lt_succ hlo) hhi]
  case valid =>
    obtain ⟨m, rfl⟩ := Nat.exists_eq_add_of_le' h1
    rw [hat m (by omega), Block.afterAccept_rspValidQ_iff (by omega), Nat.add_right_cancel_iff]
  case gap =>
    obtain ⟨m, rfl⟩ := Nat.exists_eq_add_of_lt (Nat.zero_lt_of_lt hlo)
    rw [Nat.zero_add] at hlo hhi ⊢
    rw [hat m (by omega), Block.afterAccept_sclkQ (by omega), sclkEdgesIn_of_le (by omega)]
    simp
  case busy => exact Block.accepts_of_not_idle (fun hf => by have := (hidle n h1 (by omega)).1 hf; omega) _
  case next => exact (Block.accepts_iff _ _).2 ⟨hr _ le_rfl, (hidle _ (by omega) le_rfl).2 rfl, hv⟩

/-- Settles O17: the block of the acceptance, and within the first half-period no SCLK edge has changed it. -/
theorem acceptanceLoadsTheFrameWord : Obligations.AcceptanceLoadsTheFrameWord := by
  intro p b inp h hr w
  have hd := div_pos p
  refine ⟨?_, fun n h1 hn => ?_⟩
  · rw [blockAt_accepted h (hr 0 hd), Block.inFrame_zero]
    rfl
  · obtain ⟨m, rfl⟩ := Nat.exists_eq_add_of_le' h1
    rw [blockAt_inFrame h (fun k hk => hr k (by omega)) (by omega)]
    have hq : m / p.div = 0 := Nat.div_eq_of_lt hn
    refine ⟨rfl, rfl, ?sclk, ?mosi, rfl⟩
    case sclk => simp [Block.inFrame, hq]
    case mosi =>
      simp only [Block.inFrame, hq]
      exact mosiBefore_zero p w

/-- Settles O19: at the completion tick SCLK is back at its idle level, since `ph` is even; the other arms are R143. -/
theorem onlyCompletionDeliversAResponse : Obligations.OnlyCompletionDeliversAResponse := by
  intro p b i h
  refine ⟨fun hr hf hd hp => ?_, Block.edge_response_of_not_complete h.ph_le⟩
  rw [Block.edge_complete hr hf hd (by omega)]
  exact ⟨rfl, by simp [Block.completeEdge, h.sclk, hp]⟩

/-- Settles O20: outside an acceptance no arm looks at the request or field inputs. -/
theorem requestInputsIgnoredOutsideAcceptance : Obligations.RequestInputsIgnoredOutsideAcceptance :=
  fun p _ _ _ => Block.edge_congr_of_not_accepts p

/-- Settles O21: an SCLK edge that does not sample shifts, and no other arm looks at `miso`. -/
theorem misoIgnoredOutsideSampling : Obligations.MisoIgnoredOutsideSampling :=
  fun _ _ _ _ => Block.edge_congr_of_not_sampling

/-- Settles O22: the two runs agree in every register but those of the received bits, on which no pin and no flag depends. -/
theorem pinsDoNotDependOnReceivedBits : Obligations.PinsDoNotDependOnReceivedBits := by
  intro p b f g hfg n x y
  have hxy : x.withoutReceived = y.withoutReceived := blockAt_withoutReceived_congr p b hfg n
  exact ⟨(congrArg Block.csNQ hxy :), (congrArg Block.sclkQ hxy :), (congrArg Block.mosiQ hxy :), (congrArg Block.rspValidQ hxy :),
    (congrArg Block.reqReady hxy :)⟩

/-- Settles O23: the pins are those of the invariant, and `cs_n` falls only where a frame starts. -/
theorem pinsAreIdleOutsideAFrame : Obligations.PinsAreIdleOutsideAFrame := by
  intro p b i h
  refine ⟨h.idlePins, fun hf => by simp [h.cs, hf], h.edge i, fun hcs => ?_⟩
  have hactive : (b.edge p i).fsm = .active := by simpa [(h.edge i).cs] using hcs
  refine (Block.active_of_edge_active hactive).imp_left fun hf => ?_
  simp [h.cs, hf]

/-- Settles O27: each is the frame of its word, undisturbed. -/
theorem rawFramesRunAsOneFrame : Obligations.RawFramesRunAsOneFrame := by
  intro s hs hc
  exact ⟨fun w => execXfer_undisturbed (.raw w) hs hc, execXfer_undisturbed (.raw zeroWord) hs hc,
    execXfer_undisturbed (.raw onesWord) hs hc⟩

/-- Settles O28: each is the frame of the encoder's word, undisturbed; the fields left out are those of `resolveCfg`. -/
theorem encodedFramesRunAsOneFrame : Obligations.EncodedFramesRunAsOneFrame := by
  intro s hs hc
  refine ⟨fun ch o r hr => ?_, fun f => execXfer_undisturbed (.enc f) hs hc⟩
  cases hr
  exact execXfer_undisturbed (.enc { ch, cfg := resolveCfg o s.host.cfg }) hs hc

/-- Settles O14: the edge of a block that has been reset, or is reset at this edge. -/
theorem machineEdgeRunsTheBlock : Obligations.MachineEdgeRunsTheBlock := by
  intro s
  refine ⟨fun hw => ?_, s.tick_params, s.tick_ports, s.tick_env, s.tick_cycle⟩
  have hrun : (s.wasReset || s.rst) = true := by simpa using hw
  rw [State.tick, if_pos hrun]
  exact ⟨rfl, rfl⟩

/-- Settles O18: the pins are the idle ones of the invariant. -/
theorem idleWithoutRequestKeepsEveryRegister : Obligations.IdleWithoutRequestKeepsEveryRegister := by
  intro p b i hf
  exact ⟨fun hr hv => Block.edge_quiet hr hf hv, fun h => h.idlePins (by simp [hf])⟩

end Sys2Proof.Machine
end

section
/-! The extractor's obligations (42_extractor): the two views of the sample, and what EXTRACT answers for each of its operands. -/

namespace Sys2Proof.Machine

/-! ### The two views of the sample (42_extractor R161, R162, R164) -/

/-- Extraction needs no shift: the sample starts at bit 0 of the response (42_extractor R162). -/
theorem getLsbD_extractSample (r : Word16) (j : Nat) : (extractSample r).getLsbD j = (decide (j < 12) && r.getLsbD j) := by
  rw [extractSample, BitVec.getLsbD_extractLsb', Nat.zero_add]

theorem toNat_extractSample_le (r : Word16) : (extractSample r).toNat ≤ 4095 := Nat.le_of_lt_succ (extractSample r).isLt

/-- The wide view puts four zeros where the response has its echo (42_extractor R163). -/
theorem sample16_eq_append (r : Word16) : sample16 r = (0 : BitVec 4) ++ extractSample r := by
  rw [sample16, BitVec.setWidth_eq_append (by decide)]
  rfl

/-- The wide view is the source's mask, whose 1s are the sample's twelve bits (42_extractor R161). -/
theorem sample16_eq_and (r : Word16) : sample16 r = r &&& 0x0FFF := by
  have hmask : (0x0FFF : Word16) = (BitVec.allOnes 12).setWidth 16 := rfl
  rw [sample16_eq_append, hmask, BitVec.and_setWidth_allOnes 4 12 r, extractSample,
    BitVec.setWidth_eq_extractLsb' (by decide)]
  rfl

/-! ### The operation and the port `rsp_word` (42_extractor R160, 70_reset_and_hazards R223) -/

theorem exec_extract (src : RspSource) (s : State) : exec (.extract src) s = execExtract src s := rfl

theorem exec_extract_word (r : Word16) (s : State) :
    exec (.extract (.word r)) s = .next (s.setResult (.extracted (extractSample r))) := rfl

theorem State.rspSample_of_wasReset {s : State} (h : s.wasReset = true) : s.rspSample = .ok (extractSample s.blk.rspWordQ) := by
  rw [State.rspSample, State.rspWord, State.registers, if_pos h]
  rfl

theorem State.rspSample_of_not_wasReset {s : State} (h : s.wasReset = false) : s.rspSample = .error .unwrittenRegister := by
  rw [State.rspSample, State.rspWord, State.registers, if_neg (by simp [h])]
  rfl

/-- EXTRACT of the port answers what the port `rsp_sample` shows. -/
theorem exec_extract_port_of_ok {s : State} {v : Sample} (h : s.rspSample = .ok v) :
    exec (.extract .port) s = .next (s.setResult (.extracted v)) := by
  rw [exec_extract, execExtract, h]

theorem exec_extract_port_of_error {s : State} {e : Fault} (h : s.rspSample = .error e) :
    exec (.extract .port) s = .fault e := by
  rw [exec_extract, execExtract, h]

/-! ### The obligations -/

/-- Settles O8: the 16-bit view is the sample below four zeros, so each view is cut out of it, and the mask leaves the same. -/
theorem sampleViewsAgree : Obligations.SampleViewsAgree := by
  intro r
  refine ⟨sample16_eq_and r, rfl, ?low, ?top, fun j hj => ?bit, toNat_extractSample_le r⟩
  case low => rw [sample16_eq_append, BitVec.extractLsb'_append_eq_right]
  case top => rw [sample16_eq_append, BitVec.extractLsb'_append_eq_left]
  case bit => rw [getLsbD_extractSample, decide_eq_true hj, Bool.true_and]

/-- Settles O9: a given word is always there to be read, the port `rsp_word` once the block's registers are written. -/
theorem extractCompletesWithLowBits : Obligations.ExtractCompletesWithLowBits :=
  ⟨exec_extract_word, fun _ h => exec_extract_port_of_ok (State.rspSample_of_wasReset h),
    fun _ h => exec_extract_port_of_error (State.rspSample_of_not_wasReset h)⟩

end Sys2Proof.Machine
end

section
/-! The host sequences' obligations (43_host_sequences): what READ, RESET_SEQ, DELAY and the mutators run undisturbed, and where
a step or an operation does not start. -/

namespace Sys2Proof.Machine

open Sys2Proof.Claims

/-! ### A step (R175, R178) -/

theorem step_of_decode_ok {s : State} {r : Record} {i : Instr} (hn : s.nextRecord = some r) (hd : decode r = .ok i) :
    step s = exec i s.takeRecord := by
  simp only [step, hn, hd]

theorem step_of_decode_error {s : State} {r : Record} {e : DecodeError} (hn : s.nextRecord = some r)
    (hd : decode r = .error e) : step s = .refused (.undecodable e) := by
  simp only [step, hn, hd]

theorem step_of_nothing_queued {s : State} (hn : s.nextRecord = none) : step s = s.idleStep := by
  simp only [step, hn]

theorem State.nextRecord_of_prog {s : State} {l : List Record} (hp : s.host.prog = l) : s.nextRecord = l.head? := by
  rw [State.nextRecord, hp]

theorem State.takeRecord_of_prog {s : State} {r : Record} {rest : List Record} (hp : s.host.prog = r :: rest) :
    s.takeRecord = { s with host := { s.host with prog := rest } } := by
  rw [State.takeRecord, hp, List.tail_cons]

theorem decode_tableRecord {nbits w : Nat} {i : Instr} (h : decodeTableWord nbits w = some i) :
    decode (tableRecord nbits w) = .ok i := by
  rw [decodeTableWord] at h
  cases hd : decode (tableRecord nbits w) with
  | ok j => rw [hd] at h; cases h; rfl
  | error e => rw [hd] at h; cases h

/-! ### READ (R170, R189) -/

theorem channelInRange_iff (c : Int) : channelInRange c = true ↔ 0 ≤ c ∧ c ≤ 15 := by simp [channelInRange]

theorem exec_read_refused {c : Int} (h : ¬ (0 ≤ c ∧ c ≤ 15)) (s : State) :
    exec (.read c) s = .refused (.readChannelOutOfRange c) := by
  rw [exec_read, execRead, if_neg ((channelInRange_iff c).not.2 h)]

theorem addedRead_afterReadFrames (s : State) (c : Channel) :
    addedRead s (s.afterReadFrames c) c s.host.cfg ((s.afterFrame (readRequest c s)).frameResponse (.raw zeroWord)) :=
  ⟨_, _, _, _, _, s.afterReadFrames_log c⟩

/-! ### Undisturbed pieces in a row -/

@[simp] theorem State.afterDelay_cycle (s : State) (n : Nat) : (s.afterDelay n).cycle = s.cycle + n * s.params.delayUnit := rfl
@[simp] theorem State.afterDelay_params (s : State) (n : Nat) : (s.afterDelay n).params = s.params := rfl

section
variable {s t : State} {m n : Nat}

theorem State.noRstFor_later (h : s.noRstFor (m + n)) (he : t.env = s.env) (hc : t.cycle = s.cycle + m) : t.noRstFor n := by
  intro k hk
  have := h k (he ▸ hk)
  omega

theorem State.noRivalFor_later (h : s.noRivalFor (m + n)) (he : t.env = s.env) (hc : t.cycle = s.cycle + m) :
    t.noRivalFor n := by
  intro k hk
  have := h k (he ▸ hk)
  omega

theorem State.calmFor.afterDelay (h : s.calmFor (n * s.params.delayUnit + m)) : (s.afterDelay n).calmFor m :=
  ⟨State.noRstFor_later h.1 rfl rfl, State.noRivalFor_later h.2 rfl rfl⟩

/-- A frame that is not the last piece of its operation: the calm goes on after it. -/
theorem State.Ready.xfer_then (hs : s.Ready) (hc : s.calmFor (s.frameCycles + m)) (g : Bool) (r : Request) :
    xfer g r s = .done (s.frameResponse r) (s.afterFrame r) :=
  have hframe := hc.mono (Nat.le_add_right _ _)
  xfer_undisturbed g r hs hframe.1 hframe.2

/-- A wait that is not the last piece of its operation. -/
theorem State.Ready.hostDelay_then (hs : s.Ready) (hc : s.calmFor (n * s.params.delayUnit + m)) :
    hostDelay n s = .done () (s.afterDelay n) ∧ (s.afterDelay n).Ready :=
  hostDelay_undisturbed n hs (hc.mono (Nat.le_add_right _ _))

end

/-! ### RESET_SEQ (R173) -/

theorem exec_resetSeq (s : State) : exec .resetSeq s = hostOp s resetSeq fun _ t => t.setResult .completed := rfl

/-- A RESET_SEQ lasts as long as its frames and waits, one after another. -/
theorem State.resetSeqCycles_eq (s : State) :
    let s1 := s.afterFrame (.raw onesWord)
    let s2 := s1.afterDelay s.params.settle
    let s3 := s2.afterFrame (.raw onesWord)
    let s4 := s3.afterDelay s.params.settle
    s.resetSeqCycles =
      s.frameCycles + (s.params.settle * s1.params.delayUnit +
        (s2.frameCycles + (s.params.settle * s3.params.delayUnit + (s4.frameCycles + 0)))) := by
  simp only [State.resetSeqCycles, State.afterResetFrames, State.afterFrame_cycle, State.afterDelay_cycle,
    State.afterFrame_params, State.afterDelay_params]
  omega

/-- The flags that RESET_SEQ clears at its start reach none of its frames and waits. -/
theorem resetSeq_undisturbed {s : State} (hs : s.Ready) (hc : s.calmFor s.resetSeqCycles) :
    resetSeq s = .done () s.clearReady.afterResetFrames.setReady := by
  have h0 : s.clearReady.Ready := hs.congr rfl rfl rfl rfl
  have c0 : s.clearReady.calmFor s.clearReady.resetSeqCycles := hc
  rw [State.resetSeqCycles_eq, State.clearReady_params] at c0
  have h1 := h0.afterFrame (.raw onesWord)
  have c1 := c0.afterFrame (.raw onesWord)
  obtain ⟨run2, h2⟩ := h1.hostDelay_then c1
  have c2 := c1.afterDelay
  have h3 := h2.afterFrame (.raw onesWord)
  have c3 := c2.afterFrame (.raw onesWord)
  obtain ⟨run4, h4⟩ := h3.hostDelay_then c3
  have c4 := c3.afterDelay
  rw [resetSeq, h0.xfer_then c0, HostRun.bind_done, run2, HostRun.bind_done, h2.xfer_then c2, HostRun.bind_done, run4,
    HostRun.bind_done, h4.xfer_then c4, HostRun.bind_done]
  rfl

theorem exec_resetSeq_undisturbed {s : State} (hs : s.Ready) (hc : s.calmFor s.resetSeqCycles) :
    exec .resetSeq s = .next (s.clearReady.afterResetFrames.setReady.setResult .completed) := by
  rw [exec_resetSeq, hostOp_of_startFault_none hs.may, resetSeq_undisturbed hs hc, HostRun.outcome_done]

/-! ### DELAY (R179) -/

theorem exec_delay (n : Nat) (s : State) : exec (.delay n) s = hostOp s (hostDelay n) fun _ t => t.setResult .completed := rfl

theorem exec_delay_undisturbed {s : State} (hs : s.Ready) {n : Nat} (hc : s.calmFor (n * s.params.delayUnit)) :
    exec (.delay n) s = .next ((s.afterDelay n).setResult .completed) := by
  rw [exec_delay, hostOp_of_startFault_none hs.may, (hostDelay_undisturbed n hs hc).1, HostRun.outcome_done]

theorem Block.waited_idle {b : Block} (hf : b.fsm = .idle) (p : Params) {m : Nat} (hm : 0 < m) :
    b.waited p m = { b with rspValidQ := false } := by
  obtain ⟨m, rfl⟩ := Nat.exists_eq_add_one_of_ne_zero hm.ne'
  simp [Block.waited, hf]

theorem State.Ready.out {s : State} (hs : s.Ready) : s.blk.fsm ≠ .active :=
  (s.startFault_eq_none.1 hs.may).2 hs.reset

/-! ### The mutators (R181 to R188) -/

theorem exec_fieldMutator_illegal {f : Field} {v : Int} {s : State} (hs : s.Ready) (hv : ¬ (0 ≤ v ∧ v ≤ Field.top f)) :
    Drops (fieldMutator f v) s := by
  rw [Drops, exec_fieldMutator, mutate, if_neg ((legalValue_iff f v).not.2 hv), hostOp_of_startFault_none hs.may,
    HostRun.outcome_done]

theorem exec_fieldMutator_legal {f : Field} {v : Int} {s : State} (hs : s.Ready) (hv : 0 ≤ v ∧ v ≤ Field.top f) :
    TakesFrame (fieldMutator f v) (setField f v s.host.cfg) s := by
  intro hc
  have hnew : (withCfg s (setField f v s.host.cfg)).Ready := hs.congr rfl rfl rfl rfl
  have hread : readSeq s.params.dummyCh (s.setCfgField f v) = .done _ _ := readSeq_undisturbed _ hnew hc
  rw [exec_fieldMutator, mutate, if_pos ((legalValue_iff f v).2 hv), hostOp_of_startFault_none hs.may, hread,
    HostRun.outcome_done]
  rfl

/-- A mutator that takes its value sends the frames of its dummy READ, with the new configuration. -/
theorem TakesFrame.takes {i : Instr} {new : Cfg} {s : State} (h : TakesFrame i new s) : Takes i new s := fun hc =>
  ⟨_, _, h hc, rfl, rfl, addedRead_afterReadFrames (withCfg s new) s.params.dummyCh⟩

/-! ### Frames on the record (R191) -/

theorem frameCount_of_addedRead {s t : State} {c : Channel} {cfg : Cfg} {r : Word16} (h : addedRead s t c cfg r) :
    frameCount t.log = frameCount s.log + 2 := by
  obtain ⟨a1, e1, r1, a2, e2, hlog⟩ := h
  rw [hlog]
  rfl

theorem sentFrames_fieldMutator {f : Field} {v : Int} {s : State} (hs : s.Ready) (hc : ∀ m, s.calmFor m) :
    SentFrames (fieldMutator f v) (if 0 ≤ v ∧ v ≤ Field.top f then 2 else 0) s := by
  by_cases hv : 0 ≤ v ∧ v ≤ Field.top f
  · obtain ⟨t, r, he, -, -, hlog⟩ := TakesFrame.takes (exec_fieldMutator_legal hs hv) (hc _)
    rw [if_pos hv]
    exact ⟨t, he, frameCount_of_addedRead hlog⟩
  · rw [if_neg hv]
    exact ⟨_, exec_fieldMutator_illegal hs hv, rfl⟩

/-! ### Where an operation does not start (R175, R178; entry 18) -/

theorem exec_fieldMutator_of_startFault {s : State} {e : Fault} (hf : s.startFault = some e) (f : Field) (v : Int) :
    exec (fieldMutator f v) s = .fault e := by
  rw [exec_fieldMutator, mutate]
  split <;> exact hostOp_of_startFault_some hf _ _

/-- Every operation that drives the bus or the clock looks first at whether it may start. -/
theorem exec_of_startFault {i : Instr} {s : State} {e : Fault} (hi : needsHost i = true) (hw : i.wellFormed = true)
    (hf : s.startFault = some e) : exec i s = .fault e := by
  cases i with
  | encode f => cases hi
  | extract src => cases hi
  | read c => exact (if_pos hw).trans (hostOp_of_startFault_some hf _ _)
  | xferEnc ch o => exact hostOp_of_startFault_some hf _ _
  | xferRaw w => exact hostOp_of_startFault_some hf _ _
  | writeFrame f => exact hostOp_of_startFault_some hf _ _
  | nopFrame => exact hostOp_of_startFault_some hf _ _
  | onesFrame => exact hostOp_of_startFault_some hf _ _
  | resetSeq => exact hostOp_of_startFault_some hf _ _
  | delay n => exact hostOp_of_startFault_some hf _ _
  | setSeq v => exact exec_fieldMutator_of_startFault hf .seq v
  | setPm v => exact exec_fieldMutator_of_startFault hf .pm v
  | setShadow v => exact exec_fieldMutator_of_startFault hf .shadow v
  | setWeak v => exact exec_fieldMutator_of_startFault hf .weak v
  | setRange v => exact exec_fieldMutator_of_startFault hf .range v
  | setCoding v => exact exec_fieldMutator_of_startFault hf .coding v

theorem State.startFault_of_held {s : State} (hp : s.ports.reqValid = true) : s.startFault = some .duplicateRequest := by
  rw [State.startFault, if_pos hp]

theorem State.startFault_of_active {s : State} (hp : s.ports.reqValid = false) (hw : s.wasReset = true)
    (hf : s.blk.fsm = .active) : s.startFault = some .hostOverlap := by
  simp [State.startFault, hp, hw, hf]

/-! ### The obligations -/

/-- Settles O13: the next record decides the step; with none queued the step is that of a host without an operation. -/
theorem stepRunsTheDecodedOperation : Obligations.StepRunsTheDecodedOperation := by
  refine ⟨fun s r rest i hp hd => ?runs, fun s r rest e hp hd => ?refused, fun s hp hheld => ?edge,
    fun s hp hv ha => ?held, fun s nbits w i hd => ?fetched⟩
  case runs => rw [step_of_decode_ok (State.nextRecord_of_prog hp) hd, State.takeRecord_of_prog hp]
  case refused => exact step_of_decode_error (State.nextRecord_of_prog hp) hd
  case edge =>
    have hfree : s.requestHeld = false := by simpa [State.requestHeld] using hheld
    rw [step_of_nothing_queued (State.nextRecord_of_prog hp), State.idleStep_not_held hfree]
  case held =>
    have hheld : s.requestHeld = true := by rw [State.requestHeld, hv, ha]; rfl
    rw [step_of_nothing_queued (State.nextRecord_of_prog hp), State.idleStep_held hheld]
  case fetched =>
    exact step_of_decode_ok (s.nextRecord_withRecord (tableRecord nbits w)) (decode_tableRecord hd)

/-- Settles O34: out of range is the other branch of READ, which no state enters. -/
theorem readOutOfRangeIsRefused : Obligations.ReadOutOfRangeIsRefused := by
  intro s c hc
  exact exec_read_refused (by omega) s

/-- Settles O33: each of the two requests is its frame, undisturbed. -/
theorem readRunsAsTwoFrames : Obligations.ReadRunsAsTwoFrames := by
  intro s c h0 h15 hs hc
  exact execRead_undisturbed h0 h15 hs hc

/-- Settles O32: the record and the result of the READ's two frames. -/
theorem readReturnsTheSecondResponse : Obligations.ReadReturnsTheSecondResponse := by
  intro s c
  refine ⟨fun h0 h15 hs hc => ?_, fun hc => exec_read_refused hc s⟩
  exact ⟨_, _, _, execRead_undisturbed h0 h15 hs hc, addedRead_afterReadFrames s (channelOf c), rfl, rfl, rfl⟩

/-- Settles O38: each frame and each wait of the sequence, undisturbed, ends where the next may start. -/
theorem resetSeqRunsItsFramesAndWaits : Obligations.ResetSeqRunsItsFramesAndWaits := by
  intro s hs hc
  exact exec_resetSeq_undisturbed hs hc

/-- Settles O37: the events of the frames and waits stand on the record in their order. -/
theorem resetSeqSendsItsFixedSequence : Obligations.ResetSeqSendsItsFixedSequence := by
  intro s hs hc
  exact ⟨_, _, _, _, _, _, _, _, _, _, _, _, exec_resetSeq_undisturbed hs hc, rfl, rfl, rfl, rfl⟩

/-- Settles O39: the wait is clk edges outside a frame, where the pins are idle. -/
theorem delayLetsTimePass : Obligations.DelayLetsTimePass := by
  intro s n hs hc
  have hafter := (hostDelay_undisturbed n hs hc).2
  obtain ⟨hcs, hsclk, -⟩ := hafter.inv.idlePins hafter.out
  exact ⟨exec_delay_undisturbed hs hc, hcs, hsclk, fun hf hn => Block.waited_idle hf s.params hn⟩

/-- Settles O41: the generic mutator of R181, for each field. -/
theorem acceptedMutatorsRunOneRead : Obligations.AcceptedMutatorsRunOneRead := by
  intro s v hs
  have htakes := fun f h0 h1 => exec_fieldMutator_legal (f := f) (v := v) hs ⟨h0, h1⟩
  exact ⟨htakes .seq, htakes .pm, htakes .shadow, htakes .weak, htakes .range, htakes .coding⟩

/-- Settles O40: the generic mutator of R181, for each field, at a legal value and at any other. -/
theorem mutatorsTakeLegalValuesOnly : Obligations.MutatorsTakeLegalValuesOnly := by
  intro s v hs
  have hmutator := fun f => And.intro (fun hv => TakesFrame.takes (exec_fieldMutator_legal (f := f) (v := v) hs hv))
    (exec_fieldMutator_illegal (f := f) (v := v) hs)
  exact ⟨hmutator .seq, hmutator .pm, hmutator .shadow, hmutator .weak, hmutator .range, hmutator .coding⟩

/-- Settles O42: counted on the record that each operation is known to leave. -/
theorem hostOperationsSendFixedFrameCounts : Obligations.HostOperationsSendFixedFrameCounts := by
  intro s v n hs hc
  refine ⟨fun h0 h15 => ?read, fun i hi => ?bitField, sentFrames_fieldMutator (f := .pm) hs hc, ?resetSeq, ?delay⟩
  case read =>
    obtain ⟨t, r, accurate, he, hlog, -⟩ := (readReturnsTheSecondResponse s v).1 h0 h15 hs (hc _)
    exact ⟨t, he, frameCount_of_addedRead hlog⟩
  case bitField =>
    have hfield := fun f => sentFrames_fieldMutator (f := f) (v := v) hs hc
    simp only [List.mem_cons, List.not_mem_nil, or_false] at hi
    obtain rfl | rfl | rfl | rfl | rfl := hi
    exacts [hfield .seq, hfield .shadow, hfield .weak, hfield .range, hfield .coding]
  case resetSeq => exact ⟨_, exec_resetSeq_undisturbed hs (hc _), rfl⟩
  case delay => exact ⟨_, exec_delay_undisturbed hs (hc _), rfl⟩

/-- Settles O45: the two cases of what forbids a start. -/
theorem hostOperationsDoNotOverlap : Obligations.HostOperationsDoNotOverlap := by
  intro i s hi hwf hw
  exact ⟨fun hp => exec_of_startFault hi hwf (State.startFault_of_held hp),
    fun hp hf => exec_of_startFault hi hwf (State.startFault_of_active hp hw hf)⟩

end Sys2Proof.Machine
end

section
/-! Another requester between the frames of a READ (43_host_sequences R171, 60_exceptions R205). -/

namespace Sys2Proof.Machine

/-! ### A rival in a cycle to come -/

/-- The first rival comes `j` cycles from now, before any reset. -/
structure State.RivalIn (s : State) (j : Nat) : Prop where
  offers : ∃ r, (s.cycle + j, r) ∈ s.env.rivals
  noRst : s.noRstFor (j + 1)
  first : s.noRivalFor j

theorem State.RivalIn.tick {s : State} {j : Nat} (h : s.RivalIn (j + 1)) : s.tick.RivalIn j where
  offers := by
    obtain ⟨r, hr⟩ := h.offers
    exact ⟨r, by rwa [State.tick_cycle, State.tick_env, Nat.add_assoc, Nat.add_comm 1 j]⟩
  noRst := State.noRstFor_tick h.noRst
  first := State.noRivalFor_tick h.first

theorem State.RivalIn.rst_false {s : State} {j : Nat} (h : s.RivalIn j) : s.rst = false :=
  s.rst_false_of h.noRst (Nat.succ_pos j)

theorem State.RivalIn.now {s : State} (h : s.RivalIn 0) : s.rival.isSome = true := by
  obtain ⟨r, hr⟩ := h.offers
  rw [State.rival, Option.isSome_map, List.find?_isSome]
  exact ⟨_, hr, by simp⟩

theorem State.RivalIn.rival_none {s : State} {j : Nat} (h : s.RivalIn (j + 1)) : s.rival = none :=
  s.rival_none_of h.first (Nat.succ_pos j)

/-- Some cycles later, the rival is that much nearer. -/
theorem State.RivalIn.later {s t : State} {j m : Nat} (h : s.RivalIn (m + j)) (he : t.env = s.env)
    (hc : t.cycle = s.cycle + m) : t.RivalIn j where
  offers := by
    obtain ⟨r, hr⟩ := h.offers
    exact ⟨r, by rwa [hc, he, Nat.add_assoc]⟩
  noRst := State.noRstFor_later h.noRst he hc
  first := State.noRivalFor_later h.first he hc

theorem State.RivalIn.noRst_mono {s : State} {j n : Nat} (h : s.RivalIn j) (hn : n ≤ j) : s.noRstFor n :=
  State.noRstFor_mono h.noRst (Nat.le_succ_of_le hn)

/-! ### The guarded pieces of a READ's second frame -/

theorem hostWait_interleaved {n j : Nat} {s : State} (hj : j < n) (h : s.RivalIn j) :
    hostWait true n s = .stopped .interleavedRead := by
  induction n generalizing s j with
  | zero => exact absurd hj (Nat.not_lt_zero j)
  | succ n ih =>
    rw [hostWait, if_neg (by simp [h.rst_false])]
    cases j with
    | zero => rw [if_pos (by simp [h.now])]
    | succ j =>
      rw [if_neg (by simp [h.rival_none])]
      exact ih (Nat.lt_of_succ_lt_succ hj) h.tick

theorem offer_interleaved {n j : Nat} {s : State} (hw : s.wasReset = true) (hi : s.blk.Inv s.params)
    (ho : s.blk.fsm ≠ .active) (hj : j ≤ s.gapLeft) (hfuel : j < n) (h : s.RivalIn j) :
    offer true n s = .stopped .interleavedRead := by
  induction n generalizing s j with
  | zero => exact absurd hfuel (Nat.not_lt_zero j)
  | succ n ih =>
    rw [offer, if_neg (by simp [hw]), if_neg (by simp [h.rst_false])]
    cases j with
    | zero => rw [if_pos h.now, if_pos rfl]
    | succ j =>
      have hf : s.blk.fsm ≠ .idle := fun hf => by simp [State.gapLeft, hf] at hj
      have hwait := State.Waited.tick hw h.rst_false hi ho (fun h => absurd h hf)
      rw [if_neg (by simp [h.rival_none]), if_neg (by simp [Block.reqReady, hf])]
      exact ih (by simp [hw]) (by simpa using hwait.inv) hwait.out (by rw [hwait.left]; omega) (by omega) h.tick

theorem State.gapLeft_le_div (s : State) : s.gapLeft ≤ s.params.div := by
  unfold State.gapLeft
  split <;> omega

/-- In the idle cycles before the request, or while it is offered, up to its acceptance. -/
theorem xfer_interleaved (r : Request) {s : State} (hs : s.Ready) {j : Nat} (hj : s.cycle + j ≤ s.acceptEdge)
    (h : s.RivalIn j) : xfer true r s = .stopped .interleavedRead := by
  have hpop : s.popPause.RivalIn j := ⟨h.offers, h.noRst, h.first⟩
  by_cases hpause : j < s.nextPause
  · rw [xfer, hostWait_interleaved hpause hpop, HostRun.bind_stopped]
  · obtain ⟨i, rfl⟩ := Nat.exists_eq_add_of_le (Nat.le_of_not_lt hpause)
    obtain ⟨t, hrun, hwait⟩ := hostWait_undisturbed true s.nextPause (s := s.popPause) hs.reset hs.inv hs.out
      (s.startFault_eq_none.1 hs.may).1 (hpop.noRst_mono (Nat.le_add_right _ _))
      (State.noRivalFor_mono hpop.first (Nat.le_add_right _ _))
    obtain ⟨hparams, -, -, -, henv, hreset, -, hcycle⟩ := hwait.fields
    have hleft : (t.drive r).gapLeft = s.gapLeft - s.nextPause := hwait.left
    have hgap := s.gapLeft_le_div
    rw [State.acceptEdge] at hj
    have hoffer := offer_interleaved (n := 34 * s.params.div + 1) (s := t.drive r) (hreset.trans hs.reset)
      (by rw [State.drive_params, hparams]; exact hwait.inv) hwait.out (by omega) (by omega)
      (hpop.later henv hcycle)
    rw [xfer, hrun, HostRun.bind_done, hoffer, HostRun.bind_stopped]

/-- Settles O36: the first frame ends undisturbed, and the second one's request is not accepted before the other requester's. -/
theorem interleavedReadFaults : Obligations.InterleavedReadFaults := by
  intro s c k r h0 h15 hs s1 hk1 hk2 hr hn hv
  have hs1 : s1.cycle = s.cycle + s.frameCycles := s.afterFrame_cycle _
  have hfirst : xfer false (readRequest (channelOf c) s) s = .done _ s1 :=
    xfer_undisturbed false _ hs (State.noRstFor_mono hn (by omega)) (State.noRivalFor_mono hv (by omega))
  have hrival : s.RivalIn (k - s.cycle) :=
    ⟨⟨r, by rwa [Nat.add_sub_cancel' (by omega)]⟩, by rwa [← Nat.sub_add_comm (by omega)], hv⟩
  have hsplit : k - s.cycle = s.frameCycles + (k - s1.cycle) := by omega
  rw [hsplit] at hrival
  have hsecond := xfer_interleaved (.raw zeroWord) (hs.afterFrame _) (s := s1) (j := k - s1.cycle) (by omega)
    (hrival.later rfl hs1)
  rw [exec_read, execRead, if_pos ((channelInRange_iff c).2 ⟨h0, h15⟩), hostOp_of_startFault_none hs.may, readSeq, hfirst,
    HostRun.bind_done, hsecond, HostRun.bind_stopped, HostRun.outcome_stopped]

end Sys2Proof.Machine
end

section
/-! The host's waits for the block end (43_host_sequences R192): the block is back in IDLE within `34·DIV` clk edges, and
completes a frame within `33·DIV` edges of its acceptance, so the bounds on the waits are never reached (entry 21). -/

namespace Sys2Proof.Machine

/-! ### How long the block still needs (41_transactor R140) -/

/-- The clk edges of ACTIVE up to and with the completion. -/
def Block.edgesToResponse (p : Params) (b : Block) : Nat := (33 - b.ph) * p.div - b.divCnt

/-- The clk edges until the block is in IDLE, if nothing is accepted before. -/
def Block.edgesToIdle (p : Params) (b : Block) : Nat :=
  match b.fsm with
  | .idle => 0
  | .active => b.edgesToResponse p + p.div
  | .gap => p.div - b.divCnt

section
variable {p : Params} {b : Block}

/-- The half-period in progress and the whole ones after it. -/
theorem Block.Inv.edgesToResponse_eq (h : b.Inv p) : b.edgesToResponse p = (32 - b.ph) * p.div + (p.div - b.divCnt) := by
  have hlt := h.div_lt
  rw [Block.edgesToResponse, Nat.succ_sub h.ph_le, Nat.succ_mul]
  omega

theorem Block.Inv.edgesToResponse_pos (h : b.Inv p) : 0 < b.edgesToResponse p := by
  have hlt := h.div_lt
  rw [h.edgesToResponse_eq]
  omega

theorem Block.edgesToResponse_le (p : Params) (b : Block) : b.edgesToResponse p ≤ 33 * p.div :=
  (Nat.sub_le _ _).trans (Nat.mul_le_mul_right _ (Nat.sub_le _ _))

theorem Block.edgesToIdle_of_active (hf : b.fsm = .active) : b.edgesToIdle p = b.edgesToResponse p + p.div := by
  simp [Block.edgesToIdle, hf]

theorem Block.edgesToIdle_of_gap (hf : b.fsm = .gap) : b.edgesToIdle p = p.div - b.divCnt := by
  simp [Block.edgesToIdle, hf]

theorem Block.edgesToIdle_le (p : Params) (b : Block) : b.edgesToIdle p ≤ 34 * p.div := by
  have hresponse := b.edgesToResponse_le p
  unfold Block.edgesToIdle
  split <;> omega

@[simp] theorem Block.sclkEdge_fsm (p : Params) (b : Block) (i : Inputs) : (b.sclkEdge p i).fsm = b.fsm := by
  unfold Block.sclkEdge; split <;> rfl
@[simp] theorem Block.sclkEdge_ph (p : Params) (b : Block) (i : Inputs) : (b.sclkEdge p i).ph = b.ph + 1 := by
  unfold Block.sclkEdge; split <;> rfl
@[simp] theorem Block.sclkEdge_divCnt (p : Params) (b : Block) (i : Inputs) : (b.sclkEdge p i).divCnt = 0 := by
  unfold Block.sclkEdge; split <;> rfl

/-- A clk edge of ACTIVE completes the frame or comes one nearer to its completion. -/
theorem Block.Inv.edge_active (h : b.Inv p) (hf : b.fsm = .active) {i : Inputs} (hr : i.rst = false) :
    (b.edgesToResponse p = 1 ∧ b.edge p i = b.completeEdge) ∨
      ((b.edge p i).fsm = .active ∧ (b.edge p i).edgesToResponse p + 1 = b.edgesToResponse p) := by
  have hlt := h.div_lt
  have hnext := (h.edge i).edgesToResponse_eq
  rw [h.edgesToResponse_eq]
  by_cases hd : b.divCnt = p.div - 1
  · rcases Nat.lt_or_ge 31 b.ph with hp | hp
    · have hlast : 32 - b.ph = 0 := by omega
      rw [hlast, Nat.zero_mul]
      exact .inl ⟨by omega, Block.edge_complete hr hf hd hp⟩
    · have hstep : 32 - b.ph = 32 - (b.ph + 1) + 1 := by omega
      rw [Block.edge_sclk hr hf hd hp, Block.sclkEdge_ph, Block.sclkEdge_divCnt] at hnext
      rw [hstep, Nat.succ_mul, Block.edge_sclk hr hf hd hp, Block.sclkEdge_fsm]
      exact .inr ⟨hf, by omega⟩
  · rw [Block.edge_count hr (by simp [hf]) hd] at hnext ⊢
    exact .inr ⟨hf, by simp only at hnext; omega⟩

/-- Outside IDLE a clk edge comes one nearer to IDLE. -/
theorem Block.Inv.edgesToIdle_edge (h : b.Inv p) (hf : b.fsm ≠ .idle) {i : Inputs} (hr : i.rst = false) :
    (b.edge p i).edgesToIdle p + 1 = b.edgesToIdle p := by
  have hlt := h.div_lt
  cases hs : b.fsm with
  | idle => exact absurd hs hf
  | active =>
    rw [Block.edgesToIdle_of_active hs]
    obtain ⟨hlast, hedge⟩ | ⟨hactive, hless⟩ := h.edge_active hs hr
    · rw [hedge, hlast, Block.edgesToIdle_of_gap (b := b.completeEdge) rfl, Nat.add_comm]
      rfl
    · rw [Block.edgesToIdle_of_active hactive]
      omega
  | gap =>
    rw [Block.edgesToIdle_of_gap hs]
    by_cases hd : b.divCnt = p.div - 1
    · rw [Block.edge_gapEnd hr hs hd]
      simp only [Block.edgesToIdle]
      omega
    · rw [Block.edge_count hr hf hd, Block.edgesToIdle_of_gap (by exact hs)]
      simp only
      omega

end

/-! ### The pieces of an operation answer -/

/-- A piece of a host operation does not stall, and ends in `Q` when it is done. -/
def HostRun.Answers {α : Type} (Q : State → Prop) : HostRun α → Prop
  | .done _ s => Q s
  | .abandoned _ => True
  | .stopped e => e ≠ .stalled

theorem HostRun.Answers.bind {α β : Type} {Q R : State → Prop} {m : HostRun α} {f : α → State → HostRun β} (hm : m.Answers Q)
    (hf : ∀ a s, Q s → (f a s).Answers R) : (m.bind f).Answers R := by
  cases m with
  | done a s => exact hf a s hm
  | abandoned s => trivial
  | stopped e => exact hm

theorem HostRun.Answers.keeping {α : Type} {P Q : State → Prop} {m : HostRun α} (hm : m.Answers Q) (hk : m.Keeps P) :
    m.Answers fun s => Q s ∧ P s := by
  cases m with
  | done a s => exact ⟨hm, hk⟩
  | abandoned s => trivial
  | stopped e => exact hm

theorem HostRun.Ends.answers {α : Type} {P Q R : State → Prop} {m : HostRun α} (he : m.Ends P Q) (hm : m.Answers R) :
    m.Answers Q := by
  cases m with
  | done a s => exact he
  | abandoned s => trivial
  | stopped e => exact hm

/-- A running machine in a frame. -/
structure State.FrameOpen (s : State) : Prop extends s.Running where
  active : s.blk.fsm = .active

theorem State.Running.block {s : State} (h : s.Running) : s.blk.Inv s.params := h.inv.block h.reset

theorem State.Running.tick {s : State} (h : s.Running) : s.tick.Running := ⟨h.inv.tick, by simp [h.reset]⟩

theorem State.Running.tick_blk {s : State} (h : s.Running) : s.tick.blk = s.blk.edge s.params s.inputs :=
  ((machineEdgeRunsTheBlock s).1 (.inl h.reset)).1

theorem State.Inv.hostWait_answers (g : Bool) (n : Nat) {s : State} (h : s.Inv) : (hostWait g n s).Answers State.Inv := by
  induction n generalizing s with
  | zero => exact h
  | succ n ih =>
    rw [hostWait]
    split
    · trivial
    · split
      · exact nofun
      · exact ih h.tick

/-- Each cycle of the wait for acceptance brings the block one edge nearer to IDLE, where it accepts. -/
theorem State.Running.offer_answers (g : Bool) (n : Nat) {s : State} (h : s.Running) (hp : s.ports.reqValid = true)
    (hn : s.blk.edgesToIdle s.params < n) : (offer g n s).Answers State.FrameOpen := by
  induction n generalizing s with
  | zero => exact absurd hn (Nat.not_lt_zero _)
  | succ n ih =>
    rw [offer, if_neg (by simp [h.reset])]
    cases hr : s.rst with
    | true => trivial
    | false =>
      rw [if_neg Bool.false_ne_true]
      by_cases hv : s.rival.isSome = true
      · rw [if_pos hv]
        cases g <;> exact nofun
      · rw [if_neg hv]
        by_cases hf : s.blk.fsm = .idle
        · rw [if_pos (by simp [Block.reqReady, hf])]
          have haccepted := (State.accepted_tick h.reset hr h.block hf hp).1
          exact ⟨⟨h.tick.inv.dropRequest, h.tick.reset⟩, congrArg Block.fsm haccepted.blk⟩
        · rw [if_neg (by simp [Block.reqReady, hf])]
          have hnearer := h.block.edgesToIdle_edge hf (i := s.inputs) hr
          exact ih h.tick (by rwa [State.tick_ports]) (by rw [h.tick_blk, State.tick_params]; omega)

/-- Before the first `rst` a request is a fault of its own (70_reset_and_hazards R223). -/
theorem offer_of_not_wasReset (g : Bool) (n : Nat) {s : State} (h : s.wasReset = false) :
    offer g (n + 1) s = .stopped .unwrittenRegister := by
  rw [offer, h]
  rfl

theorem State.Inv.offer_answers (g : Bool) {s : State} (h : s.Inv) (hp : s.ports.reqValid = true) :
    (offer g (34 * s.params.div + 1) s).Answers State.FrameOpen := by
  cases hw : s.wasReset with
  | false =>
    rw [offer_of_not_wasReset g _ hw]
    exact nofun
  | true => exact State.Running.offer_answers g _ ⟨h, hw⟩ hp (Nat.lt_succ_of_le (s.blk.edgesToIdle_le s.params))

/-- Each cycle of the wait for the response completes the frame or brings it one edge nearer to its completion. -/
theorem State.FrameOpen.awaitRsp_answers (n : Nat) {s : State} (h : s.FrameOpen) (hn : s.blk.edgesToResponse s.params ≤ n) :
    (awaitRsp n s).Answers fun _ => True := by
  induction n generalizing s with
  | zero => exact absurd h.block.edgesToResponse_pos (Nat.not_lt_of_le hn)
  | succ n ih =>
    rw [awaitRsp]
    cases hr : s.rst with
    | true => trivial
    | false =>
      rw [if_neg Bool.false_ne_true]
      obtain ⟨-, hedge⟩ | ⟨hactive, hnearer⟩ := h.block.edge_active h.active (i := s.inputs) hr
      · rw [if_pos (by rw [h.tick_blk, hedge]; rfl)]
        trivial
      · rw [← h.tick_blk] at hactive hnearer
        split
        · trivial
        · exact ih ⟨h.tick, hactive⟩ (by rw [State.tick_params]; omega)

theorem State.Inv.xfer_answers (g : Bool) (r : Request) {s : State} (h : s.Inv) : (xfer g r s).Answers State.FrameOver := by
  have hsame := s.sameConstants_hostMoves
  refine (h.xfer_ends g r).answers (HostRun.Answers.bind (R := fun _ => True)
    ((h.popPause.hostWait_answers g _).keeping (hsame.hostWait g _ ⟨rfl, rfl⟩)) fun _ s1 ⟨h1, hs1⟩ => ?_)
  have hoffer := (h1.drive r).offer_answers g (Ports.offering_valid s1.ports r)
  rw [State.drive_params, hs1.1] at hoffer
  refine (hoffer.keeping (hsame.offer g _ (hsame.drive s1 r hs1))).bind fun _ s2 ⟨h2, hs2⟩ => ?_
  exact h2.awaitRsp_answers _ (by rw [hs2.1]; exact Block.edgesToResponse_le _ _)

theorem State.Inv.hostDelay_answers (n : Nat) {s : State} (h : s.Inv) (ho : s.wasReset = true → s.blk.fsm ≠ .active) :
    (hostDelay n s).Answers State.Inv :=
  (h.noteDelay n ho).hostWait_answers false _

theorem State.Inv.readSeq_answers (c : Channel) {s : State} (h : s.Inv) : (readSeq c s).Answers State.Inv :=
  (h.xfer_answers false _).bind fun _ _ h1 => (h1.inv.xfer_answers true _).bind fun _ _ h2 => h2.inv.markPrimed

theorem State.Inv.resetSeq_answers {s : State} (h : s.Inv) : (resetSeq s).Answers State.Inv :=
  (h.clearReady.xfer_answers false _).bind fun _ _ h1 =>
    (h1.inv.hostDelay_answers _ fun _ => h1.out).bind fun _ _ h2 =>
      (h2.xfer_answers false _).bind fun _ _ h3 =>
        (h3.inv.hostDelay_answers _ fun _ => h3.out).bind fun _ _ h4 =>
          (h4.xfer_answers false _).bind fun _ _ h5 => h5.inv.setReady h5.reset

/-! ### Every operation answers -/

theorem State.startFault_ne_stalled (s : State) : s.startFault ≠ some .stalled := by
  unfold State.startFault
  split
  · exact nofun
  · split <;> exact nofun

theorem hostOp_ne_stalled {α : Type} {s : State} {run : State → HostRun α} {finish : α → State → State} {Q : State → Prop}
    (hrun : s.startFault = none → (run s).Answers Q) : hostOp s run finish ≠ .fault .stalled := by
  cases hf : s.startFault with
  | some e =>
    rw [hostOp_of_startFault_some hf]
    rintro ⟨⟩
    exact s.startFault_ne_stalled hf
  | none =>
    rw [hostOp_of_startFault_none hf]
    have hanswer := hrun hf
    cases hr : run s with
    | done a u => exact nofun
    | abandoned u => exact nofun
    | stopped e =>
      rw [hr] at hanswer
      rintro ⟨⟩
      exact hanswer rfl

theorem execExtract_ne_stalled (src : RspSource) (s : State) : execExtract src s ≠ .fault .stalled := by
  cases src with
  | word r => exact nofun
  | port =>
    rw [← exec_extract]
    cases hw : s.wasReset with
    | true => rw [exec_extract_port_of_ok (State.rspSample_of_wasReset hw)]; exact nofun
    | false => rw [exec_extract_port_of_error (State.rspSample_of_not_wasReset hw)]; exact nofun

theorem State.Inv.fieldMutator_ne_stalled {s : State} (h : s.Inv) (f : Field) (v : Int) :
    Machine.exec (fieldMutator f v) s ≠ .fault .stalled := by
  rw [exec_fieldMutator, mutate]
  split
  · exact hostOp_ne_stalled fun _ => (h.setCfgField f v).readSeq_answers _
  · exact hostOp_ne_stalled (run := .done ()) fun _ => h

theorem State.Inv.exec_ne_stalled {s : State} (h : s.Inv) (i : Instr) : Machine.exec i s ≠ .fault .stalled := by
  cases i with
  | encode f => exact nofun
  | extract src => exact execExtract_ne_stalled src s
  | xferEnc ch o => exact hostOp_ne_stalled fun _ => h.xfer_answers false _
  | xferRaw w => exact hostOp_ne_stalled fun _ => h.xfer_answers false _
  | writeFrame f => exact hostOp_ne_stalled fun _ => h.xfer_answers false _
  | nopFrame => exact hostOp_ne_stalled fun _ => h.xfer_answers false _
  | onesFrame => exact hostOp_ne_stalled fun _ => h.xfer_answers false _
  | read c =>
    rw [exec_read, execRead]
    split
    · exact hostOp_ne_stalled fun _ => h.readSeq_answers _
    · exact nofun
  | resetSeq => exact hostOp_ne_stalled fun _ => h.resetSeq_answers
  | delay n => exact hostOp_ne_stalled fun hf => h.hostDelay_answers n (s.startFault_eq_none.1 hf).2
  | setSeq v => exact h.fieldMutator_ne_stalled .seq v
  | setPm v => exact h.fieldMutator_ne_stalled .pm v
  | setShadow v => exact h.fieldMutator_ne_stalled .shadow v
  | setWeak v => exact h.fieldMutator_ne_stalled .weak v
  | setRange v => exact h.fieldMutator_ne_stalled .range v
  | setCoding v => exact h.fieldMutator_ne_stalled .coding v

theorem State.idleStep_ne_stalled (s : State) : s.idleStep ≠ .fault .stalled := by
  unfold State.idleStep
  split <;> exact nofun

/-- Settles O47: each wait of the host ends within its bound, so no piece of an operation stalls, and a step is an operation or one
clk edge. -/
theorem noOperationStalls : Obligations.NoOperationStalls := by
  intro s h
  refine ⟨h.exec_ne_stalled, ?_⟩
  cases hn : s.nextRecord with
  | none =>
    rw [step_of_nothing_queued hn]
    exact s.idleStep_ne_stalled
  | some r =>
    cases hd : decode r with
    | ok i =>
      rw [step_of_decode_ok hn hd]
      exact h.takeRecord.exec_ne_stalled i
    | error e =>
      rw [step_of_decode_error hn hd]
      exact nofun

end Sys2Proof.Machine
end

section
/-! Where `dev_ready` and `primed` come from (43_host_sequences R173, R176, R177). -/

namespace Sys2Proof.Machine

open Sys2Proof.Claims

/-! ### The two flags along an operation -/

/-- `primed` is as in `s`, and `dev_ready` no newer than in `s`. -/
def State.NoReadier (s t : State) : Prop :=
  (t.host.devReady = true → s.host.devReady = true) ∧ t.host.primed = s.host.primed

/-- A READ ended in `t`: it set `primed` only if `dev_ready` held (R177). -/
def State.ReadOver (s t : State) : Prop :=
  (t.host.devReady = true → s.host.devReady = true) ∧
    (t.host.primed = true → s.host.primed = true ∨ s.host.devReady = true)

/-- A clk edge clears `dev_ready` at most, and the host's moves on the ports leave both flags. -/
theorem State.noReadier_moves (s : State) : Moves s.NoReadier where
  tick t h := by
    rw [State.NoReadier, State.tick_host]
    exact ⟨fun hr => h.1 (Bool.and_eq_true_iff.1 hr).1, h.2⟩
  drive _ _ h := h
  drop _ h := h
  pop _ h := h
  note _ _ h := h

theorem HostRun.Keeps.ends {α : Type} {P : State → Prop} {m : HostRun α} (h : m.Keeps P) : m.Ends P P := by
  cases m <;> exact h

theorem State.NoReadier.markPrimed {s t : State} (h : s.NoReadier t) : s.ReadOver t.markPrimed := by
  refine ⟨h.1, fun hp => ?_⟩
  rw [State.markPrimed_primed, Bool.or_eq_true, h.2] at hp
  exact hp.imp_right h.1

theorem readSeq_ends_readOver (c : Channel) {s t : State} (h : s.NoReadier t) :
    (readSeq c t).Ends s.NoReadier s.ReadOver :=
  (s.noReadier_moves.xfer false _ h).ends.bind fun _ _ h1 =>
    (s.noReadier_moves.xfer true _ h1).ends.bind fun _ _ h2 => h2.markPrimed

/-- RESET_SEQ clears both flags at its start and sets `dev_ready` at its end only (R173). -/
theorem resetSeq_ends_notPrimed (s : State) :
    (resetSeq s).Ends s.clearReady.NoReadier fun t => t.host.primed = false :=
  have hmoves := s.clearReady.noReadier_moves
  (hmoves.xfer false _ ⟨id, rfl⟩).ends.bind fun _ _ h1 =>
    (hmoves.hostDelay _ h1).ends.bind fun _ _ h2 =>
      (hmoves.xfer false _ h2).ends.bind fun _ _ h3 =>
        (hmoves.hostDelay _ h3).ends.bind fun _ _ h4 =>
          (hmoves.xfer false _ h4).ends.bind fun _ _ h5 => h5.2

/-! ### What each operation leaves of them -/

/-- How an operation that came to a next state left the two flags. -/
inductive ReadinessAfter (i : Instr) (s t : State) : Prop
  | kept (hi : i ≠ .resetSeq) (h : s.NoReadier t)
  | readOver (hi : holdsRead i = true) (h : s.ReadOver t)
      (hresult : (∃ v accurate, t.host.result = .sample v accurate) ∨ t.host.result = .accepted)
  | resetSeqCut (hi : i = .resetSeq) (hdev : t.host.devReady = false) (hprimed : t.host.primed = false)
  | resetSeqOver (hi : i = .resetSeq) (hprimed : t.host.primed = false) (hresult : t.host.result = .completed)

theorem hostOp_kept {α : Type} {i : Instr} {s t : State} {run : State → HostRun α} {res : α → Result} (hi : i ≠ .resetSeq)
    (hrun : (run s).Keeps s.NoReadier) (he : hostOp s run (fun a u => u.setResult (res a)) = .next t) :
    ReadinessAfter i s t := by
  obtain ⟨-, ⟨a, u, hr, rfl⟩ | ⟨u, hr, rfl⟩⟩ := hostOp_eq_next he
  all_goals
    rw [hr] at hrun
    exact .kept hi hrun

theorem hostOp_read {α : Type} {i : Instr} {s t : State} {run : State → HostRun α} {res : α → Result}
    (hi : holdsRead i = true) (hrun : (run s).Ends s.NoReadier s.ReadOver)
    (hres : ∀ a, (∃ v accurate, res a = .sample v accurate) ∨ res a = .accepted)
    (he : hostOp s run (fun a u => u.setResult (res a)) = .next t) : ReadinessAfter i s t := by
  obtain ⟨-, ⟨a, u, hr, rfl⟩ | ⟨u, hr, rfl⟩⟩ := hostOp_eq_next he
  · rw [hr] at hrun
    exact .readOver hi hrun (hres a)
  · rw [hr] at hrun
    exact .kept (by rintro rfl; cases hi) hrun

theorem holdsRead_fieldMutator (f : Field) (v : Int) : holdsRead (fieldMutator f v) = true := by cases f <;> rfl

theorem fieldMutator_ne_resetSeq (f : Field) (v : Int) : fieldMutator f v ≠ .resetSeq := by cases f <;> exact nofun

theorem fieldMutator_readiness {f : Field} {v : Int} {s t : State} (he : exec (fieldMutator f v) s = .next t) :
    ReadinessAfter (fieldMutator f v) s t := by
  rw [exec_fieldMutator, mutate] at he
  split at he
  · exact hostOp_read (holdsRead_fieldMutator f v) (readSeq_ends_readOver (s := s) (t := s.setCfgField f v) _ ⟨id, rfl⟩)
      (fun _ => .inr rfl) he
  · exact hostOp_kept (run := .done ()) (fieldMutator_ne_resetSeq f v) ⟨id, rfl⟩ he

theorem resetSeq_readiness {s t : State} (he : exec .resetSeq s = .next t) : ReadinessAfter .resetSeq s t := by
  have hrun := resetSeq_ends_notPrimed s
  obtain ⟨-, ⟨a, u, hr, rfl⟩ | ⟨u, hr, rfl⟩⟩ := hostOp_eq_next he
  · rw [hr] at hrun
    exact .resetSeqOver rfl hrun rfl
  · rw [hr] at hrun
    exact .resetSeqCut rfl (Bool.eq_false_iff.2 fun h => Bool.false_ne_true (hrun.1 h)) hrun.2

theorem exec_readiness {i : Instr} {s t : State} (he : exec i s = .next t) : ReadinessAfter i s t := by
  have hxfer := fun r => s.noReadier_moves.xfer (s := s) false r ⟨id, rfl⟩
  cases i with
  | encode f => cases he; exact .kept nofun ⟨id, rfl⟩
  | extract src => obtain ⟨v, rfl⟩ := execExtract_eq_next he; exact .kept nofun ⟨id, rfl⟩
  | xferEnc ch o => exact hostOp_kept nofun (hxfer _) he
  | xferRaw w => exact hostOp_kept nofun (hxfer _) he
  | writeFrame f => exact hostOp_kept nofun (hxfer _) he
  | nopFrame => exact hostOp_kept nofun (hxfer _) he
  | onesFrame => exact hostOp_kept nofun (hxfer _) he
  | read c =>
    rw [exec_read, execRead] at he
    split at he
    · exact hostOp_read rfl (readSeq_ends_readOver _ ⟨id, rfl⟩) (fun v => .inl ⟨v, _, rfl⟩) he
    · cases he
  | resetSeq => exact resetSeq_readiness he
  | delay n => exact hostOp_kept nofun (s.noReadier_moves.hostDelay n ⟨id, rfl⟩) he
  | setSeq v => exact fieldMutator_readiness (f := .seq) he
  | setPm v => exact fieldMutator_readiness (f := .pm) he
  | setShadow v => exact fieldMutator_readiness (f := .shadow) he
  | setWeak v => exact fieldMutator_readiness (f := .weak) he
  | setRange v => exact fieldMutator_readiness (f := .range) he
  | setCoding v => exact fieldMutator_readiness (f := .coding) he

/-- Settles O53: by the ways in which an operation can leave the two flags. -/
theorem readinessComesOnlyFromItsOperations : Obligations.ReadinessComesOnlyFromItsOperations := by
  refine ⟨fun i s t he => ?_, fun s hr => by rw [State.tick_host, hr, Bool.not_true, Bool.and_false]⟩
  cases exec_readiness he with
  | kept hi h => exact ⟨fun hd => .inl (h.1 hd), fun hp => .inl (h.2 ▸ hp), fun hreset => absurd hreset hi⟩
  | readOver hi h hresult =>
    refine ⟨fun hd => .inl (h.1 hd), fun hp => (h.2 hp).imp_right fun hd => ⟨hi, hd, hresult⟩, ?_⟩
    rintro rfl
    cases hi
  | resetSeqCut hi hdev hprimed => simp [hdev, hprimed]
  | resetSeqOver hi hprimed hresult => simp [hi, hprimed, hresult]

end Sys2Proof.Machine
end

section
/-! A request kept up after its acceptance (60_exceptions R205; 95_test_vectors P5): the edge that accepts it, and the fault at
every later step without an operation. -/

namespace Sys2Proof.Machine

/-! ### The accepting edge (41_transactor R131) -/

section
variable {s : State} (hw : s.wasReset = true) (hr : s.rst = false) (hf : s.blk.fsm = .idle) (hv : s.ports.reqValid = true)
include hw hr hf hv

theorem State.tick_log_of_accept : s.tick.log = .accept s.cycle s.ports.frameWord :: s.log := by
  have hports : s.inputs.ports = s.ports := State.livePorts_eq_ports (.inl hv)
  have haccepts : s.blk.accepts s.inputs = true := (Block.accepts_iff _ _).2 ⟨hr, hf, by rw [hports, hv]⟩
  have hri : s.inputs.rst = false := hr
  simp [State.tick_run s hw hr, recordEvents, hri, haccepts, hports]

theorem State.tick_csN_of_accept : s.tick.csN = false := by
  have hvalid : s.inputs.ports.reqValid = true := by rw [State.inputs, State.livePorts_eq_ports (.inl hv), hv]
  rw [State.csN, State.tick_wasReset, hw, Bool.true_or, if_pos rfl, State.tick_run s hw hr,
    Block.edge_accept (i := s.inputs) hr hf hvalid]

/-- From the cycle after its acceptance on, a request still on the ports is one that was kept up (entry 18). -/
theorem State.requestHeld_tick_of_accept : s.tick.requestHeld = true := by
  rw [State.requestHeld, State.tick_ports, hv, State.tick_log_of_accept hw hr hf hv]
  rfl

end

/-! ### The edges after it -/

theorem State.requestHeld_ticks (n : Nat) {s : State} (h : s.requestHeld = true) (hn : s.noRstFor n) :
    (State.ticks n s).requestHeld = true := by
  induction n generalizing s with
  | zero => exact h
  | succ n ih =>
    have hr : s.rst = false := State.rst_false_of s hn n.succ_pos
    exact ih (State.requestHeld_tick h hr) (State.noRstFor_tick hn)

/-- Clk edges take nothing off the queue. -/
theorem State.ticks_nextRecord (n : Nat) (s : State) : (State.ticks n s).nextRecord = s.nextRecord := by
  induction n generalizing s with
  | zero => rfl
  | succ n ih => rw [State.ticks_succ, ih, State.nextRecord, State.tick_host, State.nextRecord]

theorem step_of_request_held {s : State} (hn : s.nextRecord = none) (h : s.requestHeld = true) :
    step s = .fault .duplicateRequest := by
  rw [step_of_nothing_queued hn, State.idleStep_held h]

/-! ### The obligation -/

/-- Settles O57: the accepting edge makes the request a held one, and every later edge without a reset keeps it so. -/
theorem requestKeptUpFaults : Obligations.RequestKeptUpFaults := by
  intro s n hprog hv hw hf hn
  have hr : s.rst = false := State.rst_false_of s hn n.succ_pos
  have hnone : (State.ticks (n + 1) s).nextRecord = none := by
    rw [State.ticks_nextRecord, State.nextRecord_of_prog hprog, List.head?_nil]
  have hheld : (State.ticks (n + 1) s).requestHeld = true :=
    State.requestHeld_ticks n (State.requestHeld_tick_of_accept hw hr hf hv) (State.noRstFor_tick hn)
  exact ⟨State.tick_log_of_accept hw hr hf hv, State.tick_csN_of_accept hw hr hf hv, step_of_request_held hnone hheld⟩

end Sys2Proof.Machine
end

section
/-! The edge with `rst = 1` and the time before the first one (70_reset_and_hazards R220, R221, R223): what the edge writes, and
what cannot be read or asked for before it. -/

namespace Sys2Proof.Machine

open Sys2Proof.Claims

/-! ### Before the first reset (R223) -/

theorem State.registers_of_not_wasReset {s : State} (h : s.wasReset = false) : s.registers = .error .unwrittenRegister :=
  if_neg (by simp [h])

theorem State.tick_of_not_wasReset {s : State} (hw : s.wasReset = false) (hr : s.rst = false) :
    s.tick = { s with cycle := s.cycle + 1 } :=
  if_neg (by simp [hw, hr])

/-- Idle cycles pass without writing a register, whatever another requester does in them. -/
theorem hostWait_of_not_wasReset (n : Nat) {s : State} (hw : s.wasReset = false) (hn : s.noRstFor n) :
    ∃ t, hostWait false n s = .done () t ∧ t.wasReset = false := by
  induction n generalizing s with
  | zero => exact ⟨s, rfl, hw⟩
  | succ n ih =>
    have hr : s.rst = false := s.rst_false_of hn n.succ_pos
    obtain ⟨t, hrun, ht⟩ := ih (s := s.tick) (by simp [hw, hr]) (State.noRstFor_tick hn)
    exact ⟨t, by simpa [hostWait, hr] using hrun, ht⟩

theorem xfer_of_not_wasReset (r : Request) {s : State} (hw : s.wasReset = false) (hn : s.noRstFor s.nextPause) :
    xfer false r s = .stopped .unwrittenRegister := by
  obtain ⟨t, hrun, ht⟩ := hostWait_of_not_wasReset s.nextPause (s := s.popPause) hw hn
  rw [xfer, hrun, HostRun.bind_done, offer_of_not_wasReset false _ (s := t.drive r) ht, HostRun.bind_stopped]

/-! ### The operations that are one frame -/

theorem exec_of_requestOf {i : Instr} {s : State} {r : Request} (h : requestOf s.host.cfg i = some r) :
    exec i s = execXfer r s := by
  cases i
  case xferEnc ch o => cases h; rfl
  case xferRaw w => cases h; rfl
  case writeFrame f => cases h; rfl
  case nopFrame => cases h; rfl
  case onesFrame => cases h; rfl
  all_goals cases h

/-! ### The obligations -/

/-- Settles O15: the reset arm of the step function, and acceptance asks for `rst = 0`. -/
theorem resetOverridesEveryArm : Obligations.ResetOverridesEveryArm := by
  intro p b i hr
  exact ⟨Block.edge_reset hr, by simp [Block.accepts, hr]⟩

/-- Settles O16: each output is read from the state of `State.tick_rst`, whose block is idle, so the next edge accepts. -/
theorem outputsAfterReset : Obligations.OutputsAfterReset := by
  intro s hr
  have ht := s.tick_rst hr
  refine ⟨congrArg State.reqReady ht, congrArg State.busy ht, congrArg State.rspValid ht, congrArg State.rspWord ht,
    congrArg State.rspSample ht, congrArg State.rspSample16 ht, congrArg State.csN ht, congrArg State.sclk ht,
    congrArg State.mosi ht, congrArg (·.host.devReady) ht, congrArg (·.dev.settled) ht, congrArg (·.dev.convCh) ht,
    congrArg (·.dev.ctrl) ht, congrArg (·.dev.conv) ht, congrArg State.log ht, fun hrun hv => ?accepted⟩
  case accepted =>
    have hw : s.tick.wasReset = true := congrArg State.wasReset ht
    have hidle : s.tick.blk.fsm = .idle := congrArg (·.blk.fsm) ht
    have hvalid : s.tick.ports.reqValid = true := by rw [State.tick_ports, hv]
    refine ⟨?_, State.tick_csN_of_accept hw hrun hidle hvalid⟩
    rw [State.tick_log_of_accept hw hrun hidle hvalid, State.tick_cycle, State.tick_ports]

/-- Settles O46: no register is readable, no edge writes one, and so the request of a frame is still not answered at its edge. -/
theorem nothingIsReadableBeforeTheFirstReset : Obligations.NothingIsReadableBeforeTheFirstReset := by
  intro s hw
  have hread : ∀ {α : Type} (f : Block → α), s.registers.map f = .error .unwrittenRegister := fun f => by
    rw [State.registers_of_not_wasReset hw]
    rfl
  have hpin : ∀ {level free : Bool}, (if s.wasReset then level else free) = free := if_neg (by simp [hw])
  refine ⟨hread _, State.rspSample_of_not_wasReset hw, congrArg (Except.map sample16) (hread _), hread _, hread _, hread _,
    hpin, hpin, hpin, State.tick_of_not_wasReset hw, fun i r hi hp hn => ?frame⟩
  case frame =>
    have hmay : s.startFault = none := s.startFault_eq_none.2 ⟨hp, by simp [hw]⟩
    rw [exec_of_requestOf hi, execXfer, hostOp_of_startFault_none hmay, xfer_of_not_wasReset r hw hn, HostRun.outcome_stopped]

end Sys2Proof.Machine
end

section
/-! A request held for ever (70_reset_and_hazards R233; 95_test_vectors T-6): each frame with its gap ends in the idle block that
the next one starts from. -/

namespace Sys2Proof.Machine

open Sys2Proof.Claims

theorem blockAt_add (p : Params) (inp : Nat → Inputs) (b : Block) (m n : Nat) :
    blockAt p inp b (m + n) = blockAt p (fun k => inp (m + k)) (blockAt p inp b m) n := by
  induction n with
  | zero => rfl
  | succ n ih => rw [← Nat.add_assoc, blockAt, blockAt, ih]

theorem Block.Inv.blockAt {p : Params} {b : Block} (h : b.Inv p) (inp : Nat → Inputs) (n : Nat) :
    (blockAt p inp b n).Inv p := by
  induction n with
  | zero => exact h
  | succ n ih => exact ih.edge (inp n)

/-- From an idle block on, the block is idle at the multiples of the period, and nowhere between. -/
theorem blockAt_idle_iff_of_held {p : Params} {b : Block} {inp : Nat → Inputs} (hi : b.Inv p) (hf : b.fsm = .idle)
    (hheld : ∀ k, (inp k).rst = false ∧ (inp k).ports.reqValid = true) (n : Nat) :
    (blockAt p inp b n).fsm = .idle ↔ n % (34 * p.div + 1) = 0 := by
  induction n using Nat.strong_induction_on generalizing b inp with
  | h n ih =>
    have hstart : StartsFrame p b (inp 0) := ⟨hi, hf, (hheld 0).2⟩
    obtain ⟨-, -, -, -, hidle, -⟩ := frameEdgesFallAtTheirClkEdges p b inp hstart fun k _ => (hheld k).1
    rcases Nat.lt_or_ge n (34 * p.div + 1) with hlt | hge
    · rw [Nat.mod_eq_of_lt hlt]
      rcases Nat.eq_zero_or_pos n with rfl | hpos
      · exact iff_of_true hf rfl
      · exact iff_of_false (fun h => hlt.ne ((hidle n hpos hlt.le).1 h)) hpos.ne'
    · obtain ⟨m, rfl⟩ := Nat.exists_eq_add_of_le hge
      have hagain : (blockAt p inp b (34 * p.div + 1)).fsm = .idle := (hidle _ (Nat.succ_pos _) le_rfl).2 rfl
      rw [blockAt_add, Nat.add_mod_left]
      exact ih m (by omega) (hi.blockAt inp _) hagain fun k => hheld _

/-- Settles O26: with the request always up and no reset, an idle block is one that accepts. -/
theorem heldRequestIsAcceptedAgainAndAgain : Obligations.HeldRequestIsAcceptedAgainAndAgain := by
  intro p b inp hi hf hheld n
  rw [Block.accepts_iff, ← blockAt_idle_iff_of_held hi hf hheld n]
  exact ⟨fun h => h.2.1, fun h => ⟨(hheld n).1, h, (hheld n).2⟩⟩

end Sys2Proof.Machine
end

section
/-! An operation cut short by the first `rst` (70_reset_and_hazards R222). A frame and a wait are the pieces of every host
operation; what a cut leaves of one piece goes through `HostRun.bind` to the operation as a whole. -/

namespace Sys2Proof.Claims

open Sys2Proof.Machine

/-! ### The first reset, and what it leaves -/

theorem FirstRst.mono {s : State} {k m n : Nat} (h : FirstRst s k n) (hk : k < s.cycle + m) : FirstRst s k m :=
  ⟨h.from_now, hk, h.rst, h.first, h.alone⟩

theorem FirstRst.congr {s t : State} {k n : Nat} (h : FirstRst s k n) (he : t.env = s.env) (hc : t.cycle = s.cycle) :
    FirstRst t k n := by
  obtain ⟨hfrom, hwithin, hrst, hfirst, halone⟩ := h
  constructor <;> simp only [State.noRstFor, State.noRivalFor, he, hc] <;> assumption

/-- Nothing disturbs the cycles before the first reset. -/
theorem FirstRst.calmFor {s : State} {k m n : Nat} (h : FirstRst s k n) (hk : s.cycle + m ≤ k) : s.calmFor m :=
  ⟨State.noRstFor_mono h.first (by omega), State.noRivalFor_mono h.alone (by omega)⟩

/-- Some cycles later, but not past it, the reset is still the first one. -/
theorem FirstRst.later {s t : State} {k m n : Nat} (h : FirstRst s k (m + n)) (hk : t.cycle ≤ k) (he : t.env = s.env)
    (hc : t.cycle = s.cycle + m) : FirstRst t k n := by
  have hsplit : k - s.cycle = m + (k - t.cycle) := by omega
  exact
    { from_now := hk
      within := by have := h.within; omega
      rst := he ▸ h.rst
      first := State.noRstFor_later (hsplit ▸ h.first) he hc
      alone := State.noRivalFor_later (hsplit ▸ h.alone) he hc }

/-- Only the parameters, the inputs from outside and the queue of the state at the start count. -/
theorem Abandoned.of_start {s s' t : State} {k : Nat} (h : Abandoned s' t k) (hp : s'.params = s.params) (he : s'.env = s.env)
    (hq : s'.host.prog = s.host.prog) : Abandoned s t k :=
  { h with
    block := hp ▸ h.block
    params := h.params.trans hp
    env := h.env.trans he
    queue := h.queue.trans hq }

end Sys2Proof.Claims

namespace Sys2Proof.Machine

open Sys2Proof.Claims

/-- What the edge of a reset leaves of `s` with its request withdrawn, once the operation has given up its result. -/
theorem State.abandoned_setResult {s : State} (ports : Ports) (hports : ports.reqValid = false) (pauses : List Nat) (k : Nat)
    (cut : Bool) (log : List Event) :
    Abandoned s
      ({ s with
        blk := .resetValue s.params
        ports := ports
        dev := .unknown log k
        host := { s.host with devReady := false, pauses := pauses }
        log := .reset k cut :: log
        cycle := k + 1 }.setResult .abandoned) k where
  block := rfl
  result := rfl
  noUse := if_pos rfl
  devReady := rfl
  dropped := hports
  cycle := rfl
  newest := ⟨cut, rfl⟩
  settled := rfl
  convCh := rfl
  ctrl := rfl
  conv := rfl
  params := rfl
  env := rfl
  queue := rfl

/-! ### A frame and a wait, cut short -/

section
variable {s : State} {k : Nat} (hs : s.Ready)

include hs

theorem State.Ready.xfer_firstRst (g : Bool) (r : Request) (h : FirstRst s k s.frameCycles) :
    ∃ u, xfer g r s = .abandoned u ∧ Abandoned s (u.setResult .abandoned) k ∧
      u.host = { s.host with devReady := false, pauses := s.host.pauses.tail } ∧
      u.log = .reset k (decide (s.acceptEdge < k)) :: (if s.acceptEdge < k then s.acceptLog r else s.log) := by
  have hend : k ≤ s.frameEnd := by
    have hlast := s.frameEnd_eq
    have hwithin := h.within
    omega
  obtain ⟨u, hrun, hreq, hdev, hu⟩ := xfer_cut g r hs h.from_now hend h.rst h.first h.alone
  have hlog := congrArg State.log hu
  refine ⟨u, hrun, ?_, congrArg State.host hu, hlog⟩
  rw [hdev, hlog] at hu
  rw [hu]
  exact State.abandoned_setResult u.ports hreq _ k _ _

theorem State.Ready.hostDelay_firstRst (n : Nat) (h : FirstRst s k (n * s.params.delayUnit)) :
    ∃ u, hostDelay n s = .abandoned u ∧ Abandoned s (u.setResult .abandoned) k ∧
      u.host = { s.host with devReady := false } ∧ u.log = .reset k false :: .delay s.cycle n :: s.log :=
  ⟨_, hostDelay_cut n hs h.from_now h.within h.rst h.first h.alone, State.abandoned_setResult _ rfl _ k _ _, rfl, rfl⟩

end

/-! ### From a cut piece to the operation -/

theorem State.cycle_le_acceptEdge (s : State) : s.cycle ≤ s.acceptEdge := Nat.le_add_right _ _

theorem State.acceptEdge_lt_afterFrame_cycle (s : State) (r : Request) : s.acceptEdge < (s.afterFrame r).cycle :=
  Nat.lt_succ_of_le (Nat.le_add_right _ _)

theorem sentBefore_eq_zero {a k : Nat} (h : k ≤ a) : sentBefore a k = 0 := if_neg h.not_gt

theorem sentBefore_eq_one {a k : Nat} (h : a < k) : sentBefore a k = 1 := if_pos h

/-- The `rst` at edge `k` left `u` of what started in `s` and had sent `n` frames: no result, and of the host's memory
`primed` and the configuration (entries 16 and 17). -/
structure State.CutTo (s u : State) (k n : Nat) : Prop where
  abandoned : Abandoned s (u.setResult .abandoned) k
  primed : u.host.primed = s.host.primed
  cfg : u.host.cfg = s.host.cfg
  frames : frameCount u.log = frameCount s.log + n

/-- A piece of an operation leads from `s` to `t` in `len` clk edges. Once they are over at edge `k`, it has sent `n` frames. -/
structure State.LeadsTo (s t : State) (k len n : Nat) : Prop where
  params : t.params = s.params
  env : t.env = s.env
  prog : t.host.prog = s.host.prog
  primed : t.host.primed = s.host.primed
  cfg : t.host.cfg = s.host.cfg
  cycle : t.cycle = s.cycle + len
  frames : t.cycle ≤ k → frameCount t.log = frameCount s.log + n

/-- A cut in a later piece is a cut of the whole. -/
theorem State.LeadsTo.cutTo {s t u : State} {k len m n : Nat} (h : s.LeadsTo t k len m) (hk : t.cycle ≤ k)
    (hu : t.CutTo u k n) : s.CutTo u k (m + n) where
  abandoned := hu.abandoned.of_start h.params h.env h.prog
  primed := hu.primed.trans h.primed
  cfg := hu.cfg.trans h.cfg
  frames := by rw [hu.frames, h.frames hk, Nat.add_assoc]

/-- A run from `s` that takes `len` clk edges is cut short by the first `rst` in cycle `k` of them, with `n` frames sent, of which
there are none before its start. -/
structure HostRun.CutsWithin {α : Type} (run : HostRun α) (s : State) (k len n : Nat) : Prop where
  cut : FirstRst s k len → ∃ u, run = .abandoned u ∧ s.CutTo u k n
  none_before : k ≤ s.cycle → n = 0

/-- One piece after another: the reset comes in the first of them, and nothing of the second is sent, or after it. -/
theorem HostRun.CutsWithin.bind {α β : Type} {run : HostRun α} {f : α → State → HostRun β} {s t : State} {a : α}
    {k len len' n n' : Nat} (hrun : run.CutsWithin s k len n) (hdone : s.calmFor len → run = .done a t)
    (ht : s.LeadsTo t k len n) (hf : (f a t).CutsWithin t k len' n') :
    (run.bind f).CutsWithin s k (len + len') (n + n') where
  cut h := by
    rcases Nat.lt_or_ge k (s.cycle + len) with hin | hpast
    · obtain ⟨u, hu, hcut⟩ := hrun.cut (h.mono hin)
      rw [hu, HostRun.bind_abandoned, hf.none_before (ht.cycle ▸ hin.le)]
      exact ⟨u, rfl, hcut⟩
    · have hk : t.cycle ≤ k := ht.cycle ▸ hpast
      rw [hdone (h.calmFor hpast), HostRun.bind_done]
      obtain ⟨u, hu, hcut⟩ := hf.cut (h.later hk ht.env ht.cycle)
      exact ⟨u, hu, ht.cutTo hk hcut⟩
  none_before hk := by
    rw [hrun.none_before hk, hf.none_before (ht.cycle ▸ Nat.le_add_right_of_le hk)]

/-- What comes after the last clk edge is not reached. -/
theorem HostRun.CutsWithin.bind_last {α β : Type} {run : HostRun α} {s : State} {k len n : Nat} (h : run.CutsWithin s k len n)
    (f : α → State → HostRun β) : (run.bind f).CutsWithin s k len n where
  cut hfirst := by
    obtain ⟨u, hu, hcut⟩ := h.cut hfirst
    exact ⟨u, by rw [hu, HostRun.bind_abandoned], hcut⟩
  none_before := h.none_before

theorem State.leadsTo_afterFrame (s : State) (r : Request) (k : Nat) :
    s.LeadsTo (s.afterFrame r) k s.frameCycles (sentBefore s.acceptEdge k) where
  params := rfl
  env := rfl
  prog := rfl
  primed := rfl
  cfg := rfl
  cycle := s.afterFrame_cycle r
  frames hk := by rw [sentBefore_eq_one ((s.acceptEdge_lt_afterFrame_cycle r).trans_le hk)]; rfl

theorem State.leadsTo_afterDelay (s : State) (d k : Nat) : s.LeadsTo (s.afterDelay d) k (d * s.params.delayUnit) 0 where
  params := rfl
  env := rfl
  prog := rfl
  primed := rfl
  cfg := rfl
  cycle := rfl
  frames _ := rfl

section
variable {s : State} {k m n : Nat} {α : Type} (hs : s.Ready)

include hs

theorem State.Ready.xfer_cutsWithin (g : Bool) (r : Request) :
    (xfer g r s).CutsWithin s k s.frameCycles (sentBefore s.acceptEdge k) where
  cut h := by
    obtain ⟨u, hrun, hab, hhost, hlog⟩ := hs.xfer_firstRst g r h
    refine ⟨u, hrun, hab, by rw [hhost], by rw [hhost], ?_⟩
    rw [hlog, frameCount, sentBefore]
    split <;> rfl
  none_before hk := sentBefore_eq_zero (hk.trans s.cycle_le_acceptEdge)

theorem State.Ready.hostDelay_cutsWithin (d : Nat) : (hostDelay d s).CutsWithin s k (d * s.params.delayUnit) 0 where
  cut h := by
    obtain ⟨u, hrun, hab, hhost, hlog⟩ := hs.hostDelay_firstRst d h
    exact ⟨u, hrun, hab, by rw [hhost], by rw [hhost], by rw [hlog]; rfl⟩
  none_before _ := rfl

/-- An operation that goes on after a frame. -/
theorem State.Ready.xfer_bind_cutsWithin {g : Bool} {r : Request} {f : Word16 → State → HostRun α}
    (hf : (f (s.frameResponse r) (s.afterFrame r)).CutsWithin (s.afterFrame r) k m n) :
    ((xfer g r s).bind f).CutsWithin s k (s.frameCycles + m) (sentBefore s.acceptEdge k + n) :=
  (hs.xfer_cutsWithin g r).bind (fun hc => xfer_undisturbed g r hs hc.1 hc.2) (s.leadsTo_afterFrame r k) hf

/-- An operation that goes on after a wait. -/
theorem State.Ready.hostDelay_bind_cutsWithin {d : Nat} {f : Unit → State → HostRun α}
    (hf : (f () (s.afterDelay d)).CutsWithin (s.afterDelay d) k m n) :
    ((hostDelay d s).bind f).CutsWithin s k (d * s.params.delayUnit + m) n :=
  Nat.zero_add n ▸
    (hs.hostDelay_cutsWithin d).bind (fun hc => (hostDelay_undisturbed d hs hc).1) (s.leadsTo_afterDelay d k) hf

end

/-! ### READ and RESET_SEQ, cut short -/

/-- A wait outside a frame keeps the invariant and stays outside: it is edges at which no request is offered. -/
theorem Block.Inv.waited {p : Params} {b : Block} (h : b.Inv p) (ho : b.fsm ≠ .active) (m : Nat) :
    (b.waited p m).Inv p ∧ (b.waited p m).fsm ≠ .active := by
  induction m with
  | zero => exact ⟨h, ho⟩
  | succ m ih =>
    obtain ⟨hinv, hout⟩ := ih
    rw [← Block.edge_waited (i := { rst := false, ports := .quiet, miso := false }) m rfl h ho rfl]
    refine ⟨hinv.edge _, fun hactive => ?_⟩
    rcases Block.active_of_edge_active hactive with hf | haccepts
    · exact hout hf
    · cases ((Block.accepts_iff _ _).1 haccepts).2.2

theorem State.Ready.afterDelay {s : State} (hs : s.Ready) (d : Nat) : (s.afterDelay d).Ready := by
  obtain ⟨hinv, hout⟩ := hs.inv.waited hs.out (d * s.params.delayUnit)
  exact ⟨hinv, hs.reset, (State.startFault_eq_none _).2 ⟨(s.startFault_eq_none.1 hs.may).1, fun _ => hout⟩⟩

theorem State.Ready.readSeq_cutsWithin {s : State} (hs : s.Ready) (c : Channel) (k : Nat) :
    (readSeq c s).CutsWithin s k (s.readCycles c)
      (sentBefore s.acceptEdge k + sentBefore (s.afterFrame (readRequest c s)).acceptEdge k) := by
  rw [State.readCycles_eq]
  exact hs.xfer_bind_cutsWithin (((hs.afterFrame _).xfer_cutsWithin true _).bind_last _)

/-- The flags that RESET_SEQ clears at its start stay cleared where it is cut. -/
theorem State.Ready.resetSeq_cutsWithin {s : State} (hs : s.Ready) (k : Nat) :
    let s2 := (s.afterFrame (.raw onesWord)).afterDelay s.params.settle
    let s4 := (s2.afterFrame (.raw onesWord)).afterDelay s.params.settle
    (resetSeq s).CutsWithin s.clearReady k s.resetSeqCycles
      (sentBefore s.acceptEdge k + (sentBefore s2.acceptEdge k + sentBefore s4.acceptEdge k)) := by
  intro s2 s4
  have h0 : s.clearReady.Ready := hs.congr rfl rfl rfl rfl
  have h1 := h0.afterFrame (.raw onesWord)
  have h2 := h1.afterDelay s.params.settle
  have h3 := h2.afterFrame (.raw onesWord)
  have h4 := h3.afterDelay s.params.settle
  rw [State.resetSeqCycles_eq]
  exact h0.xfer_bind_cutsWithin <| h1.hostDelay_bind_cutsWithin <| h2.xfer_bind_cutsWithin <|
    h3.hostDelay_bind_cutsWithin <| (h4.xfer_cutsWithin false _).bind_last _

/-! ### The obligations -/

theorem hostOp_of_abandoned {α : Type} {s u : State} {run : State → HostRun α} {finish : α → State → State}
    (hmay : s.startFault = none) (hrun : run s = .abandoned u) : hostOp s run finish = .next (u.setResult .abandoned) := by
  rw [hostOp_of_startFault_none hmay, hrun, HostRun.outcome_abandoned]

/-- Settles O43: the one frame of the operation, cut short. -/
theorem resetAbandonsAFrame : Obligations.ResetAbandonsAFrame := by
  intro s i r k hi hs hk hend hr hn hv
  have hfirst : FirstRst s k s.frameCycles := ⟨hk, s.frameEnd_eq ▸ Nat.lt_succ_of_le hend, hr, hn, hv⟩
  obtain ⟨u, hrun, hab, hhost, hlog⟩ := hs.xfer_firstRst false r hfirst
  refine ⟨_, (exec_of_requestOf hi).trans (hostOp_of_abandoned hs.may hrun), hab, hab.block, ?host, hab.noUse, hab.params,
    hab.dropped, hab.cycle, hlog⟩
  case host => rw [State.setResult, hhost]

/-- Settles O44: the cut comes in one of the two frames; a frame accepted before it is on the record. -/
theorem resetAbandonsARead : Obligations.ResetAbandonsARead := by
  intro s c k h0 h15 hs hk hend hr hn hv
  obtain ⟨u, hrun, hcut⟩ := (hs.readSeq_cutsWithin (channelOf c) k).cut ⟨hk, hend, hr, hn, hv⟩
  have hab := hcut.abandoned
  have hexec : exec (.read c) s = .next (u.setResult .abandoned) :=
    (if_pos ((channelInRange_iff c).2 ⟨h0, h15⟩)).trans (hostOp_of_abandoned hs.may hrun)
  exact ⟨_, hexec, hab, hab.block, hab.cycle, hab.devReady, hcut.primed, hcut.cfg, hab.result, hab.noUse,
    hcut.frames.trans (Nat.add_assoc _ _ _).symm⟩

/-- Settles O54: the cut comes in one of the three frames or the two waits. -/
theorem resetAbandonsAResetSeq : Obligations.ResetAbandonsAResetSeq := by
  intro s k hs hfirst s2 s4
  obtain ⟨u, hrun, hcut⟩ := (hs.resetSeq_cutsWithin k).cut (hfirst.congr rfl rfl)
  refine ⟨_, hostOp_of_abandoned hs.may hrun, hcut.abandoned.of_start rfl rfl rfl, hcut.primed, hcut.cfg, ?_⟩
  exact hcut.frames.trans (by simp only [State.clearReady_log, Nat.add_assoc]; rfl)

/-- Settles O55: the wait, cut short outside a frame. -/
theorem resetAbandonsADelay : Obligations.ResetAbandonsADelay := by
  intro s n k hs hfirst
  obtain ⟨u, hrun, hab, hhost, hlog⟩ := hs.hostDelay_firstRst n hfirst
  have hprimed : u.host.primed = s.host.primed := by rw [hhost]
  have hcfg : u.host.cfg = s.host.cfg := by rw [hhost]
  exact ⟨_, hostOp_of_abandoned hs.may hrun, hab, hprimed, hcfg, hlog⟩

/-- The generic mutator of R181: its dummy READ, cut short, with the configuration already changed (entry 17). -/
theorem takesUntilRst_fieldMutator {f : Field} {v : Int} {s : State} (hs : s.Ready) (hv : 0 ≤ v ∧ v ≤ Field.top f) (k : Nat) :
    TakesUntilRst (fieldMutator f v) (setField f v s.host.cfg) s k := by
  intro hfirst
  have hnew : (withCfg s (setField f v s.host.cfg)).Ready := hs.congr rfl rfl rfl rfl
  obtain ⟨u, hrun, hcut⟩ := (hnew.readSeq_cutsWithin s.params.dummyCh k).cut (hfirst.congr rfl rfl)
  have hexec : exec (fieldMutator f v) s = .next (u.setResult .abandoned) := by
    rw [exec_fieldMutator, mutate, if_pos ((legalValue_iff f v).2 hv)]
    exact hostOp_of_abandoned hs.may hrun
  exact ⟨_, hexec, hcut.abandoned.of_start rfl rfl rfl, hcut.primed, hcut.cfg, hcut.frames.trans (Nat.add_assoc _ _ _).symm⟩

/-- Settles O56: the generic mutator, for each field. -/
theorem resetAbandonsAMutator : Obligations.ResetAbandonsAMutator := by
  intro s v k hs
  have htakes := fun f h0 h1 => takesUntilRst_fieldMutator (f := f) (v := v) hs ⟨h0, h1⟩ k
  exact ⟨htakes .seq, htakes .pm, htakes .shadow, htakes .weak, htakes .range, htakes .coding⟩

end Sys2Proof.Machine
end

section
/-! The source's worked example (90_conflicts C1), from the weights of the encoder's fields (30_encoding R81). -/

namespace Sys2Proof.Machine

/-- Settles O6: by the weights, 0x8000 + 5 * 0x400 + 3 * 0x100 + 0x40 + 0x20 + 0x10 for the worked example, and
0x8000 + 13 * 0x400 + 0x100 + 0x80 + 0x40 + 0x20 + 0x10 for the inputs of 0xB5F0. -/
theorem sourceExampleEncodesTo9770 : Obligations.SourceExampleEncodesTo9770 := by
  constructor
  case left => exact BitVec.eq_of_toNat_eq (toNat_encodeWord _)
  case right => exact BitVec.eq_of_toNat_eq (toNat_encodeWord _)

end Sys2Proof.Machine
end
